-- ==== Sys2Proof/Word.lean ====
section
/-!
DEFINITION. The part's plainest words: a byte, a 16-bit word, slot and group numbers (spec/00_scope.md, Numbering).
-/
namespace Sys2Proof

/-- One byte of the region or of the link. -/
abbrev Byte := BitVec 8

/-- A slot number, 0 to 63 (00_scope.md, Numbering). -/
abbrev SlotId := Fin 64

/-- A tenant group, 0 to 7 (00_scope.md, Numbering). -/
abbrev GroupId := Fin 8

end Sys2Proof
end

