-- ==== Sys2Proof/Syntax.lean ====
section
/-!
DEFINITION. The commands of the part: one constructor of `Instr` per row of spec/opcode_table.json.
The table gives its rows no bits; the operands are what the row's rule says the event carries.
-/
namespace Sys2Proof

/-- The status byte that closes an exchange (11.7, Link statuses). -/
inductive Status where
  | accept | noCall | state | busy | dnd | noStation | noDest | full | night | overflow | dup | parity | format
  deriving DecidableEq, Repr

/-- One byte on the link with its parity line SDP (R127). -/
structure LinkByte where
  data : Byte
  sdp : Bool
  deriving DecidableEq, Repr

/-- Who changes what SRST reads: the part or the switch (R127, R144). -/
inductive Side where
  | part | switch
  deriving DecidableEq, Repr

/-- An inserted write cycle begins, or the cycle in progress ends (R154). -/
inductive CyclePhase where
  | begins | ends
  deriving DecidableEq, Repr

/-- The commands, in the table's order. -/
inductive Instr where
  /-- ANSWER (R51): the processor writes ANSWER into the slot's request code byte. -/
  | answer (slot : SlotId)
  /-- HOLD (R53). -/
  | hold (slot : SlotId)
  /-- RETRIEVE (R55). -/
  | retrieve (slot : SlotId)
  /-- EXTEND (R75). -/
  | extend (slot : SlotId)
  /-- COMPLETE (R84). -/
  | complete (slot : SlotId)
  /-- CANCEL (R83, R94). -/
  | cancel (slot : SlotId)
  /-- SWAP (R82). -/
  | swap (slot : SlotId)
  /-- RELEASE (R58, R13, R14). -/
  | release (slot : SlotId)
  /-- DIVERT (R60). -/
  | divert (slot : SlotId)
  /-- ANSWER_NEXT (R65): a write of the console request byte, as the four that follow. -/
  | answerNext
  /-- DAY (R44). -/
  | day
  /-- NIGHT (R45). -/
  | night
  /-- RESET_ESTIMATE (R69): the group is in the console operand byte. -/
  | resetEstimate
  /-- RESTART (R70). -/
  | restart
  /-- OFFER (R35), at its last byte: call reference, group byte, class byte, origin tag. -/
  | offer (ref : BitVec 16) (group cls : Byte) (tag : BitVec 16)
  /-- CLEARED (R23). -/
  | cleared (ref : BitVec 16)
  /-- DEST_ANSWER (R86, R89). -/
  | destAnswer (ref : BitVec 16)
  /-- DEST_CLEARED (R87). -/
  | destCleared (ref : BitVec 16)
  /-- STATION (R73): call reference, station, condition byte. -/
  | station (ref : BitVec 16) (st cond : Byte)
  /-- UNKNOWN_KIND (R133, R134): the kind byte and the call reference. -/
  | unknownKind (kind : Byte) (ref : BitVec 16)
  /-- PARITY_ERROR_FRAME (R134): the frame's bytes with their parity lines. -/
  | parityErrorFrame (frame : List LinkByte)
  /-- REPORT_STATUS_SENT (R135). -/
  | reportStatusSent
  /-- ANSWER_ORDER_STATUS (R52). -/
  | answerOrderStatus (st : Status)
  /-- ANSWER_NEXT_ORDER_STATUS (R66). -/
  | answerNextOrderStatus (st : Status)
  /-- HOLD_ORDER_STATUS (R54). -/
  | holdOrderStatus (st : Status)
  /-- RETRIEVE_ORDER_STATUS (R56). -/
  | retrieveOrderStatus (st : Status)
  /-- RELEASE_ORDER_STATUS (R59). -/
  | releaseOrderStatus (st : Status)
  /-- DIVERT_ORDER_STATUS (R61). -/
  | divertOrderStatus (st : Status)
  /-- EXTEND_ORDER_STATUS (R77, R78, R79). -/
  | extendOrderStatus (st : Status)
  /-- CAMP_HOLD_STATUS (R80). -/
  | campHoldStatus (st : Status)
  /-- JOIN_ORDER_STATUS (R85). -/
  | joinOrderStatus (st : Status)
  /-- DROP_DEST_ORDER_STATUS (R83). -/
  | dropDestOrderStatus (st : Status)
  /-- SWAP_ORDER_STATUS (R82). -/
  | swapOrderStatus (st : Status)
  /-- CAMP_WAKE_STATUS (R93). -/
  | campWakeStatus (st : Status)
  /-- RECALL_LEG_STATUS (R106). -/
  | recallLegStatus (st : Status)
  /-- NIGHT_DIVERT_STATUS (R46). -/
  | nightDivertStatus (st : Status)
  /-- NIGHT_EXPIRY_DIVERT_STATUS (R109). -/
  | nightExpiryDivertStatus (st : Status)
  /-- SHED_DIVERT_STATUS (R124). -/
  | shedDivertStatus (st : Status)
  /-- DEFERRED_RELEASE_STATUS (R14). -/
  | deferredReleaseStatus (st : Status)
  /-- SCS_ASSERTED (R131). -/
  | scsAsserted
  /-- SCS_DROPPED (R135, R136). -/
  | scsDropped
  /-- ARBITRATION_WINDOW_END (R131). -/
  | arbitrationWindowEnd
  /-- ORDER_FRAME_SENT (R137). -/
  | orderFrameSent
  /-- LINK_WAIT_TIMEOUT (R128). -/
  | linkWaitTimeout
  /-- SRST_ASSERTED (R144): whose drive makes the line read asserted. -/
  | srstAsserted (side : Side)
  /-- SRST_DRIVE_END (R146). -/
  | srstDriveEnd
  /-- SRST_DEASSERTED (R147): who stopped driving the line. -/
  | srstDeasserted (side : Side)
  /-- TICK (R97): how many of the tick's expiries are applied before its evaluation (R125, log 10). -/
  | tick (before : Nat)
  /-- HOLD_TIMER_EXPIRY (R104). -/
  | holdTimerExpiry (slot : SlotId)
  /-- CAMP_TIMER_EXPIRY (R104). -/
  | campTimerExpiry (slot : SlotId)
  /-- NOANS_TIMER_EXPIRY (R105). -/
  | noansTimerExpiry (slot : SlotId)
  /-- NIGHT_EXPIRY (R108). -/
  | nightExpiry (slot : SlotId)
  /-- PROCESSOR_WRITE (R150): any write the processor makes (log 9). -/
  | processorWrite (addr : BitVec 16) (value : Byte)
  /-- SNAPSHOT (R160, R161): any read the processor makes (log 8). -/
  | snapshot (addr : BitVec 16)
  /-- CAUSE_WORD_READ (R162). -/
  | causeWordRead
  /-- INSERTED_CYCLE (R154). -/
  | insertedCycle (phase : CyclePhase)
  /-- POSTING_QUEUE_ROOM (R157). -/
  | postingQueueRoom
  /-- JOURNAL_TAIL_WRITE (R167): the byte written to the tail's high byte. -/
  | journalTailWrite (value : Byte)
  /-- SETUP_FIELD_TAKE (R172): the setup offset of a field's highest byte, and the byte written. -/
  | setupFieldTake (off value : Byte)
  /-- POWER_ON_RESET (R177). -/
  | powerOnReset
  /-- RESET_RELEASE (R174): the straps RB2, RB1, RB0 as they are sampled. -/
  | resetRelease (straps : BitVec 3)
  /-- INITIALIZATION_SWEEP (R175). -/
  | initializationSweep
  /-- STARTUP_END (R176). -/
  | startupEnd
  /-- STATUS_BYTE_FAILED_ATTEMPT (R138): the status byte as it was taken. -/
  | statusByteFailedAttempt (byte : LinkByte)
  deriving DecidableEq, Repr

end Sys2Proof
end

