-- ==== Sys2Proof/Decode.lean ====
section
/-!
DEFINITION. The decoder of opcode_table.json: none of its 64 rows has bits, so no word spells a command.
-/
namespace Sys2Proof

/-- The command that a word spells by the table's bits: none, since the table gives its rows none. -/
def decodeTableWord (_nbits _w : Nat) : Option Instr := none

end Sys2Proof
end

