-- ==== Sys2Proof/Config.lean ====
section
/-!
DEFINITION. The numbers the spec fixes for the part, and the one value the model chooses for memory.
-/
namespace Sys2Proof.Config

/-- The posting queue's capacity (R153). -/
def postingCapacity : Nat := 64

/-- Console time stops here (R97). -/
def timeLimit : Nat := 4294967295

/-- A wait sample, and a service estimate, is at most this (R32, R111). -/
def sampleLimit : Nat := 65535

/-- Records in the journal ring (R164). -/
def ringSize : Nat := 512

/-- Failed attempts of one order that make the part assert SRST (R141). -/
def attemptLimit : Nat := 3

/-- The validity byte of stored setup (10.1). -/
def setupValid : Byte := 0xA5

/-- What a byte of console memory that nothing has written reads as. DESIGN CHOICE (log 3): unsafe. -/
def memoryFill : Byte := 0

/-- A bound on how often waiting events go on within one command (R157, log 6); far above what any state a run reaches asks for. -/
def wakeFuel : Nat := 65536

end Sys2Proof.Config
end

