-- ==== Sys2Proof/Machine/State.lean ====
section
/-!
DEFINITION. The state of the part: what each of its nine blocks holds (spec/00_scope.md, Block overview), the memory
path's posting queue and console memory, the events that wait for room (R157), and the queue of commands.
Plain data throughout.
-/
namespace Sys2Proof.Machine

/-! ### Named values (the codes are in Machine/Operands.lean) -/

/-- The ten slot states (R1). -/
inductive SlotState where
  | free | offered | connecting | talking | held | consulting | ringingOut | camped | recalling | leaving
  deriving DecidableEq, Repr

/-- The destination leg of a slot (R2, R81). -/
inductive Leg where
  | absent | ringing | talking
  deriving DecidableEq, Repr

/-- The class of an offer, or of a queue entry (R26). RECALL is a class of entry only (R36). -/
inductive CallClass where
  | external | internal | priority | recall
  deriving DecidableEq, Repr

/-- The six conditions of a station (R72). -/
inductive Condition where
  | unknown | idle | busy | ringing | dnd | outOfService
  deriving DecidableEq, Repr

/-- The nine slot requests (R16). -/
inductive SlotReq where
  | answer | hold | retrieve | extend | complete | cancel | swap | release | divert
  deriving DecidableEq, Repr

/-- The five console requests (R63). -/
inductive ConsoleReq where
  | answerNext | day | night | resetEstimate | restart
  deriving DecidableEq, Repr

/-- The outcome codes (3.11). -/
inductive ReqOutcome where
  | none | pending | done | stale | wrongState | pathBusy | slotBusy | unknownRequest
  | callerGone | destBusy | destDnd | destInvalid | refused | cancelled | linkReset | queueEmpty
  deriving DecidableEq, Repr

/-- The eight link states (R131). -/
inductive LinkState where
  | offline | idle | arbitrating | sending | awaitStatus | receiving | answering | resetting
  deriving DecidableEq, Repr

/-- The console mode (R44). -/
inductive Mode where
  | day | night
  deriving DecidableEq, Repr

/-- The thirteen attention causes, bit 0 first (R169). -/
inductive Cause where
  | queueEntry | recall | requestDone | requestDropped | consoleDone | overflowChange | journalWatermark
  | journalOverrun | callerGone | stationChange | linkRetry | linkReset | setupClamped
  deriving DecidableEq, Repr

/-- The kinds of journal record (R168). -/
inductive JournalKind where
  | offerTaken | offerRefused | answered | held | retrieved | extended | camped | destAnswered | destCleared
  | transferred | recalled | diverted | released | callerGone | overflow | mode | estimateReset | linkReset
  deriving DecidableEq, Repr

/-- The cause of a link reset (R144). -/
inductive ResetCause where
  | restart | attempts | switch
  deriving DecidableEq, Repr

/-- The reason of a RECALLED record (R103). -/
inductive RecallReason where
  | hold | camp | noans
  deriving DecidableEq, Repr

/-- The reason of a DIVERTED record (R168). -/
inductive DivertReason where
  | request | night | shed
  deriving DecidableEq, Repr

/-- The tone of a HOLD order (R53, R80). -/
inductive Tone where
  | music | camp
  deriving DecidableEq, Repr

/-- The kinds of slot timer (R98). -/
inductive TimerKind where
  | none | hold | noans | camp
  deriving DecidableEq, Repr

/-- A group's overflow policy (R122). -/
inductive Policy where
  | notify | divertNew | shedOldest
  deriving DecidableEq, Repr

/-- The part from RESET to RUNNING (R174, R175, R176). -/
inductive Phase where
  /-- RESET is asserted. -/
  | inReset
  /-- STARTING, the setup load taken. -/
  | loaded
  /-- STARTING, the initialization sweep begun. -/
  | swept
  /-- RUNNING. -/
  | running
  deriving DecidableEq, Repr

/-- The five byte classes of the region (R150). -/
inductive ByteClass where
  | processor | engine | trigger | readToClear | plain
  deriving DecidableEq, Repr

/-- A setup field (10.1, Table 11-1). -/
inductive SetupField where
  | validity | prescaler | tickDivider | linkDivider | tLink | pinMode | tHold | tNoans | tCamp | aInt | aPri | aRec
  | answerMask | nightDest | attnEnable | watermark
  | cap (g : GroupId) | countThreshold (g : GroupId) | estimateThreshold (g : GroupId) | oldestThreshold (g : GroupId)
  | duration (g : GroupId) | detector (g : GroupId) | overflowDest (g : GroupId) | shift (g : GroupId)
  | reference (g : GroupId)
  deriving DecidableEq, Repr

/-- Where the handshake of a byte on the link stands (R128). In every case but `idle` and `handling` the part waits on the other
side. -/
inductive Handshake where
  /-- No byte crosses. -/
  | idle
  /-- The part sends: it waits, before step 1, until SACK reads deasserted. -/
  | sackLow
  /-- The part sends: step 1 is done, SSTB is raised over the byte; it waits for SACK to rise. -/
  | sackRise
  /-- The part sends: step 3 is done; it waits for SACK to fall. -/
  | sackFall
  /-- The part receives: it waits for SSTB to rise. -/
  | sstbRise
  /-- The part receives: the byte is taken, and its handling is not finished; SACK is not raised yet. -/
  | handling
  /-- The part receives: SACK is raised; it waits for SSTB to fall. -/
  | sstbFall
  deriving DecidableEq, Repr

/-- A change of the lines SACK and SSTB by the switch (R128). -/
inductive LineMove where
  /-- SACK as the switch drives it, the receiver of a byte. -/
  | sack (asserted : Bool)
  /-- The switch places a byte and its parity and raises SSTB. -/
  | strobe (b : LinkByte)
  /-- The switch drops SSTB. -/
  | strobeEnd
  deriving DecidableEq, Repr

/-- The four flags of a slot record by name (R3). -/
inductive FlagName where
  | timer | order | side | deferred
  deriving DecidableEq, Repr

/-! ### The slot engine's state -/

/-- The four flags of a slot record (R3). -/
structure SlotFlags where
  timer : Bool
  order : Bool
  side : Bool
  deferred : Bool
  deriving DecidableEq, Repr

/-- A slot timer (R98): `running` is the condition RUNNING; a timer that does not run and has a kind is SUSPENDED. -/
structure Timer where
  kind : TimerKind
  running : Bool
  deadline : Nat
  deriving DecidableEq, Repr

/-- An answer queue entry (R26). -/
structure Entry where
  slot : SlotId
  group : GroupId
  cls : CallClass
  time : Nat
  rank : Nat
  sampled : Bool
  deriving DecidableEq, Repr

/-- A slot request in flight with its copied operands (R18). -/
structure Request where
  code : SlotReq
  station : Byte
  options : Byte
  divert : Byte
  deriving DecidableEq, Repr

/-- One call slot: its record (R2), its timer (R98) and its internal bookkeeping (R18, R21, R31). -/
structure Slot where
  state : SlotState
  flags : SlotFlags
  group : GroupId
  cls : CallClass
  callRef : BitVec 16
  tag : BitVec 16
  entryTime : Nat
  rank : Nat
  /-- The deadline field of the record; the timer unit's own deadline is in `timer` (R98). -/
  deadline : Nat
  dest : Byte
  leg : Leg
  outcome : ReqOutcome
  recalls : Nat
  timer : Timer
  request : Option Request
  /-- The return state (R21). -/
  ret : Option SlotState
  /-- The queue entry kept for a return (R31). -/
  kept : Option Entry
  deriving DecidableEq, Repr

/-! ### The other blocks' state -/

/-- The group figures as they were last posted (R34). A head of `none` reads 0xFF. -/
structure Figures where
  length : Nat
  head : Option SlotId
  counts : Vector Nat 8
  heads : Vector (Option SlotId) 8
  deriving DecidableEq, Repr

/-- The console request area (R62, R63). -/
structure Console where
  inFlight : Option ConsoleReq
  operand : Byte
  outcome : ReqOutcome
  answered : Option SlotId
  deriving DecidableEq, Repr

/-- A period in progress of one of the two dividers: prescaler and divider it began with (R96). -/
structure Period where
  prescaler : Nat
  divider : Nat
  deriving DecidableEq, Repr

/-- What the service monitor holds for one group (R111). -/
structure GroupMonitor where
  estimate : Nat
  count : Nat
  overflow : Bool
  deriving DecidableEq, Repr

/-- The ten order kinds with their bodies (R130, R142). -/
inductive OrderKind where
  | answer | retrieve
  | hold (tone : Tone)
  | extend (station : Byte) (screened override : Bool)
  | join | dropDest | swap | recallLeg | release
  | divert (dest : Byte)
  deriving DecidableEq, Repr

/-- What an order was issued for: the slot request or console request that waits on it, or the engine-initiated work
(R13, R17, R92, R105, R45, R108, R123). The model's marker, DEDUCED (log 16). -/
inductive Purpose where
  | slotRequest (code : SlotReq)
  | answerNext
  | campWake | recallLeg | night | nightExpiry | shed
  deriving DecidableEq, Repr

/-- An entry of the order queue (R142). -/
structure Order where
  kind : OrderKind
  slot : SlotId
  callRef : BitVec 16
  purpose : Purpose
  deriving DecidableEq, Repr

/-- The link controller, less its order queue (R127, R131, R133, R135, R143, R144). -/
structure Link where
  state : LinkState
  /-- SCC, which the part drives. -/
  scc : Bool
  /-- SCS as the line reads. -/
  scs : Bool
  /-- Whether the switch drives SRST. -/
  srstSwitch : Bool
  /-- SACK as the switch drives it (R127). -/
  sackIn : Bool
  /-- The byte under SSTB as the switch drives them: none while SSTB reads deasserted (R127). -/
  strobe : Option LinkByte
  /-- Whether the part drives SRST (R146). -/
  srstDrive : Bool
  /-- The part has begun driving SRST while the line read deasserted, and the link reset is still to be performed (log 12). -/
  resetDue : Option ResetCause
  attempts : Nat
  /-- The head order is in exchange (R137). -/
  inExchange : Bool
  /-- Where the handshake of the byte in progress stands (R128). -/
  hand : Handshake
  /-- The bytes the part has to send in this frame, or the status byte, the byte in progress first (R127, R137). -/
  tx : List LinkByte
  /-- The receive buffer: the bytes as they were taken (R133); in AWAIT_STATUS the status byte (R138). -/
  rx : List LinkByte
  /-- The note of a parity error in the frame (R133). -/
  rxNote : Bool
  /-- The frame in RECEIVING was given up at a timeout; SCS has still to drop (R136). -/
  abandoned : Bool
  /-- The status that the owner has given to the report (R134, R135). -/
  answer : Option Status
  deriving DecidableEq, Repr

/-- The journal's own registers (R164). -/
structure Journal where
  head : Nat
  tail : Nat
  lowCopy : Byte
  overrun : Bool
  deriving DecidableEq, Repr

/-- A group's settings in use (10.1). -/
structure GroupSetup where
  cap : Nat
  countThreshold : Nat
  estimateThreshold : Nat
  oldestThreshold : Nat
  duration : Nat
  decay : Bool
  all : Bool
  policy : Policy
  dest : Byte
  shift : Nat
  reference : Nat
  deriving DecidableEq, Repr

/-- The setup values in use (10.1). -/
structure Setup where
  prescaler : Nat
  tickDivider : Nat
  linkDivider : Nat
  tLink : Nat
  /-- ATTN pin mode 1: low when active, undriven when inactive (R170). -/
  pinLow : Bool
  tHold : Nat
  tNoans : Nat
  tCamp : Nat
  aInt : Nat
  aPri : Nat
  aRec : Nat
  answerMask : Byte
  nightDest : Byte
  attnEnable : BitVec 16
  watermark : Nat
  groups : Vector GroupSetup 8
  deriving DecidableEq, Repr

/-- The state of the eight blocks behind the memory path. -/
structure Engine where
  slots : Vector Slot 64
  /-- The call reference map (R7). -/
  refMap : List (BitVec 16 × SlotId)
  /-- The talk path's owner (R9). -/
  talkPath : Option SlotId
  /-- The answer queue's entries, head first (R26). -/
  queue : List Entry
  figures : Figures
  mode : Mode
  console : Console
  /-- The station table (R72). -/
  stations : Vector Condition 256
  /-- The camp lists: (station, slot) in order of joining; a station's list is its pairs in this order (R91, log 19). -/
  camps : List (Byte × SlotId)
  /-- Console time (R97). -/
  time : Nat
  tickPeriod : Period
  linkPeriod : Period
  /-- Expiries the timer unit has handed over and the slot engine has not applied yet, lowest slot first (R102, log 11). -/
  due : List SlotId
  /-- Ticks that the timer unit has handed to the service monitor and that have not been evaluated for every group yet, oldest first:
  the console time each brought (R115, R117). -/
  ticks : List Nat
  monitor : Vector GroupMonitor 8
  link : Link
  /-- The order queue, head first (R142). -/
  orders : List Order
  journal : Journal
  /-- The cause word (R169). -/
  causes : BitVec 16
  /-- The dropped-slot byte (R171). -/
  dropped : Byte
  setup : Setup
  /-- The setup unit's copies of the setup bytes (R172). -/
  copies : Vector Byte 256
  /-- SETUP_CLAMPED recorded during the load (R174). -/
  clampNoted : Bool
  deriving DecidableEq, Repr

/-! ### Work in progress -/

/-- A pending write of the posting queue: region offset and value (R153). -/
structure Post where
  off : Nat
  val : Byte
  deriving DecidableEq, Repr

/-- A block, or the processor held on PWAIT: what a waiting event keeps (R157). -/
inductive Block where
  | processor | slotEngine | answerQueue | transferUnit | timerUnit | serviceMonitor | linkController | journal | setupUnit
  deriving DecidableEq, Repr

/-- A processor access (R150). -/
inductive Access where
  | write (addr : BitVec 16) (value : Byte)
  | read (addr : BitVec 16)
  deriving DecidableEq, Repr

/-- One indivisible piece of an event: a change of a block's state with the posts it makes.
The manual's "the slot engine does the following in turn" is a list of these; `Act.effect` gives each its meaning. -/
inductive Act where
  /-- posts the new state (R1) -/
  | slotState (i : SlotId) (st : SlotState)
  /-- sets or clears one flag, posted if it changed (R3) -/
  | flag (i : SlotId) (f : FlagName) (b : Bool)
  /-- the slot timer of the timer unit (R98) -/
  | timer (i : SlotId) (t : Timer)
  /-- posts the deadline field (R2) -/
  | deadline (i : SlotId) (n : Nat)
  /-- posts the destination station field (R75) -/
  | dest (i : SlotId) (st : Byte)
  /-- posts the leg state (R81) -/
  | leg (i : SlotId) (l : Leg)
  /-- posts the slot outcome (R19) -/
  | outcome (i : SlotId) (o : ReqOutcome)
  /-- posts the recall count (R103) -/
  | recalls (i : SlotId) (n : Nat)
  /-- posts entry time and rank (R30) -/
  | entryFields (i : SlotId) (time rank : Nat)
  /-- the request in flight (R18) -/
  | request (i : SlotId) (r : Option Request)
  /-- posts NONE into the request code byte (R19) -/
  | requestNone (i : SlotId)
  /-- the return state (R21) -/
  | returnState (i : SlotId) (r : Option SlotState)
  /-- the kept entry (R31) -/
  | keep (i : SlotId) (e : Option Entry)
  /-- allocation (R5) -/
  | allocate (i : SlotId) (ref : BitVec 16) (g : GroupId) (c : CallClass) (tag : BitVec 16) (time rank : Nat)
  /-- freeing (R6) -/
  | free (i : SlotId)
  /-- the talk path (R9) -/
  | talkPath (o : Option SlotId)
  /-- an entry joins the queue (R28) -/
  | enqueue (e : Entry)
  /-- the slot's entry leaves the queue (R31) -/
  | dequeue (i : SlotId)
  /-- posts the group figures that changed (R34) -/
  | figures
  /-- posts every group figure (R49) -/
  | allFigures
  /-- a wait sample (R112, R113) -/
  | sample (g : GroupId) (w : Nat)
  /-- sets and posts the console mode (R44) -/
  | mode (m : Mode)
  /-- a console request is marked in flight with its copied operand, or is in flight no longer (R63, R64) -/
  | consoleRequest (r : Option (ConsoleReq × Byte))
  /-- posts the console outcome (R64) -/
  | consoleOutcome (o : ReqOutcome)
  /-- posts the answered slot (R43) -/
  | answered (o : Option SlotId)
  /-- posts NONE into the console request byte (R64) -/
  | consoleNone
  /-- sets and posts a station table entry (R73, R74) -/
  | station (st : Byte) (c : Condition)
  /-- sets and posts every station table entry UNKNOWN (R95) -/
  | stationsUnknown
  /-- joins the tail of a camp list (R91) -/
  | campJoin (st : Byte) (i : SlotId)
  /-- leaves its camp list (R91) -/
  | campLeave (i : SlotId)
  /-- console time advances and is posted (R97); a tick period begins (R96) -/
  | advanceTime
  /-- the RUNNING timers are tested (R102) -/
  | testTimers
  /-- the expiry at the head has been taken up (R102) -/
  | dueTaken
  /-- every group has been evaluated at the tick at the head (R117) -/
  | tickTaken
  /-- sets and posts a service estimate (R69) -/
  | estimate (g : GroupId) (n : Nat)
  /-- sets and posts a duration count (R117) -/
  | count (g : GroupId) (n : Nat)
  /-- sets and posts an overflow state (R121) -/
  | overflow (g : GroupId) (on : Bool)
  /-- every group OFF with count 0 (R126) -/
  | monitorReset
  /-- appends an order, posts the queue length (R142) -/
  | append (i : SlotId) (k : OrderKind) (p : Purpose)
  /-- removes the slot's queued order, posts the queue length (R143) -/
  | removeOrder (i : SlotId)
  /-- the tests of an IDLE link (R131, R147) -/
  | idleTest
  /-- sets and posts the link state (R131) -/
  | linkState (l : LinkState)
  /-- SCC as the part drives it (R131) -/
  | scc (b : Bool)
  /-- SCS as the line reads -/
  | scs (b : Bool)
  /-- a link unit falls: the next period begins with the values in use (R96) -/
  | linkUnit
  /-- SACK or SSTB changes, and the handshake of the byte in progress goes on (R128) -/
  | line (m : LineMove)
  /-- RECEIVING is entered, and posted: a frame begins (R131, R133) -/
  | beginReceiving
  /-- SENDING begins with the head order (R137) -/
  | beginSending
  /-- the frame has been sent: AWAIT_STATUS is entered, and posted (R137, R138) -/
  | awaitStatus
  /-- the status byte has been sent, or is given up (R135) -/
  | txEnd
  /-- the frame as it stands in the receive buffer at its last byte, which the part handles before it raises SACK (R128, R133) -/
  | receive (frame : List LinkByte) (note : Bool)
  /-- the receive buffer is emptied (R133) -/
  | rxClear
  /-- the frame is given up at a timeout (R136) -/
  | abandon
  /-- the owner has given the status (R134): SACK is raised for the last byte, and once SSTB has dropped ANSWERING is entered,
  and posted -/
  | answering (st : Status)
  /-- a delivered status ends the exchange (R139) -/
  | endExchange
  /-- a failed attempt, steps 1 to 3 (R140) -/
  | failAttempt
  /-- the part begins driving SRST (R144, R146) -/
  | srstDrive (c : ResetCause)
  /-- the part stops driving SRST (R146) -/
  | srstRelease
  /-- the switch's drive of SRST -/
  | srstSwitch (b : Bool)
  /-- the link controller's own part of a link reset, steps 1 to 3 (R145) -/
  | linkReset
  /-- appends a journal record (R165, R166) -/
  | journal (k : JournalKind) (slot a b : Byte)
  /-- latches a cause (R169) -/
  | latch (c : Cause)
  /-- clears causes and posts the word (R162, R169) -/
  | clearCauses (m : BitVec 16)
  /-- posts the dropped-slot byte (R171) -/
  | dropped (b : Byte)
  /-- a copy of the journal tail's low byte (R164) -/
  | tailLow (b : Byte)
  /-- the journal tail write (R167) -/
  | tailWrite (high : Byte)
  /-- a copy of a setup byte (R172) -/
  | setupCopy (off : Nat) (b : Byte)
  /-- a taken value, in range, handed to its owner (R172) -/
  | setupTake (f : SetupField) (v : Nat)
  /-- the clamped bytes of a field, into the copies and posted back (R173) -/
  | setupPost (f : SetupField) (v : Nat)
  /-- the setup load's result (R174): the bytes read -/
  | setupLoad (bytes : List Byte)
  /-- the initialization sweep (R175) -/
  | sweep
  /-- the dividers start (R176) -/
  | startDividers
  /-- the recorded clamp has been latched (R176) -/
  | clampLatched
  deriving DecidableEq, Repr

/-- A piece of an event that is decided on the state as it then stands, or an event that has not begun. -/
inductive Job where
  /-- a tick at the timer unit (R97, R102) -/
  | clock
  /-- the expiry at the head of the handed-over list (R102) -/
  | expire
  /-- a group's evaluation (R117) -/
  | evaluate (g : GroupId)
  /-- a processor access (R150, R158) -/
  | access (a : Access)
  /-- an event at the link controller, by its row (R131 to R147) -/
  | command (c : Instr)
  /-- a change of SACK or SSTB at the link controller (R128) -/
  | line (m : LineMove)
  /-- the link reset that the part's own drive has made (R144) -/
  | resetDue
  /-- the link leaves RESETTING (R147) -/
  | leaveReset
  /-- the setup load (R174) -/
  | setupLoad
  /-- the initialization sweep (R175) -/
  | sweep
  /-- the end of start-up (R176) -/
  | startupEnd
  deriving DecidableEq, Repr

/-- An event that waits (R157).
With `bytes`, it waits for room: they are what is left of the posts of the first act, whose change is made when the last of them
is taken. Without, it waits for a block, or for the memory side (R158). `holds` are the blocks at which its piece in progress
began, or its next one has arrived. -/
structure Waiting where
  holds : List Block
  bytes : List Post
  acts : List Act
  jobs : List Job
  deriving DecidableEq, Repr

/-- The snapshot buffer (R160): the offset of the group's lowest byte, and the copy. -/
structure Snapshot where
  base : Nat
  bytes : List Byte
  deriving DecidableEq, Repr

/-- The memory side (R154, R158): free, or an inserted write cycle in progress. -/
inductive MemSide where
  | free
  | inserted (p : Post)
  deriving DecidableEq, Repr

/-- The part. -/
structure State where
  phase : Phase
  eng : Engine
  /-- The region base, the strap value (R149). -/
  base : BitVec 3
  /-- Console memory: addresses strictly rising, no byte equal to `Config.memoryFill`. -/
  mem : List Host.Cell
  /-- The posting queue, head first (R153). -/
  posts : List Post
  snapshot : Option Snapshot
  side : MemSide
  /-- The value the last processor read returned on PD0-PD7. -/
  readData : Byte
  /-- Region accesses held during start-up (R163). -/
  held : List Access
  /-- Events that wait: those for room in the order in which they began to (R157), the others in the order of their arrival. -/
  waiting : List Waiting
  /-- Changes of SACK and SSTB that the switch has still to make, first in, first out: an input (R128, log 14). -/
  moves : List LineMove
  /-- The commands that wait, first in, first out: the model's own queue (log 1). -/
  pending : List Instr
  deriving DecidableEq, Repr

/-- Reasons for which the part stops. There are none: the spec names no condition that stops it (INVENTORY, Faults). -/
inductive Fault where
  deriving DecidableEq, Repr

/-- Reasons for which the model gives no meaning. -/
inductive Refusal where
  /-- Raised by an arm of `exec` for a command without a meaning; safe. No arm raises it. -/
  | notModelled (mnemonic : String)
  deriving DecidableEq, Repr

/-! ### Reset -/

/-- No timer (R98). -/
def Timer.off : Timer := { kind := .none, running := false, deadline := 0 }

/-- A FREE slot as start-up leaves it (R24). -/
def Slot.initial : Slot :=
  { state := .free, flags := { timer := false, order := false, side := false, deferred := false }, group := 0
    cls := .external, callRef := 0, tag := 0, entryTime := 0, rank := 0, deadline := 0, dest := 0, leg := .absent
    outcome := .none, recalls := 0, timer := Timer.off, request := none, ret := none, kept := none }

/-- The figures of an empty queue (R48). -/
def Figures.empty : Figures :=
  { length := 0, head := none, counts := Vector.replicate 8 0, heads := Vector.replicate 8 none }

/-- A group's default settings (10.1). -/
def GroupSetup.default : GroupSetup :=
  { cap := 64, countThreshold := 0, estimateThreshold := 0, oldestThreshold := 0, duration := 0, decay := false
    all := false, policy := .notify, dest := 0, shift := 3, reference := 0 }

/-- The default setup (10.1). -/
def Setup.default : Setup :=
  { prescaler := 32, tickDivider := 6400, linkDivider := 64, tLink := 20, pinLow := true, tHold := 600, tNoans := 250
    tCamp := 450, aInt := 0, aPri := 300, aRec := 600, answerMask := 0xFF, nightDest := 0, attnEnable := 0
    watermark := 384, groups := Vector.replicate 8 GroupSetup.default }

/-- The link after power-on reset (R148), with the lines the switch drives as they read. -/
def Link.initial (scs srst sack : Bool) (strobe : Option LinkByte) : Link :=
  { state := .offline, scc := false, scs := scs, srstSwitch := srst, sackIn := sack, strobe := strobe, srstDrive := false
    resetDue := none, attempts := 0, inExchange := false, hand := .idle, tx := [], rx := [], rxNote := false, abandoned := false
    answer := none }

/-- The blocks after power-on reset (R24, R48, R62, R95, R97, R98, R111, R148, R164), before the setup load.
The setup values and copies, which the load replaces, are the defaults and zero: DESIGN CHOICE (log 4), unsafe. -/
def Engine.initial (scs srst sack : Bool) (strobe : Option LinkByte) : Engine :=
  { slots := Vector.replicate 64 Slot.initial, refMap := [], talkPath := none, queue := [], figures := Figures.empty
    mode := .day, console := { inFlight := none, operand := 0, outcome := .none, answered := none }
    stations := Vector.replicate 256 .unknown, camps := [], time := 0
    tickPeriod := { prescaler := 32, divider := 6400 }, linkPeriod := { prescaler := 32, divider := 64 }, due := [], ticks := []
    monitor := Vector.replicate 8 { estimate := 0, count := 0, overflow := false }
    link := Link.initial scs srst sack strobe, orders := []
    journal := { head := 0, tail := 0, lowCopy := 0, overrun := false }, causes := 0, dropped := 0xFF
    setup := Setup.default, copies := Vector.replicate 256 0, clampNoted := false }

/-- The part right after reset: RESET asserted, every block at its power-on value (R163, R174, R177; log 2). -/
def State.reset : State :=
  { phase := .inReset, eng := Engine.initial false false false none, base := 0, mem := [], posts := [], snapshot := none
    side := .free, readData := 0, held := [], waiting := [], moves := [], pending := [] }

end Sys2Proof.Machine
end

