-- ==== Sys2Proof/Machine/Operands.lean ====
section
/-!
DEFINITION. Codes and layouts of spec/11_memory_image_and_frame_layouts.md: byte order, the code tables, the region map,
the coherent groups, the setup fields, the link frames and their parity.
-/
namespace Sys2Proof.Machine

/-! ### Bytes -/

/-- The `k` bytes of `n`, least significant first (00_scope.md, Byte order). -/
def leBytes : Nat → Nat → List Byte
  | _, 0 => []
  | n, k + 1 => BitVec.ofNat 8 n :: leBytes (n / 256) k

/-- The number that bytes spell, least significant first. -/
def leValue : List Byte → Nat
  | [] => 0
  | b :: bs => b.toNat + 256 * leValue bs

/-- Consecutive posts from an offset upward, lowest byte first (R153). -/
def postsAt : Nat → List Byte → List Post
  | _, [] => []
  | off, b :: bs => { off := off, val := b } :: postsAt (off + 1) bs

/-- A byte's number as a byte value. -/
def byteOf (n : Nat) : Byte := BitVec.ofNat 8 n

/-- A slot number as a byte, 0xFF for no slot (00_scope.md, Numbering). -/
def slotByte : Option SlotId → Byte
  | some i => byteOf i.val
  | none => 0xFF

/-- A Bool as the code 0 or 1. -/
def boolByte (b : Bool) : Byte := if b then 1 else 0

/-! ### Code tables (11.7) -/

/-- Slot state codes. -/
def SlotState.code : SlotState → Byte
  | .free => 0 | .offered => 1 | .connecting => 2 | .talking => 3 | .held => 4 | .consulting => 5
  | .ringingOut => 6 | .camped => 7 | .recalling => 8 | .leaving => 9

/-- Leg state codes. -/
def Leg.code : Leg → Byte
  | .absent => 0 | .ringing => 1 | .talking => 2

/-- Class codes. -/
def CallClass.code : CallClass → Byte
  | .external => 0 | .internal => 1 | .priority => 2 | .recall => 3

/-- The class of an offer that a byte names; RECALL is none (R36). -/
def offerClass (b : Byte) : Option CallClass :=
  if b = 0 then some .external else if b = 1 then some .internal else if b = 2 then some .priority else none

/-- Station condition codes. -/
def Condition.code : Condition → Byte
  | .unknown => 0 | .idle => 1 | .busy => 2 | .ringing => 3 | .dnd => 4 | .outOfService => 5

/-- The condition that a byte names (R73). -/
def conditionOf (b : Byte) : Option Condition :=
  [Condition.unknown, .idle, .busy, .ringing, .dnd, .outOfService].find? (·.code == b)

/-- Slot request codes. -/
def SlotReq.code : SlotReq → Byte
  | .answer => 1 | .hold => 2 | .retrieve => 3 | .extend => 4 | .complete => 5 | .cancel => 6 | .swap => 7
  | .release => 8 | .divert => 9

/-- The slot request that a byte names (R11). -/
def slotReqOf (b : Byte) : Option SlotReq :=
  [SlotReq.answer, .hold, .retrieve, .extend, .complete, .cancel, .swap, .release, .divert].find? (·.code == b)

/-- Console request codes. -/
def ConsoleReq.code : ConsoleReq → Byte
  | .answerNext => 1 | .day => 2 | .night => 3 | .resetEstimate => 4 | .restart => 5

/-- The console request that a byte names (R63). -/
def consoleReqOf (b : Byte) : Option ConsoleReq :=
  [ConsoleReq.answerNext, .day, .night, .resetEstimate, .restart].find? (·.code == b)

/-- Outcome codes. -/
def ReqOutcome.code : ReqOutcome → Byte
  | .none => 0 | .pending => 1 | .done => 2 | .stale => 3 | .wrongState => 4 | .pathBusy => 5 | .slotBusy => 6
  | .unknownRequest => 7 | .callerGone => 8 | .destBusy => 9 | .destDnd => 10 | .destInvalid => 11 | .refused => 12
  | .cancelled => 13 | .linkReset => 14 | .queueEmpty => 15

/-- Link status codes. -/
def statusCode : Status → Byte
  | .accept => 1 | .noCall => 2 | .state => 3 | .busy => 4 | .dnd => 5 | .noStation => 6 | .noDest => 7 | .full => 8
  | .night => 9 | .overflow => 10 | .dup => 11 | .parity => 12 | .format => 13

/-- The status that a byte names (R138). -/
def statusOf (b : Byte) : Option Status :=
  [Status.accept, .noCall, .state, .busy, .dnd, .noStation, .noDest, .full, .night, .overflow, .dup, .parity,
    .format].find? (statusCode · == b)

/-- Link state codes. -/
def LinkState.code : LinkState → Byte
  | .offline => 0 | .idle => 1 | .arbitrating => 2 | .sending => 3 | .awaitStatus => 4 | .receiving => 5
  | .answering => 6 | .resetting => 7

/-- Console mode codes. -/
def Mode.code : Mode → Byte
  | .day => 0 | .night => 1

/-- Journal kind codes. -/
def JournalKind.code : JournalKind → Byte
  | .offerTaken => 0x01 | .offerRefused => 0x02 | .answered => 0x03 | .held => 0x04 | .retrieved => 0x05
  | .extended => 0x06 | .camped => 0x07 | .destAnswered => 0x08 | .destCleared => 0x09 | .transferred => 0x0A
  | .recalled => 0x0B | .diverted => 0x0C | .released => 0x0D | .callerGone => 0x0E | .overflow => 0x0F | .mode => 0x10
  | .estimateReset => 0x11 | .linkReset => 0x12

/-- RECALLED reason codes. -/
def RecallReason.code : RecallReason → Byte
  | .hold => 0 | .camp => 1 | .noans => 2

/-- DIVERTED reason codes. -/
def DivertReason.code : DivertReason → Byte
  | .request => 0 | .night => 1 | .shed => 2

/-- LINK_RESET cause codes. -/
def ResetCause.code : ResetCause → Byte
  | .restart => 0 | .attempts => 1 | .switch => 2

/-- A cause's bit in the cause word and in the enable word (R169). -/
def Cause.bit : Cause → Nat
  | .queueEntry => 0 | .recall => 1 | .requestDone => 2 | .requestDropped => 3 | .consoleDone => 4 | .overflowChange => 5
  | .journalWatermark => 6 | .journalOverrun => 7 | .callerGone => 8 | .stationChange => 9 | .linkRetry => 10
  | .linkReset => 11 | .setupClamped => 12

/-! ### The region map (11.1 to 11.5) -/

/-- Offset of byte `k` of slot `i`'s record (Table 11-3). -/
def slotOff (i : SlotId) (k : Nat) : Nat := 0x800 + 32 * i.val + k

/-- Offset of a station table entry (11.1). -/
def stationOff (st : Byte) : Nat := 0x200 + st.toNat

/-- Offset of journal record `n` (11.1). -/
def recordOff (n : Nat) : Nat := 0x1000 + 8 * n

/-- Where the status area's fields stand (Table 11-2). -/
def timeOff : Nat := 0x100
def causeOff : Nat := 0x104
def headOff : Nat := 0x106
def tailOff : Nat := 0x108
def overrunOff : Nat := 0x10A
def droppedOff : Nat := 0x10B
def consoleReqOff : Nat := 0x10C
def consoleOperandOff : Nat := 0x10D
def consoleOutcomeOff : Nat := 0x10E
def answeredOff : Nat := 0x10F
def modeOff : Nat := 0x110
def linkStateOff : Nat := 0x111
def orderLengthOff : Nat := 0x112
def queueLengthOff : Nat := 0x113
def queueHeadOff : Nat := 0x114
def countOff (g : Nat) : Nat := 0x120 + g
def groupHeadOff (g : Nat) : Nat := 0x128 + g
def estimateOff (g : GroupId) : Nat := 0x130 + 2 * g.val
def durationOff (g : GroupId) : Nat := 0x140 + g.val
def overflowOff (g : GroupId) : Nat := 0x148 + g.val

/-! ### Setup fields (10.1, Table 11-1) -/

/-- Offset of a group's record. -/
def groupRecord (g : GroupId) : Nat := 0x20 + 12 * g.val

/-- Offset of a field's lowest byte. -/
def SetupField.off : SetupField → Nat
  | .validity => 0x00 | .prescaler => 0x01 | .tickDivider => 0x02 | .linkDivider => 0x04 | .tLink => 0x06
  | .pinMode => 0x07 | .tHold => 0x08 | .tNoans => 0x0A | .tCamp => 0x0C | .aInt => 0x0E | .aPri => 0x10
  | .aRec => 0x12 | .answerMask => 0x14 | .nightDest => 0x15 | .attnEnable => 0x16 | .watermark => 0x18
  | .cap g => groupRecord g | .countThreshold g => groupRecord g + 1 | .estimateThreshold g => groupRecord g + 2
  | .oldestThreshold g => groupRecord g + 4 | .duration g => groupRecord g + 6 | .detector g => groupRecord g + 7
  | .overflowDest g => groupRecord g + 8 | .shift g => groupRecord g + 9 | .reference g => groupRecord g + 10

/-- A field's width in bytes. -/
def SetupField.width : SetupField → Nat
  | .tickDivider | .linkDivider | .tHold | .tNoans | .tCamp | .aInt | .aPri | .aRec | .attnEnable | .watermark => 2
  | .estimateThreshold _ | .oldestThreshold _ | .reference _ => 2
  | _ => 1

/-- The eight groups in turn. -/
def allGroups : List GroupId := [0, 1, 2, 3, 4, 5, 6, 7]

/-- One group's fields in the order of their offsets. -/
def groupFields (g : GroupId) : List SetupField :=
  [.cap g, .countThreshold g, .estimateThreshold g, .oldestThreshold g, .duration g, .detector g, .overflowDest g,
    .shift g, .reference g]

/-- Every field but the validity byte, in the order of their offsets (R174). -/
def valueFields : List SetupField :=
  [.prescaler, .tickDivider, .linkDivider, .tLink, .pinMode, .tHold, .tNoans, .tCamp, .aInt, .aPri, .aRec, .answerMask,
    .nightDest, .attnEnable, .watermark] ++ allGroups.flatMap groupFields

/-- The field whose highest byte stands at an offset of the setup area (R172). -/
def fieldOfTop (off : Nat) : Option SetupField :=
  (SetupField.validity :: valueFields).find? fun f => f.off + f.width - 1 == off

/-- The policy in bits 2 and 3 of a detector flags byte; code 3 is no policy (11.2). -/
def detectorPolicy (v : Nat) : Nat := v / 4 % 4

/-- The nearest value in a field's range (10.1, R173). A detector flags byte with policy code 3 becomes SHED_OLDEST with the
mode and combination kept and the unused bits 0 (R178; DEDUCED, log 17). -/
def SetupField.clamp : SetupField → Nat → Nat
  | .tLink, v => if v = 0 then 1 else v
  | .pinMode, v => if v > 1 then 1 else v
  | .tHold, v | .tNoans, v | .tCamp, v | .aInt, v | .aPri, v | .aRec, v => if v > 6000 then 6000 else v
  | .watermark, v => if v = 0 then 1 else if v > 511 then 511 else v
  | .cap _, v => if v = 0 then 1 else if v > 64 then 64 else v
  | .countThreshold _, v => if v > 64 then 64 else v
  | .detector _, v => if detectorPolicy v = 3 then v % 4 + 8 else v
  | .shift _, v => if v > 7 then 7 else v
  | _, v => v

/-- A field's default as it is stored: P, D and L less 1 (10.1). -/
def SetupField.default : SetupField → Nat
  | .validity => Config.setupValid.toNat
  | .prescaler => 31 | .tickDivider => 6399 | .linkDivider => 63 | .tLink => 20 | .pinMode => 1
  | .tHold => 600 | .tNoans => 250 | .tCamp => 450 | .aInt => 0 | .aPri => 300 | .aRec => 600
  | .answerMask => 0xFF | .nightDest => 0 | .attnEnable => 0 | .watermark => 384
  | .cap _ => 64 | .countThreshold _ => 0 | .estimateThreshold _ => 0 | .oldestThreshold _ => 0 | .duration _ => 0
  | .detector _ => 0 | .overflowDest _ => 0 | .shift _ => 3 | .reference _ => 0

/-- A group's settings with a change made. -/
def Setup.changeGroup (s : Setup) (g : GroupId) (f : GroupSetup → GroupSetup) : Setup :=
  { s with groups := s.groups.set g (f s.groups[g]) }

/-- A group's settings in use. -/
def Setup.group (s : Setup) (g : GroupId) : GroupSetup := s.groups[g]

/-- The values in use after a field with the stored, in-range value `v` has been taken (R172). Ignored bits are dropped. -/
def Setup.take (s : Setup) : SetupField → Nat → Setup
  | .validity, _ => s
  | .prescaler, v => { s with prescaler := v + 1 }
  | .tickDivider, v => { s with tickDivider := v + 1 }
  | .linkDivider, v => { s with linkDivider := v + 1 }
  | .tLink, v => { s with tLink := v }
  | .pinMode, v => { s with pinLow := v == 1 }
  | .tHold, v => { s with tHold := v }
  | .tNoans, v => { s with tNoans := v }
  | .tCamp, v => { s with tCamp := v }
  | .aInt, v => { s with aInt := v }
  | .aPri, v => { s with aPri := v }
  | .aRec, v => { s with aRec := v }
  | .answerMask, v => { s with answerMask := byteOf v }
  | .nightDest, v => { s with nightDest := byteOf v }
  | .attnEnable, v => { s with attnEnable := BitVec.ofNat 16 (v % 8192) }
  | .watermark, v => { s with watermark := v }
  | .cap g, v => s.changeGroup g fun x => { x with cap := v }
  | .countThreshold g, v => s.changeGroup g fun x => { x with countThreshold := v }
  | .estimateThreshold g, v => s.changeGroup g fun x => { x with estimateThreshold := v }
  | .oldestThreshold g, v => s.changeGroup g fun x => { x with oldestThreshold := v }
  | .duration g, v => s.changeGroup g fun x => { x with duration := v }
  | .detector g, v => s.changeGroup g fun x =>
      { x with decay := v % 2 == 1, all := v / 2 % 2 == 1
               policy := if detectorPolicy v = 0 then .notify else if detectorPolicy v = 1 then .divertNew else .shedOldest }
  | .overflowDest g, v => s.changeGroup g fun x => { x with dest := byteOf v }
  | .shift g, v => s.changeGroup g fun x => { x with shift := v }
  | .reference g, v => s.changeGroup g fun x => { x with reference := v }

/-! ### Byte classes and coherent groups (R150, R159, R178) -/

/-- The class of byte `k` of a slot record (Table 11-3). -/
def slotByteClass (k : Nat) : ByteClass :=
  if k < 24 then .engine else if k = 24 then .trigger else if k < 29 then .processor else .plain

/-- The class of an offset of the status area (Table 11-2). -/
def statusByteClass (off : Nat) : ByteClass :=
  if off = causeOff then .readToClear
  else if off = tailOff || off = consoleOperandOff then .processor
  else if off = tailOff + 1 || off = consoleReqOff then .trigger
  else if off < 0x115 || (0x120 ≤ off && off < 0x150) then .engine
  else .plain

/-- The class of a region offset (R178, 11.1). -/
def classOf (off : Nat) : ByteClass :=
  if off < 0x100 then (if (fieldOfTop off).isSome then .trigger else .processor)
  else if off < 0x200 then statusByteClass off
  else if off < 0x300 then .engine
  else if off < 0x800 then .plain
  else if off < 0x1000 then slotByteClass ((off - 0x800) % 32)
  else .engine

/-- The coherent group of a slot record that byte `k` belongs to: lowest byte and width. -/
def slotGroupAt (k : Nat) : Option (Nat × Nat) :=
  if k = 4 || k = 5 then some (4, 2)
  else if k = 6 || k = 7 then some (6, 2)
  else if 8 ≤ k && k < 20 then some (k / 4 * 4, 4)
  else none

/-- The coherent group that an offset belongs to: offset of its lowest byte, and its width (R159). -/
def coherentAt (off : Nat) : Option (Nat × Nat) :=
  if off < timeOff then none
  else if off < causeOff then some (timeOff, 4)
  else if off < headOff then some (causeOff, 2)
  else if off < tailOff then some (headOff, 2)
  else if 0x130 ≤ off && off < 0x140 then some (off / 2 * 2, 2)
  else if 0x800 ≤ off && off < 0x1000 then
    (slotGroupAt ((off - 0x800) % 32)).map fun p => (off - (off - 0x800) % 32 + p.1, p.2)
  else none

/-! ### Link frames (R127, R130, R133, 11.6) -/

/-- How many of the eight data bits are 1. -/
def ones (b : Byte) : Nat := ((List.range 8).filter fun k => b.getLsbD k).length

/-- A byte with the parity line the part drives: the nine lines carry an odd number of ones (R127). -/
def withParity (b : Byte) : LinkByte := { data := b, sdp := ones b % 2 == 0 }

/-- The nine lines carry an even number of ones (R127). -/
def badParity (l : LinkByte) : Bool := (ones l.data + (if l.sdp then 1 else 0)) % 2 == 0

/-- Kind byte of an order frame. -/
def OrderKind.code : OrderKind → Byte
  | .answer => 0x01 | .retrieve => 0x02 | .hold _ => 0x03 | .extend _ _ _ => 0x04 | .join => 0x05 | .dropDest => 0x06
  | .swap => 0x07 | .recallLeg => 0x08 | .release => 0x09 | .divert _ => 0x0A

/-- The mode flags byte of an EXTEND: bit 0 screened, bit 1 override (11.6). -/
def modeFlags (screened override : Bool) : Byte := (if screened then 1 else 0) + (if override then 2 else 0)

/-- The body of an order frame. -/
def OrderKind.body : OrderKind → List Byte
  | .hold .music => [0]
  | .hold .camp => [1]
  | .extend st sc ov => [st, modeFlags sc ov]
  | .divert d => [d]
  | _ => []

/-- The bytes of an order frame: kind, call reference low byte first, body (R130). -/
def Order.frame (o : Order) : List Byte := o.kind.code :: leBytes o.callRef.toNat 2 ++ o.kind.body

/-- Kind bytes of the five reports (11.6). -/
def offerKind : Byte := 0x81
def clearedKind : Byte := 0x82
def destAnswerKind : Byte := 0x83
def destClearedKind : Byte := 0x84
def stationKind : Byte := 0x85

/-- A kind byte that is the code of a report (R133). -/
def isReportKind (k : Byte) : Bool := [offerKind, clearedKind, destAnswerKind, destClearedKind, stationKind].contains k

/-- The frame length that a kind byte sets; 3 for an unknown kind (R133). -/
def frameLength (k : Byte) : Nat := if k = offerKind then 7 else if k = stationKind then 5 else 3

end Sys2Proof.Machine
end

