-- ==== Sys2Proof/Machine/Flags.lean ====
section
/-!
DEFINITION. Flag computations: a slot's flags byte (R3), the cause word (R169), the options byte (R4), the ATTN pin (R170),
SRST as the line reads (R127) and PWAIT (R152, R157, R163).
-/
namespace Sys2Proof.Machine

/-- A slot's flags byte: bit 0 TIMER, bit 1 ORDER, bit 2 SIDE, bit 3 DEFERRED; bits 4 to 7 are 0 (Table 11-3, R178). -/
def SlotFlags.byte (f : SlotFlags) : Byte :=
  (if f.timer then 1 else 0) + (if f.order then 2 else 0) + (if f.side then 4 else 0) + (if f.deferred then 8 else 0)

/-- The flags with one of them set to a value. -/
def SlotFlags.put (f : SlotFlags) : FlagName → Bool → SlotFlags
  | .timer, b => { f with timer := b }
  | .order, b => { f with order := b }
  | .side, b => { f with side := b }
  | .deferred, b => { f with deferred := b }

/-- No flag set (R3, R6). -/
def SlotFlags.clear : SlotFlags := { timer := false, order := false, side := false, deferred := false }

/-- The cause word with only one cause. -/
def Cause.mask (c : Cause) : BitVec 16 := BitVec.ofNat 16 (2 ^ c.bit)

/-- Option bit 0: screened (R4). -/
def optScreened (o : Byte) : Bool := o.getLsbD 0
/-- Option bit 1: camp allowed (R4). -/
def optCamp (o : Byte) : Bool := o.getLsbD 1
/-- Option bit 2: DND override (R4). -/
def optOverride (o : Byte) : Bool := o.getLsbD 2

/-- SRST reads asserted while either side drives it (R127). -/
def Link.srst (l : Link) : Bool := l.srstDrive || l.srstSwitch

/-- Unread records (R164). -/
def Journal.unread (j : Journal) : Nat := (j.head + Config.ringSize - j.tail) % Config.ringSize

/-- The level of an output that may be left undriven. -/
inductive PinLevel where
  | high | low | undriven
  deriving DecidableEq, Repr

/-- Attention is active: a latched cause is enabled (R170). -/
def Engine.attention (e : Engine) : Bool := (e.causes &&& e.setup.attnEnable) != 0

/-- The ATTN pin (R170): undriven until the setup load has taken the pin mode (log 22). -/
def State.attn (s : State) : PinLevel :=
  match s.phase with
  | .inReset => .undriven
  | _ =>
    if s.eng.setup.pinLow then (if s.eng.attention then .low else .undriven)
    else (if s.eng.attention then .high else .low)

/-- PWAIT: a processor access is held, at start-up (R163), for the memory side (R158), or for a block or for room (R152, R157). -/
def State.pwait (s : State) : Bool := !s.held.isEmpty || s.waiting.any fun w => w.holds.contains .processor

end Sys2Proof.Machine
end

