-- ==== Sys2Proof/Machine/Handshake.lean ====
section
/-!
DEFINITION. The four steps by which a byte crosses the link (R128): the lines as the part drives them (R127), how a change of
SACK or SSTB moves the handshake on, and what it completes (R133, R134, R135, R137, R138).
-/
namespace Sys2Proof.Machine

/-! ### Lines that the part drives (R127) -/

/-- SD0-SD7 and SDP: driven from step 1 to step 3 of a byte that the part sends. -/
def Link.dataOut (l : Link) : Option LinkByte :=
  match l.hand with
  | .sackRise => l.tx.head?
  | _ => none

/-- SSTB: driven while the part is the sender of a byte, asserted from step 1 to step 3. -/
def Link.sstbOut (l : Link) : PinLevel :=
  match l.hand with
  | .sackRise => .high
  | .sackLow | .sackFall => .low
  | _ => .undriven

/-- SACK: driven while the part is the receiver of a byte, asserted from step 2 to step 4. -/
def Link.sackOut (l : Link) : PinLevel :=
  match l.hand with
  | .sstbFall => .high
  | .sstbRise | .handling => .low
  | _ => .undriven

/-- The part waits on the other side: a wait that T_link bounds runs (R128). -/
def Link.waits (l : Link) : Bool :=
  match l.hand with
  | .idle | .handling => false
  | _ => true

/-! ### The handshake -/

/-- The link takes frame bytes: RECEIVING, the frame neither given up nor finished (R133, R136). -/
def Link.receives (l : Link) : Bool := l.state == .receiving && !l.abandoned && l.answer.isNone

/-- The bytes taken are as many as the kind byte says (R133). -/
def frameComplete : List LinkByte → Bool
  | [] => false
  | k :: bs => decide (frameLength k.data ≤ bs.length + 1)

/-- The part becomes the sender of bytes: step 1 waits until SACK reads deasserted (R128). -/
def Link.sends (l : Link) (bytes : List LinkByte) : Link :=
  { l with tx := bytes, hand := if l.sackIn then .sackLow else .sackRise }

/-- The part takes the byte on the lines, step 2 (R128): it raises SACK, but for a frame's last byte not before the frame has
been handled (R134). -/
def Link.takes (l : Link) (b : LinkByte) : Link :=
  { l with rx := l.rx ++ [b], rxNote := l.rxNote || badParity b
           hand := if l.state == .receiving && frameComplete (l.rx ++ [b]) then .handling else .sstbFall }

/-- The part becomes the receiver of a byte: one that the switch has strobed already is taken: in
RECEIVING by R132, in AWAIT_STATUS by DESIGN CHOICE (log 33). -/
def Link.awaitsByte (l : Link) : Link :=
  match l.strobe with
  | none => { l with hand := .sstbRise }
  | some b => l.takes b

/-- What a change of a line has completed. -/
inductive Completed where
  | nothing
  /-- the last byte that the part had to send -/
  | sent
  /-- a frame's last byte has been taken (R133) -/
  | frameTaken
  /-- the handshake of a frame's last byte (R134) -/
  | frameAcknowledged
  /-- the handshake of the status byte of an order (R138) -/
  | status (b : LinkByte)
  deriving DecidableEq, Repr

/-- The lines after the switch's change. -/
def Link.moved (l : Link) : LineMove → Link
  | .sack b => { l with sackIn := b }
  | .strobe b => { l with strobe := some b }
  | .strobeEnd => { l with strobe := none }

/-- SACK has fallen over a byte that the part sent: the next byte follows, SACK reading deasserted, or it was the last (R128). -/
def Link.byteSent (l : Link) : Link × Completed :=
  match l.tx with
  | _ :: b :: bs => ({ l with tx := b :: bs, hand := .sackRise }, .nothing)
  | _ => ({ l with tx := [], hand := .idle }, .sent)

/-- SSTB has fallen over a byte that the part acknowledged: the part drops SACK, and the byte is complete (R128). -/
def Link.byteTaken (l : Link) : Link × Completed :=
  match l.state, l.rx.getLast? with
  | .awaitStatus, some b => ({ l with hand := .idle }, .status b)
  | _, _ =>
    if l.answer.isSome then ({ l with hand := .idle }, .frameAcknowledged) else ({ l with hand := .sstbRise }, .nothing)

/-- The handshake on the lines as they read (R128). -/
def Link.progress (l : Link) : Link × Completed :=
  match l.hand, l.strobe with
  | .sackLow, _ => (if l.sackIn then l else { l with hand := .sackRise }, .nothing)
  | .sackRise, _ => (if l.sackIn then { l with hand := .sackFall } else l, .nothing)
  | .sackFall, _ => if l.sackIn then (l, .nothing) else l.byteSent
  | .sstbRise, some b => (l.takes b, if (l.takes b).hand = .handling then .frameTaken else .nothing)
  | .sstbFall, none => l.byteTaken
  | _, _ => (l, .nothing)

/-- A change of SACK or SSTB by the switch, and what follows on the link. -/
def Link.handles (l : Link) (m : LineMove) : Link × Completed := (l.moved m).progress

end Sys2Proof.Machine
end

