-- ==== Sys2Proof/Machine/Ops.lean ====
section
/-!
DEFINITION. The shared operations: console memory, the posting queue (R153 to R157), and `Act.effect`, what each
indivisible piece of an event changes in the blocks and which bytes it posts.
-/
namespace Sys2Proof.Machine

/-! ### Console memory -/

/-- The byte at an address; a byte that nothing has written reads `Config.memoryFill` (log 3). -/
def memRead : List Host.Cell → Nat → Byte
  | [], _ => Config.memoryFill
  | (a, b) :: m, k => if a = k then b else memRead m k

/-- Puts a byte at an address, keeping the canonical form. -/
def memWrite : List Host.Cell → Nat → Byte → List Host.Cell
  | [], k, v => if v = Config.memoryFill then [] else [(k, v)]
  | (a, b) :: m, k, v =>
    if k < a then (if v = Config.memoryFill then (a, b) :: m else (k, v) :: (a, b) :: m)
    else if k = a then (if v = Config.memoryFill then m else (k, v) :: m)
    else (a, b) :: memWrite m k v

/-- The canonical form: addresses strictly rising, no byte equal to the unlisted value. -/
def memWf : List Host.Cell → Bool
  | [] => true
  | [(_, b)] => b != Config.memoryFill
  | (a, b) :: (a', b') :: m => b != Config.memoryFill && decide (a < a') && memWf ((a', b') :: m)

/-- The address of a region offset (R149). -/
def State.address (s : State) (off : Nat) : Nat := s.base.toNat * 8192 + off

/-- The region offset of a processor address, if it lies in the region (R149). -/
def State.regionOff (s : State) (addr : BitVec 16) : Option Nat :=
  if addr.toNat / 8192 = s.base.toNat then some (addr.toNat % 8192) else none

/-- The pending value of an offset, if the posting queue holds one (R155). -/
def State.pendingAt (s : State) (off : Nat) : Option Byte := (s.posts.find? (·.off == off)).map (·.val)

/-- What memory holds at an address once the cycle in progress, if any, has ended (R155). -/
def State.settledRead (s : State) (addr : Nat) : Byte :=
  match s.side with
  | .inserted p => if s.address p.off = addr then p.val else memRead s.mem addr
  | .free => memRead s.mem addr

/-- What a processor read of a region offset returns outside a snapshot (R155). -/
def State.readOff (s : State) (off : Nat) : Byte := (s.pendingAt off).getD (s.settledRead (s.address off))

/-! ### The memory side (R154, R156, R158) -/

/-- The inserted cycle in progress ends: memory holds the entry's value (R154). -/
def State.endCycle (s : State) : State :=
  match s.side with
  | .free => s
  | .inserted p => { s with mem := memWrite s.mem (s.address p.off) p.val, side := .free }

/-- An inserted cycle begins at a free memory side: the head entry leaves the posting queue (R154). -/
def State.beginCycle (s : State) : State :=
  match s.side, s.posts with
  | .free, p :: ps => { s with posts := ps, side := .inserted p }
  | _, _ => s

/-- A processor write cycle at a free memory side; an inserted cycle that is ready goes next (R156, R158). -/
def State.writeAddr (s : State) (addr : Nat) (v : Byte) : State := State.beginCycle { s with mem := memWrite s.mem addr v }

/-- A processor write that passes to a region offset: a pending post for it is removed (R156). -/
def State.writeOff (s : State) (off : Nat) (v : Byte) : State :=
  State.writeAddr { s with posts := s.posts.filter (·.off != off) } (s.address off) v

/-! ### The posting queue (R153, R157) -/

/-- Posts a value: a pending entry keeps its place and takes the new value, otherwise a new entry joins the tail (R153). -/
def pushPost (p : Post) : List Post → List Post
  | [] => [p]
  | q :: qs => if q.off = p.off then p :: qs else q :: pushPost p qs

/-- The posting queue holds an entry for the offset. -/
def State.hasPost (s : State) (off : Nat) : Bool := s.posts.any (·.off == off)

/-- A post is taken now: a replacement needs no room, a new entry needs room that no event waits for (R153, R157). -/
def State.canPost (s : State) (off : Nat) : Bool :=
  s.hasPost off || (decide (s.posts.length < Config.postingCapacity) && s.waiting.all (·.bytes.isEmpty))

/-- The post is taken; at a free memory side the entry at the head is ready and its cycle begins at once (R154, R158). -/
def State.push (s : State) (p : Post) : State := State.beginCycle { s with posts := pushPost p s.posts }

/-! ### Reading and changing the blocks -/

/-- A slot. -/
def Engine.slot (e : Engine) (i : SlotId) : Slot := e.slots[i]

/-- A slot with a new content. -/
def Engine.setSlot (e : Engine) (i : SlotId) (x : Slot) : Engine := { e with slots := e.slots.set i x }

/-- A slot changed. -/
def Engine.onSlot (e : Engine) (i : SlotId) (f : Slot → Slot) : Engine := e.setSlot i (f (e.slot i))

/-- A group's figures at the service monitor. -/
def Engine.group (e : Engine) (g : GroupId) : GroupMonitor := e.monitor[g]

/-- A group's figures changed. -/
def Engine.onGroup (e : Engine) (g : GroupId) (f : GroupMonitor → GroupMonitor) : Engine :=
  { e with monitor := e.monitor.set g (f (e.group g)) }

/-- The link controller changed. -/
def Engine.onLink (e : Engine) (f : Link → Link) : Engine := { e with link := f e.link }

/-- The journal's registers changed. -/
def Engine.onJournal (e : Engine) (f : Journal → Journal) : Engine := { e with journal := f e.journal }

/-- A station's entry (R72). -/
def Engine.condition (e : Engine) (st : Byte) : Condition := e.stations[(st.toFin : Fin 256)]

/-- A station's entry set. -/
def Engine.setCondition (e : Engine) (st : Byte) (c : Condition) : Engine :=
  { e with stations := e.stations.set (st.toFin : Fin 256) c }

/-- The 64 slot numbers, lowest first. -/
def allSlots : List SlotId := List.finRange 64

/-- The slot's queue entry (R26). -/
def Engine.entryOf (e : Engine) (i : SlotId) : Option Entry := e.queue.find? (·.slot == i)

/-- The slot's outstanding order (R20). -/
def Engine.orderOf (e : Engine) (i : SlotId) : Option Order := e.orders.find? (·.slot == i)

/-- The slot's outstanding order is in exchange (R137). -/
def Engine.orderInExchange (e : Engine) (i : SlotId) : Bool :=
  e.link.inExchange && (e.orders.head?.any (·.slot == i))

/-- The slot a call reference is mapped to (R8). -/
def Engine.mapped (e : Engine) (ref : BitVec 16) : Option SlotId := (e.refMap.find? (·.1 == ref)).map (·.2)

/-- The lowest-numbered FREE slot (R5). -/
def Engine.freeSlot (e : Engine) : Option SlotId := allSlots.find? fun i => (e.slot i).state == .free

/-- The head of a station's camp list (R91). -/
def Engine.campHead (e : Engine) (st : Byte) : Option SlotId := (e.camps.find? (·.1 == st)).map (·.2)

/-- The copy of a setup byte (R172). -/
def Engine.copy (e : Engine) (off : Nat) : Byte := if h : off < 256 then e.copies[off] else 0

/-- A copy of a setup byte changed. -/
def Engine.setCopy (e : Engine) (off : Nat) (b : Byte) : Engine :=
  if h : off < 256 then { e with copies := e.copies.set off b } else e

/-! ### The answer queue (R27, R28, R34) -/

/-- The advance of a class (R27). -/
def Setup.advance (s : Setup) : CallClass → Nat
  | .external => 0
  | .internal => s.aInt
  | .priority => s.aPri
  | .recall => s.aRec

/-- The rank of an entry made now: entry time less the advance, not below 0 (R27). -/
def Engine.rankNow (e : Engine) (c : CallClass) : Nat := e.time - e.setup.advance c

/-- An entry joins directly before the first entry of greater rank (R28). -/
def insertEntry (x : Entry) : List Entry → List Entry
  | [] => [x]
  | y :: ys => if x.rank < y.rank then x :: y :: ys else y :: insertEntry x ys

/-- The figures of a queue (R34). -/
def figuresOf (q : List Entry) : Figures :=
  { length := q.length
    head := q.head?.map (·.slot)
    counts := Vector.ofFn fun g => (q.filter (·.group == g)).length
    heads := Vector.ofFn fun g => (q.find? (·.group == g)).map (·.slot) }

/-- The waiting count n_g (R34). -/
def Engine.waitingCount (e : Engine) (g : GroupId) : Nat := (e.queue.filter (·.group == g)).length

/-- Every figure as a post (Table 11-2). -/
def Figures.posts (f : Figures) : List Post :=
  [{ off := queueLengthOff, val := byteOf f.length }, { off := queueHeadOff, val := slotByte f.head }]
    ++ postsAt (countOff 0) (f.counts.toList.map byteOf) ++ postsAt (groupHeadOff 0) (f.heads.toList.map slotByte)

/-! ### The service estimate (R113) -/

/-- The new estimate after a sample `w` with smoothing shift `k` (R113). -/
def updateEstimate (est w k : Nat) : Nat :=
  if w > est then est + (w - est + 2 ^ k - 1) / 2 ^ k
  else if w < est then est - (est - w + 2 ^ k - 1) / 2 ^ k
  else est

/-! ### Attention and journal (R165, R166, R167, R169) -/

/-- Latches a cause; the byte of the word that changed is posted (R169). -/
def Engine.latch (e : Engine) (c : Cause) : Engine × List Post :=
  if e.causes &&& c.mask = 0 then
    ({ e with causes := e.causes ||| c.mask },
      if c.bit < 8 then [{ off := causeOff, val := byteOf ((e.causes ||| c.mask).toNat) }]
      else [{ off := causeOff + 1, val := byteOf ((e.causes ||| c.mask).toNat / 256) }])
  else (e, [])

/-- Appends a record, or discards it on a full ring (R165); the watermark (R166). The head is two posts, each of which may wait for
room alone; a snapshot between them waits (`State.splits`, log 35, DEDUCED). -/
def Engine.append (e : Engine) (k : JournalKind) (slot a b : Byte) : Engine × List Post :=
  if e.journal.unread < Config.ringSize - 1 then
    let h := (e.journal.head + 1) % Config.ringSize
    let e1 := e.onJournal fun j => { j with head := h }
    let written := postsAt (recordOff e.journal.head) ([k.code, slot, a, b] ++ leBytes e.time 4)
      ++ postsAt headOff (leBytes h 2)
    if e1.journal.unread = e.setup.watermark then
      ((e1.latch .journalWatermark).1, written ++ (e1.latch .journalWatermark).2)
    else (e1, written)
  else
    let e1 := e.onJournal fun j => { j with overrun := true }
    ((e1.latch .journalOverrun).1,
      (if e.journal.overrun then [] else [{ off := overrunOff, val := 1 }]) ++ (e1.latch .journalOverrun).2)

/-- A proposed tail is within the unread span (R167). -/
def Journal.withinSpan (j : Journal) (p : Nat) : Bool :=
  decide (p < Config.ringSize) && decide ((p + Config.ringSize - j.tail) % Config.ringSize ≤ j.unread)

/-- The tail write (R167). -/
def Engine.tailWrite (e : Engine) (high : Byte) : Engine × List Post :=
  let j := e.journal
  let p := high.toNat * 256 + j.lowCopy.toNat
  let taken : Journal × List Post :=
    if j.withinSpan p then ({ j with tail := p }, [])
    else ({ j with tail := j.head, lowCopy := byteOf j.head }, postsAt tailOff (leBytes j.head 2))
  if taken.1.overrun && decide (taken.1.unread < Config.ringSize - 1) then
    ({ e with journal := { taken.1 with overrun := false } }, taken.2 ++ [{ off := overrunOff, val := 0 }])
  else ({ e with journal := taken.1 }, taken.2)

/-! ### Slots -/

/-- A slot record's engine-owned bytes (Table 11-3). -/
def Slot.record (x : Slot) : List Byte :=
  [x.state.code, x.flags.byte, byteOf x.group.val, x.cls.code] ++ leBytes x.callRef.toNat 2 ++ leBytes x.tag.toNat 2
    ++ leBytes x.entryTime 4 ++ leBytes x.rank 4 ++ leBytes x.deadline 4
    ++ [x.dest, x.leg.code, x.outcome.code, byteOf x.recalls]

/-- A flag set or cleared, posted if it changed (R3): one that an event leaves as it was makes no post, also where a rule names its
posting, as R94 that of TIMER where the CAMP timer gives way to the HOLD timer: DESIGN CHOICE (log 39). -/
def Engine.putFlag (e : Engine) (i : SlotId) (f : FlagName) (b : Bool) : Engine × List Post :=
  let fl := (e.slot i).flags.put f b
  if fl = (e.slot i).flags then (e, [])
  else (e.onSlot i fun x => { x with flags := fl }, [{ off := slotOff i 1, val := fl.byte }])

/-- The record an accepted offer makes (R5). -/
def Slot.allocated (ref : BitVec 16) (g : GroupId) (c : CallClass) (tag : BitVec 16) (time rank : Nat) : Slot :=
  { Slot.initial with state := .offered, group := g, cls := c, callRef := ref, tag := tag, entryTime := time, rank := rank }

/-- What a freed slot holds (R6): the last call's other fields stay. -/
def Slot.freed (x : Slot) : Slot :=
  { x with state := .free, flags := SlotFlags.clear, callRef := 0, deadline := 0, leg := .absent, timer := Timer.off
           ret := none, kept := none }

/-- The orders that stay when a slot's queued order is removed; an order in exchange is not removed (R143). -/
def Engine.ordersWithout (e : Engine) (i : SlotId) : List Order :=
  match e.orders with
  | [] => []
  | o :: os => if e.link.inExchange then o :: os.filter (·.slot != i) else (o :: os).filter (·.slot != i)

/-- A slot's queued order is removed; a head order that leaves takes its attempt count with it (R143). -/
def Engine.removeOrder (e : Engine) (i : SlotId) : Engine × List Post :=
  let os := e.ordersWithout i
  if os.length = e.orders.length then (e, [])
  else
    ({ e with orders := os
              link := { e.link with attempts := if os.head? = e.orders.head? then e.link.attempts else 0 } },
      [{ off := orderLengthOff, val := byteOf os.length }])

/-- Freeing (R6). The leg is posted NONE; the destination station, which keeps its value (R6) and is written at no freeing (R2), is not
posted again, where R58 has both posted at the freeing of a released slot: DESIGN CHOICE (log 41). -/
def Engine.free (e : Engine) (i : SlotId) : Engine × List Post :=
  let r := e.removeOrder i
  ({ r.1 with
      slots := r.1.slots.set i (e.slot i).freed
      queue := e.queue.filter (·.slot != i)
      camps := e.camps.filter (·.2 != i)
      refMap := e.refMap.filter (·.2 != i)
      talkPath := if e.talkPath = some i then none else e.talkPath },
    r.2 ++ [{ off := slotOff i 0, val := SlotState.free.code }, { off := slotOff i 1, val := 0 }]
      ++ postsAt (slotOff i 4) [0, 0] ++ postsAt (slotOff i 16) [0, 0, 0, 0] ++ [{ off := slotOff i 21, val := Leg.absent.code }])

/-! ### The link -/

/-- The receive buffer is emptied, nothing is given up and no byte is received (R133). -/
def Link.rxEmpty (l : Link) : Link := { l with rx := [], rxNote := false, abandoned := false, answer := none, hand := .idle }

/-- RECEIVING is entered: a frame begins (R131, R132, R133). -/
def Link.beginReceiving (l : Link) : Link := Link.awaitsByte { l.rxEmpty with state := .receiving }

/-- The owner has given the status of a report (R134): the part raises SACK for the last byte, and when SSTB has dropped it enters
ANSWERING and sends the status byte (R135). -/
def Link.answering (l : Link) (st : Status) : Link :=
  if l.strobe.isSome then { l with answer := some st, hand := .sstbFall }
  else Link.sends { l with answer := some st, state := .answering } [withParity (statusCode st)]

/-- A change of the link controller that enters a link state is posted (R131). -/
def Engine.entersState (e : Engine) (f : Link → Link) (st : LinkState) : Engine × List Post :=
  (e.onLink f, [{ off := linkStateOff, val := st.code }])

/-- The tests of an IDLE link: a switch claim makes the part a receiver; otherwise it claims when an order waits and SRST
reads deasserted (R131, R147). -/
def Engine.idleTest (e : Engine) : Engine × List Post :=
  if e.link.state = .idle then
    if e.link.scs then e.entersState Link.beginReceiving .receiving
    else if !e.orders.isEmpty && !e.link.srst then
      e.entersState (fun l => { l with state := .arbitrating, scc := true }) .arbitrating
    else (e, [])
  else (e, [])

/-- Steps 1 to 3 of a link reset (R145). -/
def Engine.linkReset (e : Engine) : Engine × List Post :=
  ({ e with orders := []
            link := { e.link.rxEmpty with state := .resetting, scc := false, tx := [], attempts := 0, inExchange := false
                                          resetDue := none } },
    [{ off := orderLengthOff, val := 0 }, { off := linkStateOff, val := LinkState.resetting.code }])

/-! ### Setup (R173, R174) -/

/-- The value that the copies of a field's bytes spell (R172). -/
def Engine.fieldValue (e : Engine) (f : SetupField) : Nat :=
  leValue ((List.range f.width).map fun k => e.copy (f.off + k))

/-- A field's bytes into the copies (R173). -/
def Engine.setField (e : Engine) (f : SetupField) (v : Nat) : Engine :=
  (postsAt f.off (leBytes v f.width)).foldl (fun e p => e.setCopy p.off p.val) e

/-- The 256 copies filled with the bytes read (R174). -/
def fillCopies (bytes : List Byte) : Vector Byte 256 :=
  bytes.zipIdx.foldl (fun v p => if h : p.2 < 256 then v.set p.2 p.1 else v) (Vector.replicate 256 0)

/-- One field of a stored setup is taken, clamped and posted back if it is out of range (R173, R174). -/
def loadStored (r : Engine × List Post) (f : SetupField) : Engine × List Post :=
  let v := r.1.fieldValue f
  let c := f.clamp v
  let e1 := { r.1 with setup := r.1.setup.take f c }
  if c = v then (e1, r.2)
  else ({ e1.setField f c with clampNoted := true }, r.2 ++ postsAt f.off (leBytes c f.width))

/-- One field takes its default, which is posted (R174). -/
def loadDefault (r : Engine × List Post) (f : SetupField) : Engine × List Post :=
  let e1 := { r.1 with setup := r.1.setup.take f f.default }
  (e1.setField f f.default, r.2 ++ postsAt f.off (leBytes f.default f.width))

/-- The setup load (R174). -/
def Engine.setupLoad (e : Engine) (bytes : List Byte) : Engine × List Post :=
  let e1 := { e with copies := fillCopies bytes }
  if e1.copy 0 = Config.setupValid then valueFields.foldl loadStored (e1, [])
  else
    let r := valueFields.foldl loadDefault (e1, [])
    (r.1.setCopy 0 Config.setupValid, r.2 ++ [{ off := 0, val := Config.setupValid }])

/-- The posts of the initialization sweep, in the order of R175's table. -/
def sweepPosts (e : Engine) : List Post :=
  (allSlots.flatMap fun i => postsAt (slotOff i 0) Slot.initial.record ++ [{ off := slotOff i 24, val := 0 }])
    ++ Figures.empty.posts
    ++ [{ off := modeOff, val := Mode.day.code }, { off := consoleOutcomeOff, val := ReqOutcome.none.code },
        { off := answeredOff, val := 0xFF }, { off := consoleReqOff, val := 0 }]
    ++ postsAt (stationOff 0) (List.replicate 256 Condition.unknown.code)
    ++ postsAt timeOff (leBytes 0 4)
    ++ (allGroups.flatMap fun g =>
          postsAt (estimateOff g) (leBytes (e.setup.group g).reference 2)
            ++ [{ off := durationOff g, val := 0 }, { off := overflowOff g, val := 0 }])
    ++ [{ off := linkStateOff, val := LinkState.offline.code }, { off := orderLengthOff, val := 0 }]
    ++ postsAt headOff [0, 0] ++ postsAt tailOff [0, 0]
    ++ [{ off := overrunOff, val := 0 }] ++ postsAt causeOff [0, 0] ++ [{ off := droppedOff, val := 0xFF }]

/-- The internal values that match the sweep and differ from `Engine.initial`: each E_g is its E0_g (R111, R175). -/
def Engine.swept (e : Engine) : Engine :=
  allGroups.foldl (fun e g => e.onGroup g fun _ => { estimate := (e.setup.group g).reference, count := 0, overflow := false }) e

/-- A console request is marked in flight with its copied operand, or is in flight no longer (R63, R64). -/
def Console.mark (c : Console) : Option (ConsoleReq × Byte) → Console
  | none => { c with inFlight := none }
  | some r => { c with inFlight := some r.1, operand := r.2 }

/-- The RUNNING timers whose deadline console time has reached, lowest slot first (R102). -/
def Engine.expiring (e : Engine) : List SlotId :=
  allSlots.filter fun i => (e.slot i).timer.running && decide ((e.slot i).timer.deadline ≤ e.time)

/-- The bytes of the head order's frame (R130, R137). -/
def Engine.headFrame (e : Engine) : List LinkByte :=
  match e.orders with
  | [] => []
  | o :: _ => o.frame.map withParity

/-! ### Acts -/

/-- The posts of `c_g` and the overflow state for a group that a link reset changed (R126). -/
def monitorResetPosts (m : GroupMonitor) (g : GroupId) : List Post :=
  if m.overflow || m.count != 0 then [{ off := durationOff g, val := 0 }, { off := overflowOff g, val := 0 }] else []

/-- What one piece of an event changes in the blocks, and the bytes it posts in their order. -/
def Act.effect : Act → Engine → Engine × List Post
  | .slotState i st, e => (e.onSlot i fun x => { x with state := st }, [{ off := slotOff i 0, val := st.code }])
  | .flag i f b, e => e.putFlag i f b
  | .timer i t, e => (e.onSlot i fun x => { x with timer := t }, [])
  | .deadline i n, e => (e.onSlot i fun x => { x with deadline := n }, postsAt (slotOff i 16) (leBytes n 4))
  | .dest i st, e => (e.onSlot i fun x => { x with dest := st }, [{ off := slotOff i 20, val := st }])
  | .leg i l, e => (e.onSlot i fun x => { x with leg := l }, [{ off := slotOff i 21, val := l.code }])
  | .outcome i o, e => (e.onSlot i fun x => { x with outcome := o }, [{ off := slotOff i 22, val := o.code }])
  | .recalls i n, e => (e.onSlot i fun x => { x with recalls := n }, [{ off := slotOff i 23, val := byteOf n }])
  | .entryFields i t r, e =>
      (e.onSlot i fun x => { x with entryTime := t, rank := r }, postsAt (slotOff i 8) (leBytes t 4 ++ leBytes r 4))
  | .request i r, e => (e.onSlot i fun x => { x with request := r }, [])
  | .requestNone i, e => (e, [{ off := slotOff i 24, val := 0 }])
  | .returnState i r, e => (e.onSlot i fun x => { x with ret := r }, [])
  | .keep i k, e => (e.onSlot i fun x => { x with kept := k }, [])
  | .allocate i ref g c tag t r, e =>
      ({ e.setSlot i (Slot.allocated ref g c tag t r) with refMap := (ref, i) :: e.refMap },
        postsAt (slotOff i 0) (Slot.allocated ref g c tag t r).record)
  | .free i, e => e.free i
  | .talkPath o, e => ({ e with talkPath := o }, [])
  | .enqueue x, e => ({ e with queue := insertEntry x e.queue }, [])
  | .dequeue i, e => ({ e with queue := e.queue.filter (·.slot != i) }, [])
  | .figures, e =>
      ({ e with figures := figuresOf e.queue }, (figuresOf e.queue).posts.filter fun p => !e.figures.posts.contains p)
  | .allFigures, e => ({ e with figures := figuresOf e.queue }, (figuresOf e.queue).posts)
  | .sample g w, e =>
      let n := updateEstimate (e.group g).estimate w (e.setup.group g).shift
      if n = (e.group g).estimate then (e, [])
      else (e.onGroup g fun m => { m with estimate := n }, postsAt (estimateOff g) (leBytes n 2))
  | .mode m, e => ({ e with mode := m }, [{ off := modeOff, val := m.code }])
  | .consoleRequest r, e => ({ e with console := e.console.mark r }, [])
  | .consoleOutcome o, e =>
      ({ e with console := { e.console with outcome := o } }, [{ off := consoleOutcomeOff, val := o.code }])
  | .answered o, e =>
      ({ e with console := { e.console with answered := o } }, [{ off := answeredOff, val := slotByte o }])
  | .consoleNone, e => (e, [{ off := consoleReqOff, val := 0 }])
  | .station st c, e => (e.setCondition st c, [{ off := stationOff st, val := c.code }])
  | .stationsUnknown, e =>
      ({ e with stations := Vector.replicate 256 .unknown },
        postsAt (stationOff 0) (List.replicate 256 Condition.unknown.code))
  | .campJoin st i, e => ({ e with camps := e.camps ++ [(st, i)] }, [])
  | .campLeave i, e => ({ e with camps := e.camps.filter (·.2 != i) }, [])
  | .advanceTime, e =>
      let e1 := { e with tickPeriod := { prescaler := e.setup.prescaler, divider := e.setup.tickDivider } }
      if e.time < Config.timeLimit then
        ({ e1 with time := e.time + 1, ticks := e.ticks ++ [e.time + 1] }, postsAt timeOff (leBytes (e.time + 1) 4))
      else ({ e1 with ticks := e.ticks ++ [e.time] }, [])
  | .testTimers, e => ({ e with due := e.due ++ e.expiring.filter fun i => !e.due.contains i }, [])
  | .dueTaken, e => ({ e with due := e.due.tail }, [])
  | .tickTaken, e => ({ e with ticks := e.ticks.tail }, [])
  | .estimate g n, e => (e.onGroup g fun m => { m with estimate := n }, postsAt (estimateOff g) (leBytes n 2))
  | .count g n, e => (e.onGroup g fun m => { m with count := n }, [{ off := durationOff g, val := byteOf n }])
  | .overflow g on, e => (e.onGroup g fun m => { m with overflow := on }, [{ off := overflowOff g, val := boolByte on }])
  | .monitorReset, e =>
      (allGroups.foldl (fun e g => e.onGroup g fun m => { m with count := 0, overflow := false }) e,
        allGroups.flatMap fun g => monitorResetPosts (e.group g) g)
  | .append i k p, e =>
      ({ e with orders := e.orders ++ [{ kind := k, slot := i, callRef := (e.slot i).callRef, purpose := p }] },
        [{ off := orderLengthOff, val := byteOf (e.orders.length + 1) }])
  | .removeOrder i, e => e.removeOrder i
  | .idleTest, e => e.idleTest
  | .linkState l, e => e.entersState (fun x => { x with state := l }) l
  | .scc b, e => (e.onLink fun x => { x with scc := b }, [])
  | .scs b, e => (e.onLink fun x => { x with scs := b }, [])
  | .linkUnit, e =>
      ({ e with linkPeriod := { prescaler := e.setup.prescaler, divider := e.setup.linkDivider } }, [])
  | .line m, e => (e.onLink fun x => (x.handles m).1, [])
  | .beginReceiving, e => e.entersState Link.beginReceiving .receiving
  | .beginSending, e =>
      e.entersState (fun x => Link.sends { x with state := .sending, inExchange := true } e.headFrame) .sending
  | .awaitStatus, e =>
      e.entersState (fun x => Link.awaitsByte { x.rxEmpty with state := .awaitStatus, tx := [] }) .awaitStatus
  | .txEnd, e => (e.onLink fun x => { x with tx := [], hand := .idle }, [])
  | .receive fr note, e => (e.onLink fun x => { x with rx := fr, rxNote := note, hand := .handling }, [])
  | .rxClear, e => (e.onLink Link.rxEmpty, [])
  | .abandon, e => (e.onLink fun x => { x.rxEmpty with abandoned := true }, [])
  | .answering st, e =>
      (e.onLink fun x => x.answering st,
        if e.link.strobe.isSome then [] else [{ off := linkStateOff, val := LinkState.answering.code }])
  | .endExchange, e =>
      ({ e with orders := e.orders.tail
                link := { e.link.rxEmpty with scc := false, tx := [], attempts := 0, inExchange := false } },
        [{ off := orderLengthOff, val := byteOf e.orders.tail.length }])
  | .failAttempt, e =>
      (e.onLink fun x => { x.rxEmpty with scc := false, tx := [], inExchange := false, attempts := x.attempts + 1 }, [])
  | .srstDrive c, e =>
      (e.onLink fun x => { x with srstDrive := true, resetDue := if x.srst then x.resetDue else some c }, [])
  | .srstRelease, e => (e.onLink fun x => { x with srstDrive := false }, [])
  | .srstSwitch b, e => (e.onLink fun x => { x with srstSwitch := b }, [])
  | .linkReset, e => e.linkReset
  | .journal k sl a b, e => e.append k sl a b
  | .latch c, e => e.latch c
  | .clearCauses m, e =>
      ({ e with causes := e.causes &&& ~~~m }, postsAt causeOff (leBytes (e.causes &&& ~~~m).toNat 2))
  | .dropped b, e => ({ e with dropped := b }, [{ off := droppedOff, val := b }])
  | .tailLow b, e => (e.onJournal fun j => { j with lowCopy := b }, [])
  | .tailWrite high, e => e.tailWrite high
  | .setupCopy off b, e => (e.setCopy off b, [])
  | .setupTake f v, e => ({ e with setup := e.setup.take f v }, [])
  | .setupPost f v, e => (e.setField f v, postsAt f.off (leBytes v f.width))
  | .setupLoad bytes, e => e.setupLoad bytes
  | .sweep, e => (e.swept, sweepPosts e)
  | .startDividers, e =>
      ({ e with tickPeriod := { prescaler := e.setup.prescaler, divider := e.setup.tickDivider }
                linkPeriod := { prescaler := e.setup.prescaler, divider := e.setup.linkDivider } }, [])
  | .clampLatched, e => ({ e with clampNoted := false }, [])

end Sys2Proof.Machine
end

