-- ==== Sys2Proof/Machine/SlotEngine.lean ====
section
/-!
DEFINITION. The parts of an event that several rules share, each a list of acts: completing requests (R19, R64), issuing
orders (R20), the queue (R31 to R33), timers (R99 to R101), return states (R21), call gone (R22), recall (R103), the night
divert (R108) and the link reset (R145).
-/
namespace Sys2Proof.Machine

/-- A journal record that names a slot (R168). -/
def record (k : JournalKind) (i : SlotId) (a b : Byte) : Act := .journal k (byteOf i.val) a b

/-! ### Completing requests -/

/-- A slot request in flight completes (R19): outcome, NONE into the request code byte, REQUEST_DONE. -/
def completeSlot (i : SlotId) (o : ReqOutcome) : List Act :=
  [.outcome i o, .request i none, .requestNone i, .latch .requestDone]

/-- A request that was not taken completes at once (R11, R15, R16, R17, R10): only the outcome and the request byte change. -/
def completeAtOnce (i : SlotId) (o : ReqOutcome) : List Act := [.outcome i o, .requestNone i, .latch .requestDone]

/-- A console request completes (R64): outcome, NONE into the console request byte, CONSOLE_DONE. The answered slot of an ANSWER_NEXT,
posted at its taking (R65), keeps its value and is not posted again here, where R64 lists it: DESIGN CHOICE (log 38). -/
def completeConsole (o : ReqOutcome) : List Act :=
  [.consoleRequest none, .consoleOutcome o, .consoleNone, .latch .consoleDone]

/-- The request that an order served completes (R22, R23): the slot's own, the ANSWER_NEXT, or none. -/
def completeServed (i : SlotId) (o : ReqOutcome) : Purpose → List Act
  | .slotRequest _ => completeSlot i o
  | .answerNext => completeConsole o
  | _ => []

/-- The request that an order served completes CANCELLED while a RELEASE is in flight on the slot: the outcome is posted
CANCELLED and then PENDING, and the request code byte keeps the RELEASE (R13; at a deferral DEDUCED, log 15). The events that use
this post the completion before the slot's LEAVING (R13), or before DEFERRED clear (R14), where R19 and R64 have the record fields
that the event changes posted first: DESIGN CHOICE (log 40). -/
def cancelServed (i : SlotId) : Purpose → List Act
  | .slotRequest _ => [.outcome i .cancelled, .latch .requestDone, .outcome i .pending]
  | .answerNext => completeConsole .cancelled
  | _ => []

/-! ### Orders -/

/-- An order for the slot is appended, ORDER is set, and an IDLE link tests for a claim (R20, R131, R142). -/
def issue (i : SlotId) (k : OrderKind) (p : Purpose) : List Act := [.append i k p, .flag i .order true, .idleTest]

/-! ### The answer queue -/

/-- The entry yields a wait sample at its exit (R32). -/
def Entry.yieldsSample (x : Entry) : Bool := x.cls != .recall && !x.sampled

/-- The wait sample of an exit now (R32). -/
def Engine.waitSample (e : Engine) (x : Entry) : Nat := min (e.time - x.time) Config.sampleLimit

/-- The slot's entry leaves the queue (R31), yielding a sample (R32); it is kept with its sampled flag set, or discarded. The sample
ends at console time as the piece of the event is decided, also where an earlier act of it then waits for room and a tick comes (R123;
log 24, DEDUCED). -/
def leaveQueue (e : Engine) (i : SlotId) (keeps : Bool) : List Act :=
  match e.entryOf i with
  | none => [.keep i none]
  | some x =>
    [.dequeue i, .keep i (if keeps then some { x with sampled := x.sampled || x.cls != .recall } else none)]
      ++ (if x.yieldsSample then [.sample x.group (e.waitSample x)] else [])

/-- The kept entry is put back (R33). -/
def reinsert (e : Engine) (i : SlotId) : List Act :=
  (match (e.slot i).kept with
    | some x => [.enqueue x]
    | none => []) ++ [.keep i none]

/-! ### Timers -/

/-- The slot's timer is suspended on its deadline, TIMER clear (R100). -/
def suspendTimer (e : Engine) (i : SlotId) : List Act :=
  if (e.slot i).timer.kind = .none then []
  else [.timer i { (e.slot i).timer with running := false }, .flag i .timer false]

/-- The slot's timer resumes on its kept deadline, TIMER set; a slot without a timer has none to resume (R100). -/
def resumeTimer (e : Engine) (i : SlotId) : List Act :=
  if (e.slot i).timer.kind = .none then []
  else [.timer i { (e.slot i).timer with running := true }, .flag i .timer true]

/-- The slot's timer is cleared: TIMER clear, the deadline field as it was (R101). -/
def clearTimer (i : SlotId) : List Act := [.timer i Timer.off, .flag i .timer false]

/-- The duration in force of a timer kind (R99). -/
def Setup.durationOf (s : Setup) : TimerKind → Nat
  | .none => 0
  | .hold => s.tHold
  | .noans => s.tNoans
  | .camp => s.tCamp

/-- The deadline of a timer started now (R99). -/
def Engine.deadlineNow (e : Engine) (k : TimerKind) : Nat := min (e.time + e.setup.durationOf k) Config.timeLimit

/-- The slot's timer starts and its deadline is posted; a duration of 0 starts no timer (R99). -/
def startTimer (e : Engine) (i : SlotId) (k : TimerKind) : List Act :=
  if e.setup.durationOf k = 0 then [.timer i Timer.off]
  else
    [.timer i { kind := k, running := true, deadline := e.deadlineNow k }, .deadline i (e.deadlineNow k)]

/-- TIMER as a start leaves it: set, or clear with a duration of 0 (R99). -/
def startFlag (e : Engine) (i : SlotId) (k : TimerKind) : Act := .flag i .timer (if e.setup.durationOf k = 0 then false else true)

/-- The slot enters a timed state (R99): the deadline and TIMER are posted, then the state (R77, R80, R85, R93, R94). -/
def enterTimed (e : Engine) (i : SlotId) (k : TimerKind) (st : SlotState) : List Act :=
  startTimer e i k ++ [startFlag e i k, .slotState i st]

/-- The slot enters HELD at an accepted HOLD: the deadline, the state, then TIMER (R54). -/
def enterHeld (e : Engine) (i : SlotId) : List Act :=
  startTimer e i .hold ++ [.slotState i .held, startFlag e i .hold]

/-! ### The talk path -/

/-- The talk path is released if the slot owns it (R9). -/
def releasePath (e : Engine) (i : SlotId) : List Act := if e.talkPath = some i then [.talkPath none] else []

/-- Another slot owns the talk path (R10). -/
def Engine.pathTaken (e : Engine) (i : SlotId) : Bool :=
  match e.talkPath with
  | none => false
  | some j => j != i

/-! ### Return states -/

/-- A refused ANSWER, RETRIEVE or DIVERT sends the slot back to its return state (R21); figures and QUEUE_ENTRY follow with
`afterReturn`. -/
def goBack (e : Engine) (i : SlotId) : List Act :=
  match (e.slot i).ret with
  | some .offered => [.slotState i .offered] ++ reinsert e i ++ [.returnState i none, .flag i .order false]
  | some .recalling => [.slotState i .recalling] ++ reinsert e i ++ [.returnState i none, .flag i .order false]
  | some .camped =>
    [.slotState i .camped, .campJoin (e.slot i).dest i, .returnState i none, .flag i .order false] ++ resumeTimer e i
  | some st => [.slotState i st, .returnState i none, .flag i .order false] ++ resumeTimer e i
  | none => [.flag i .order false]

/-- A return into the answer queue posts the figures that changed and latches QUEUE_ENTRY (R33, R34). -/
def afterReturn (e : Engine) (i : SlotId) : List Act :=
  match (e.slot i).ret with
  | some .offered => [.figures, .latch .queueEntry]
  | some .recalling => [.figures, .latch .queueEntry]
  | _ => []

/-! ### Call gone -/

/-- NO_CALL to an order other than a RELEASE (R22): the slot is freed, the request waiting on the order completes
CALLER_GONE, CALLER_GONE is journalled with the state at the status and latched. -/
def callGone (e : Engine) (i : SlotId) (p : Purpose) : List Act :=
  [.free i] ++ completeServed i .callerGone p
    ++ [record .callerGone i (e.slot i).state.code 0, .latch .callerGone]

/-! ### Recall and night divert -/

/-- The queue entry of a slot that enters RECALLING now (R30). -/
def Engine.recallEntry (e : Engine) (i : SlotId) : Entry :=
  { slot := i, group := (e.slot i).group, cls := .recall, time := e.time, rank := e.rankNow .recall, sampled := false }

/-- Entry to RECALLING (R103). -/
def recallSlot (e : Engine) (i : SlotId) (r : RecallReason) : List Act :=
  [.enqueue (e.recallEntry i), .slotState i .recalling, .flag i .timer false, .recalls i (min ((e.slot i).recalls + 1) 255),
    .entryFields i e.time (e.rankNow .recall), .figures, record .recalled i r.code 0, .latch .recall]

/-- The engine-initiated DIVERT to the night destination from a timed state, the timer suspended on its deadline (R108). -/
def nightDivert (e : Engine) (i : SlotId) : List Act :=
  suspendTimer e i
    ++ [.returnState i (some (e.slot i).state), .campLeave i]
    ++ issue i (.divert e.setup.nightDest) .nightExpiry
    ++ [.slotState i .leaving]

/-! ### Leaving under a RELEASE -/

/-- The slot enters LEAVING under a RELEASE and loses its attachments (R13, R14, R58). A slot that a DIVERT has brought to LEAVING
already keeps the DIVERT's return state, which no rule uses any more, and its kept entry is discarded at once: DESIGN CHOICE
(log 27). -/
def detachForRelease (e : Engine) (i : SlotId) : List Act :=
  (if (e.slot i).state = .leaving then [] else [.returnState i (some (e.slot i).state)])
    ++ [.slotState i .leaving] ++ leaveQueue e i false ++ [.campLeave i] ++ clearTimer i ++ releasePath e i
    ++ [.flag i .side false]

/-! ### The link -/

/-- The link enters IDLE and makes its tests (R131, R139, R147). -/
def toIdle : List Act := [.linkState .idle, .idleTest]

/-- Every slot that is not FREE is freed and its requests complete LINK_RESET (R25); a RELEASE deferred on an exchange
completes along with the request it waited behind. -/
def resetSlot (e : Engine) (i : SlotId) : List Act :=
  if (e.slot i).state = .free then []
  else
    [.free i]
      ++ (if (e.slot i).flags.deferred then
            (match e.orderOf i with
              | some { purpose := .slotRequest _, .. } => [.outcome i .linkReset, .latch .requestDone]
              | _ => [])
          else [])
      ++ (if (e.slot i).request.isSome then completeSlot i .linkReset else [])

/-- A link reset (R145): the link controller's part, then each block's (R25, R49, R95, R126), then the one journal record. R145
gives the blocks' parts no order; that the service monitor's comes after the transfer unit's is DESIGN CHOICE (log 32). -/
def linkResetActs (e : Engine) (c : ResetCause) : List Act :=
  [.linkReset] ++ allSlots.flatMap (resetSlot e) ++ [.allFigures]
    ++ (if e.console.inFlight = some .answerNext then completeConsole .linkReset else [])
    ++ [.stationsUnknown, .monitorReset, .journal .linkReset 0xFF c.code 0, .latch .linkReset]

/-- The link leaves RESETTING: IDLE is posted, a RESTART in flight completes DONE, and the IDLE tests follow (R147, R71). -/
def leaveResetting (e : Engine) : List Act :=
  [.linkState .idle] ++ (if e.console.inFlight = some .restart then completeConsole .done else []) ++ [.idleTest]

/-- A failed attempt (R140, R141). A RELEASE deferred on the exchange removes the returned order and appends itself (R14),
except at the third failure; the slot request (R19) or ANSWER_NEXT (R64) that ends with it completes before DEFERRED is cleared and
posted (log 40, DESIGN CHOICE). -/
def failedAttempt (e : Engine) : List Act :=
  [.failAttempt, .latch .linkRetry]
    ++ (if e.link.attempts + 1 < Config.attemptLimit then
          (match e.orders with
            | o :: _ =>
              if (e.slot o.slot).flags.deferred then
                [.removeOrder o.slot, .flag o.slot .order false] ++ cancelServed o.slot o.purpose ++ [.flag o.slot .deferred false]
                  ++ issue o.slot .release (.slotRequest .release)
              else []
            | [] => []) ++ toIdle
        else [.srstDrive .attempts])

end Sys2Proof.Machine
end

