-- ==== Sys2Proof/Machine/TakenRequests.lean ====
section
/-!
DEFINITION. What each slot request does once it has passed its checks (R51, R53, R55, R58, R60, R75, R82, R83, R84, R94),
a RELEASE that takes precedence (R13, R14), and the checks themselves (R11 to R17).
-/
namespace Sys2Proof.Machine

/-- Firmware's four operand fields of a slot record as they stand at the request write (R4). -/
structure SlotOperands where
  expected : Byte
  station : Byte
  options : Byte
  divert : Byte
  deriving DecidableEq, Repr

/-- The request record of a request taken with these operands (R18). -/
def SlotOperands.copied (ops : SlotOperands) (c : SlotReq) : Request :=
  { code := c, station := ops.station, options := ops.options, divert := ops.divert }

/-- The request is marked in flight with its copied operands (R18). -/
def markInFlight (i : SlotId) (c : SlotReq) (ops : SlotOperands) : List Act := [.request i (some (ops.copied c))]

/-- The order that answers a waiting slot: ANSWER for an OFFERED one, RETRIEVE for a RECALLING one (R51). -/
def answerOrder (e : Engine) (i : SlotId) : OrderKind := if (e.slot i).state = .offered then .answer else .retrieve

/-- The slot goes to CONNECTING with the talk path, its queue entry kept (R51 steps 1 to 3, R43). -/
def connectWaiting (e : Engine) (i : SlotId) : List Act :=
  [.returnState i (some (e.slot i).state), .talkPath (some i), .slotState i .connecting] ++ leaveQueue e i true

/-- ANSWER taken (R51). The figures are posted last, once the slot record fields of the event have been (R34), where R51 names them
before the order: DESIGN CHOICE (log 31). -/
def takeAnswer (e : Engine) (i : SlotId) (ops : SlotOperands) : List Act :=
  markInFlight i .answer ops ++ connectWaiting e i ++ issue i (answerOrder e i) (.slotRequest .answer)
    ++ [.outcome i .pending, .figures]

/-- HOLD taken (R53). -/
def takeHold (_e : Engine) (i : SlotId) (ops : SlotOperands) : List Act :=
  markInFlight i .hold ops ++ issue i (.hold .music) (.slotRequest .hold) ++ [.outcome i .pending]

/-- What a RETRIEVE leaves, by the state it came from (R55 step 3). -/
def detachForRetrieve (e : Engine) (i : SlotId) : List Act :=
  match (e.slot i).state with
  | .camped => suspendTimer e i ++ [.campLeave i]
  | .recalling => leaveQueue e i true
  | _ => suspendTimer e i

/-- RETRIEVE taken (R55). -/
def takeRetrieve (e : Engine) (i : SlotId) (ops : SlotOperands) : List Act :=
  markInFlight i .retrieve ops
    ++ [.returnState i (some (e.slot i).state), .talkPath (some i), .slotState i .connecting] ++ detachForRetrieve e i
    ++ issue i .retrieve (.slotRequest .retrieve) ++ [.outcome i .pending, .figures]

/-- RELEASE taken on a slot with no order outstanding (R58). -/
def takeRelease (e : Engine) (i : SlotId) (ops : SlotOperands) : List Act :=
  detachForRelease e i ++ markInFlight i .release ops ++ issue i .release (.slotRequest .release)
    ++ [.outcome i .pending, .figures]

/-- What a DIVERT leaves, by the state it came from (R60 step 3). -/
def detachForDivert (e : Engine) (i : SlotId) : List Act :=
  match (e.slot i).state with
  | .offered | .recalling => leaveQueue e i true
  | .camped => suspendTimer e i ++ [.campLeave i]
  | _ => suspendTimer e i

/-- DIVERT taken (R60). -/
def takeDivert (e : Engine) (i : SlotId) (ops : SlotOperands) : List Act :=
  markInFlight i .divert ops ++ [.returnState i (some (e.slot i).state), .slotState i .leaving] ++ detachForDivert e i
    ++ issue i (.divert ops.divert) (.slotRequest .divert) ++ [.outcome i .pending, .figures]

/-- The pre-check of an EXTEND against the station's entry (R75, R76, R80). -/
def extendPreCheck (e : Engine) (i : SlotId) (ops : SlotOperands) : List Act :=
  let order := issue i (.extend ops.station (optScreened ops.options) (optOverride ops.options)) (.slotRequest .extend)
  match e.condition ops.station with
  | .idle | .unknown => order
  | .busy | .ringing =>
    if optCamp ops.options then issue i (.hold .camp) (.slotRequest .extend) else completeSlot i .destBusy
  | .dnd => if optOverride ops.options then order else completeSlot i .destDnd
  | .outOfService => completeSlot i .destInvalid

/-- EXTEND taken (R75). -/
def takeExtend (e : Engine) (i : SlotId) (ops : SlotOperands) : List Act :=
  markInFlight i .extend ops ++ [.dest i ops.station, .outcome i .pending] ++ extendPreCheck e i ops

/-- COMPLETE taken (R84): PENDING is posted and the order follows (R18). -/
def takeComplete (_e : Engine) (i : SlotId) (ops : SlotOperands) : List Act :=
  markInFlight i .complete ops ++ [.outcome i .pending] ++ issue i .join (.slotRequest .complete)

/-- CANCEL taken: in CAMPED it finishes at once (R94), in CONSULTING it asks for DROP_DEST (R83, R18). -/
def takeCancel (e : Engine) (i : SlotId) (ops : SlotOperands) : List Act :=
  if (e.slot i).state = .camped then
    markInFlight i .cancel ops ++ [.outcome i .pending, .campLeave i] ++ enterTimed e i .hold .held ++ completeSlot i .done
      ++ [record .held i 0 0]
  else markInFlight i .cancel ops ++ [.outcome i .pending] ++ issue i .dropDest (.slotRequest .cancel)

/-- SWAP taken (R82, R18). -/
def takeSwap (_e : Engine) (i : SlotId) (ops : SlotOperands) : List Act :=
  markInFlight i .swap ops ++ [.outcome i .pending] ++ issue i .swap (.slotRequest .swap)

/-- A RELEASE that meets a request in flight or an outstanding order takes precedence (R13), or is deferred behind an
exchange (R14). The slot's own request, or the ANSWER_NEXT, that ends here completes CANCELLED before LEAVING is posted, in the order of
R13, where R19 and R64 have the record fields that the event changes posted first: DESIGN CHOICE (log 40). -/
def releaseOver (e : Engine) (i : SlotId) (ops : SlotOperands) : List Act :=
  if (e.slot i).request.any (·.code == .release) then
    [.outcome i .cancelled, .latch .requestDone] ++ markInFlight i .release ops ++ [.outcome i .pending]
  else
    match e.orderOf i with
    | none => takeRelease e i ops
    | some o =>
      if e.orderInExchange i then
        detachForRelease e i ++ [.flag i .deferred true] ++ markInFlight i .release ops ++ [.outcome i .pending, .figures]
      else
        [.removeOrder i, .flag i .order false] ++ cancelServed i o.purpose ++ detachForRelease e i ++ markInFlight i .release ops
          ++ [.outcome i .pending] ++ issue i .release (.slotRequest .release) ++ [.figures]

/-- The states in which a request is valid (R16). -/
def validIn (x : Slot) : SlotReq → Bool
  | .answer => x.state == .offered || x.state == .recalling
  | .hold => x.state == .talking
  | .retrieve => x.state == .held || x.state == .camped || x.state == .ringingOut || x.state == .recalling
  | .extend => x.state == .talking
  | .complete => x.state == .consulting && (x.leg == .ringing || x.leg == .talking)
  | .cancel => x.state == .consulting || x.state == .camped
  | .swap => x.state == .consulting && x.leg == .talking
  | .release => x.state != .free
  | .divert => x.state == .offered || x.state == .recalling || x.state == .held || x.state == .camped

/-- The stale check (R15). -/
def staleCheckPasses (x : Slot) (expected : Byte) : Bool := expected == 0xFF || expected == x.state.code

/-- The outcome with which a check turns a request away, the first that fails (R11 steps 3 to 6). -/
def turnedAway (e : Engine) (i : SlotId) (c : SlotReq) (ops : SlotOperands) : Option ReqOutcome :=
  if !staleCheckPasses (e.slot i) ops.expected then some .stale
  else if !validIn (e.slot i) c then some .wrongState
  else if c != .release && (e.slot i).flags.order then some .slotBusy
  else if (c == .answer || c == .retrieve) && e.pathTaken i then some .pathBusy
  else none

/-- A request that has passed every check is taken (R18). -/
def takeRequest (e : Engine) (i : SlotId) (ops : SlotOperands) : SlotReq → List Act
  | .answer => takeAnswer e i ops
  | .hold => takeHold e i ops
  | .retrieve => takeRetrieve e i ops
  | .extend => takeExtend e i ops
  | .complete => takeComplete e i ops
  | .cancel => takeCancel e i ops
  | .swap => takeSwap e i ops
  | .release => if (e.slot i).flags.order then releaseOver e i ops else takeRelease e i ops
  | .divert => takeDivert e i ops

/-- The slot engine withholds a request code other than RELEASE while a request is in flight on the slot (R12). -/
def slotWithholds (e : Engine) (i : SlotId) (code : Byte) : Bool :=
  (e.slot i).request.isSome && slotReqOf code != some .release

/-- The slot engine's handling of a withheld request write (R12, R171). -/
def dropSlotRequest (i : SlotId) : List Act := [.dropped (byteOf i.val), .latch .requestDropped]

/-- The slot engine's handling of a delivered request code (R11). -/
def slotRequest (e : Engine) (i : SlotId) (code : Byte) (ops : SlotOperands) : List Act :=
  if (e.slot i).request.isSome then releaseOver e i ops
  else if code = 0 then []
  else
    match slotReqOf code with
    | none => completeAtOnce i .unknownRequest
    | some c =>
      match turnedAway e i c ops with
      | some o => completeAtOnce i o
      | none => takeRequest e i ops c

end Sys2Proof.Machine
end

