-- ==== Sys2Proof/Machine/AnswerQueue.lean ====
section
/-!
DEFINITION. The answer queue: the decision of an offer (R35 to R40), answer-next (R41 to R43, R65), DAY and NIGHT (R44,
R45, R68), RESET_ESTIMATE (R69), RESTART (R70), and the console request byte (R63).
-/
namespace Sys2Proof.Machine

/-! ### Offers -/

/-- The group that a byte names: 0 to 7. -/
def groupOf (b : Byte) : Option GroupId := if h : b.toNat < 8 then some ⟨b.toNat, h⟩ else none

/-- Checks 2 to 5 of an offer whose group is known (R35, R36, R37, R38). The policy is the one in use when the offer is decided: one
just taken counts at the very next offer (R37, R122), where Table 10-1 has the detector flags take effect at the group's next
evaluation: DESIGN CHOICE (log 43). -/
def Engine.offerGroupStatus (e : Engine) (ref : BitVec 16) (g : GroupId) : Status :=
  if (e.mapped ref).isSome then .dup
  else if e.mode = .night then .night
  else if (e.group g).overflow && (e.setup.group g).policy == .divertNew then .overflow
  else if e.freeSlot.isNone || decide ((e.setup.group g).cap ≤ e.waitingCount g) then .full
  else .accept

/-- The status of an offer (R35): the first check that fails. -/
def Engine.offerStatus (e : Engine) (ref : BitVec 16) (group cls : Byte) : Status :=
  match groupOf group, offerClass cls with
  | some g, some _ => if ref = 0 then .format else e.offerGroupStatus ref g
  | _, _ => .format

/-- An accepted offer: allocation (R5), the new entry (R29), OFFER_TAKEN and QUEUE_ENTRY (R39). -/
def acceptOffer (e : Engine) (i : SlotId) (ref : BitVec 16) (g : GroupId) (c : CallClass) (tag : BitVec 16) : List Act :=
  [.allocate i ref g c tag e.time (e.rankNow c),
    .enqueue { slot := i, group := g, cls := c, time := e.time, rank := e.rankNow c, sampled := false }, .figures,
    record .offerTaken i (byteOf g.val) c.code, .latch .queueEntry]

/-- What an offer does, accepted (R39) or refused (R40). -/
def offerActs (e : Engine) (ref : BitVec 16) (group cls : Byte) (tag : BitVec 16) : List Act :=
  match e.offerStatus ref group cls, groupOf group, offerClass cls, e.freeSlot with
  | .accept, some g, some c, some i => acceptOffer e i ref g c tag
  | st, _, _, _ => [.journal .offerRefused 0xFF group (statusCode st)]

/-! ### Console requests -/

/-- The first entry whose group's bit is set in the answer mask (R41). -/
def Engine.selected (e : Engine) : Option Entry := e.queue.find? fun x => e.setup.answerMask.getLsbD x.group.val

/-- ANSWER_NEXT that ends at once (R41, R64, R65). -/
def answerNextEnds (o : ReqOutcome) : List Act :=
  .answered none :: completeConsole o

/-- ANSWER_NEXT taken (R41, R43, R65). -/
def takeAnswerNext (e : Engine) : List Act :=
  match e.selected with
  | none => answerNextEnds .queueEmpty
  | some x =>
    if e.pathTaken x.slot then answerNextEnds .pathBusy
    else
      connectWaiting e x.slot ++ issue x.slot (answerOrder e x.slot) .answerNext
        ++ [.figures, .answered (some x.slot), .consoleOutcome .pending]

/-- DAY taken (R44, R68). -/
def takeDay (e : Engine) : List Act :=
  (if e.mode = .day then [] else [.mode .day, .journal .mode 0xFF Mode.day.code 0])
    ++ completeConsole .done

/-- One waiting slot leaves the queue under an engine-initiated DIVERT (R45, R123). -/
def divertWaiting (e : Engine) (x : Entry) (dest : Byte) (p : Purpose) : List Act :=
  leaveQueue e x.slot true ++ [.returnState x.slot (some (e.slot x.slot).state), .slotState x.slot .leaving]
    ++ issue x.slot (.divert dest) p

/-- NIGHT taken (R44, R45, R68): every entry is diverted, from the head to the tail. Of the
figures those that change are posted (R34), where R45 says that all are posted: DESIGN CHOICE (log 31). -/
def takeNight (e : Engine) : List Act :=
  (if e.mode = .night then []
    else
      [.mode .night, .journal .mode 0xFF Mode.night.code 0]
        ++ (e.queue.flatMap fun x => divertWaiting e x e.setup.nightDest .night) ++ [.figures])
    ++ completeConsole .done

/-- RESET_ESTIMATE taken (R69). -/
def takeResetEstimate (e : Engine) (operand : Byte) : List Act :=
  match groupOf operand with
  | none => completeConsole .unknownRequest
  | some g =>
    [.estimate g (e.setup.group g).reference, .journal .estimateReset 0xFF operand 0] ++ completeConsole .done

/-- RESTART taken (R70, R146): the part drives SRST; the link reset that the line makes follows (R144, log 12). -/
def takeRestart : List Act := [.consoleOutcome .pending, .srstDrive .restart]

/-- A console request that has been accepted is taken (R63). -/
def takeConsole (e : Engine) (operand : Byte) : ConsoleReq → List Act
  | .answerNext => takeAnswerNext e
  | .day => takeDay e
  | .night => takeNight e
  | .resetEstimate => takeResetEstimate e operand
  | .restart => takeRestart

/-- The answer queue withholds every console request write while a console request is in flight (R63). -/
def consoleWithholds (e : Engine) : Bool := e.console.inFlight.isSome

/-- The handling of a withheld console request write (R63, R171). -/
def dropConsoleRequest : List Act := [.dropped 0xFF, .latch .requestDropped]

/-- The answer queue's handling of a delivered console request code (R63). -/
def consoleRequest (e : Engine) (code operand : Byte) : List Act :=
  if code = 0 then []
  else
    match consoleReqOf code with
    | none => completeConsole .unknownRequest
    | some c => .consoleRequest (some (c, operand)) :: takeConsole e operand c

end Sys2Proof.Machine
end

