-- ==== Sys2Proof/Machine/Reported.lean ====
section
/-!
DEFINITION. What the owners do with a report at its last byte (R134): CLEARED (R23), DEST_ANSWER (R86, R89, R90),
DEST_CLEARED (R87, R90), STATION (R73) with the camp wake (R92). Each gives the acts and the status that goes back.
-/
namespace Sys2Proof.Machine

/-- The request in flight that a CLEARED report ends: the slot's own, or the ANSWER_NEXT whose order is queued (R23). -/
def completeCleared (e : Engine) (i : SlotId) : List Act :=
  if (e.slot i).request.isSome then completeSlot i .callerGone
  else if (e.orderOf i).any (·.purpose == .answerNext) then completeConsole .callerGone
  else []

/-- The wait sample of an OFFERED slot that the caller ends (R23 step 1, R32). -/
def clearedSample (e : Engine) (i : SlotId) : List Act :=
  match e.entryOf i with
  | some x => if x.yieldsSample then [.sample x.group (e.waitSample x)] else []
  | none => []

/-- A CLEARED report of a mapped call (R23). -/
def clearSlot (e : Engine) (i : SlotId) : List Act :=
  clearedSample e i ++ [.free i] ++ completeCleared e i ++ [.figures]
    ++ [record .callerGone i (e.slot i).state.code 0, .latch .callerGone]

/-- CLEARED (R8, R23). -/
def clearedReport (e : Engine) (ref : BitVec 16) : List Act × Status :=
  match e.mapped ref with
  | none => ([], .noCall)
  | some i => (clearSlot e i, .accept)

/-- DEST_ANSWER (R8, R86, R89, R90). -/
def destAnswerReport (e : Engine) (ref : BitVec 16) : List Act × Status :=
  match e.mapped ref with
  | none => ([], .noCall)
  | some i =>
    match (e.slot i).state with
    | .consulting =>
      if (e.slot i).leg = .ringing then ([.leg i .talking, record .destAnswered i (e.slot i).dest 0], .accept)
      else ([], .state)
    | .ringingOut => ([.removeOrder i, .free i, record .transferred i (e.slot i).dest 0], .accept)
    | _ => ([], .state)

/-- DEST_CLEARED (R8, R87, R90). -/
def destClearedReport (e : Engine) (ref : BitVec 16) : List Act × Status :=
  match e.mapped ref with
  | none => ([], .noCall)
  | some i =>
    match (e.slot i).state with
    | .consulting =>
      ([.removeOrder i, .slotState i .talking, .leg i .absent, .flag i .side false, .flag i .order false]
          ++ (if (e.slot i).request.isSome then completeSlot i .cancelled else [])
          ++ [record .destCleared i (e.slot i).dest 0], .accept)
    | _ => ([], .state)

/-- A camp wake for a station reported IDLE: a blind EXTEND for the head of its camp list, unless the head has an order
outstanding (R92). -/
def campWake (e : Engine) (st : Byte) : List Act :=
  match e.campHead st with
  | none => []
  | some i =>
    if (e.slot i).flags.order then []
    else issue i (.extend st false false) .campWake ++ suspendTimer e i

/-- STATION (R73). -/
def stationReport (e : Engine) (ref : BitVec 16) (st cond : Byte) : List Act × Status :=
  match conditionOf cond with
  | none => ([], .format)
  | some c =>
    if ref = 0 then ([.station st c, .latch .stationChange] ++ (if c = .idle then campWake e st else []), .accept)
    else ([], .format)

/-- The body bytes of an OFFER in the order of sending (11.6). -/
def offerBody (group cls : Byte) (tag : BitVec 16) : List Byte := [group, cls] ++ leBytes tag.toNat 2

/-- A report frame's bytes: kind, call reference low byte first, body (R130). -/
def reportFrame (kind : Byte) (ref : BitVec 16) (body : List Byte) : List Byte := kind :: leBytes ref.toNat 2 ++ body

end Sys2Proof.Machine
end

