-- ==== Sys2Proof/Machine/Statuses.lean ====
section
/-!
DEFINITION. What a delivered status does to the slot its order names (R50): one definition per kind of order, stated in
R52, R54, R56, R59, R61, R66, R77 to R80, R82, R83, R85, R93, R106, R46, R109, R124 and, for a deferred RELEASE, R14.
Each is given the engine as the exchange ends, the order and the status (never PARITY, which is a failed attempt).
-/
namespace Sys2Proof.Machine

/-- Status to the order of an ANSWER request (R52). -/
def answerStatus (e : Engine) (o : Order) (st : Status) : List Act :=
  match st with
  | .accept =>
    [.returnState o.slot none, .keep o.slot none, .slotState o.slot .talking, .flag o.slot .order false]
      ++ completeSlot o.slot .done ++ [record .answered o.slot (byteOf (e.slot o.slot).group.val) 0]
  | .noCall => callGone e o.slot o.purpose
  | _ => [.talkPath none] ++ goBack e o.slot ++ completeSlot o.slot .refused ++ afterReturn e o.slot

/-- Status to the order of an ANSWER_NEXT (R66). -/
def answerNextStatus (e : Engine) (o : Order) (st : Status) : List Act :=
  match st with
  | .accept =>
    [.returnState o.slot none, .keep o.slot none, .slotState o.slot .talking, .flag o.slot .order false]
      ++ completeConsole .done ++ [record .answered o.slot (byteOf (e.slot o.slot).group.val) 0]
  | .noCall => callGone e o.slot o.purpose
  | _ => [.talkPath none] ++ goBack e o.slot ++ afterReturn e o.slot ++ completeConsole .refused

/-- Status to a HOLD order with tone MUSIC (R54). -/
def holdStatus (e : Engine) (o : Order) (st : Status) : List Act :=
  match st with
  | .accept =>
    [.talkPath none] ++ enterHeld e o.slot ++ [.flag o.slot .order false] ++ completeSlot o.slot .done
      ++ [record .held o.slot 0 0]
  | .noCall => callGone e o.slot o.purpose
  | _ => [.flag o.slot .order false] ++ completeSlot o.slot .refused

/-- Status to the RETRIEVE order of a RETRIEVE request (R56). -/
def retrieveStatus (e : Engine) (o : Order) (st : Status) : List Act :=
  match st with
  | .accept =>
    clearTimer o.slot ++ (if (e.slot o.slot).ret = some .ringingOut then [.leg o.slot .absent] else [])
      ++ [.returnState o.slot none, .keep o.slot none, .slotState o.slot .talking, .flag o.slot .order false]
      ++ completeSlot o.slot .done ++ [record .retrieved o.slot 0 0]
  | .noCall => callGone e o.slot o.purpose
  | _ => [.talkPath none] ++ goBack e o.slot ++ completeSlot o.slot .refused ++ afterReturn e o.slot

/-- Status to a RELEASE order: it frees the slot whatever it is (R59). -/
def releaseStatus (_e : Engine) (o : Order) (st : Status) : List Act :=
  [.free o.slot] ++ completeSlot o.slot (if st = .accept || st = .noCall then .done else .refused)
    ++ [record .released o.slot 0 0]

/-- The destination a DIVERT order carried. -/
def OrderKind.destination : OrderKind → Byte
  | .divert d => d
  | _ => 0

/-- Status to the DIVERT order of a DIVERT request (R61). -/
def divertStatus (e : Engine) (o : Order) (st : Status) : List Act :=
  match st with
  | .accept =>
    [.free o.slot] ++ completeSlot o.slot .done
      ++ [record .diverted o.slot o.kind.destination DivertReason.request.code]
  | .noCall => callGone e o.slot o.purpose
  | _ => goBack e o.slot ++ completeSlot o.slot .refused ++ afterReturn e o.slot

/-- The station an EXTEND order carried. -/
def OrderKind.station : OrderKind → Byte
  | .extend s _ _ => s
  | _ => 0

/-- The mode flags an EXTEND order carried (11.6). -/
def OrderKind.modeByte : OrderKind → Byte
  | .extend _ sc ov => modeFlags sc ov
  | _ => 0

/-- The EXTEND order was screened (R78). -/
def OrderKind.isScreened : OrderKind → Bool
  | .extend _ sc _ => sc
  | _ => false

/-- A rejected EXTEND sets the table entry of its station (R74). -/
def rejectionSetsTable (station : Byte) : Status → List Act
  | .busy => [.station station .busy, .latch .stationChange]
  | .dnd => [.station station .dnd, .latch .stationChange]
  | .noStation => [.station station .outOfService, .latch .stationChange]
  | _ => []

/-- The outcome of a rejected EXTEND that goes no further (R79). -/
def extendRejection : Status → ReqOutcome
  | .busy => .destBusy
  | .dnd => .destDnd
  | .noStation => .destInvalid
  | _ => .refused

/-- The slot's request in flight allows camping (R79). -/
def Slot.campAllowed (x : Slot) : Bool := x.request.any fun r => optCamp r.options

/-- Status to an EXTEND order of an EXTEND request (R77, R78, R79). -/
def extendStatus (e : Engine) (o : Order) (st : Status) : List Act :=
  match st with
  | .accept =>
    (if o.kind.isScreened then [.leg o.slot .ringing, .flag o.slot .side true, .slotState o.slot .consulting]
      else [.talkPath none, .leg o.slot .ringing] ++ enterTimed e o.slot .noans .ringingOut)
      ++ [.flag o.slot .order false] ++ completeSlot o.slot .done
      ++ [record .extended o.slot o.kind.station o.kind.modeByte]
  | .noCall => callGone e o.slot o.purpose
  | st =>
    rejectionSetsTable o.kind.station st
      ++ (if st = .busy && (e.slot o.slot).campAllowed then issue o.slot (.hold .camp) (.slotRequest .extend)
          else [.flag o.slot .order false] ++ completeSlot o.slot (extendRejection st))

/-- Status to a HOLD order with tone CAMP (R80). -/
def campHoldStatus (e : Engine) (o : Order) (st : Status) : List Act :=
  match st with
  | .accept =>
    [.talkPath none, .campJoin (e.slot o.slot).dest o.slot] ++ enterTimed e o.slot .camp .camped
      ++ [.flag o.slot .order false] ++ completeSlot o.slot .done ++ [record .camped o.slot (e.slot o.slot).dest 0]
  | .noCall => callGone e o.slot o.purpose
  | _ => [.flag o.slot .order false] ++ completeSlot o.slot .refused

/-- Status to a JOIN order, on the leg state at the status (R85). -/
def joinStatus (e : Engine) (o : Order) (st : Status) : List Act :=
  match st with
  | .accept =>
    if (e.slot o.slot).leg = .talking then
      [.free o.slot] ++ completeSlot o.slot .done ++ [record .transferred o.slot (e.slot o.slot).dest 0]
    else
      [.talkPath none, .flag o.slot .side false] ++ enterTimed e o.slot .noans .ringingOut
        ++ [.flag o.slot .order false] ++ completeSlot o.slot .done
  | .noCall => callGone e o.slot o.purpose
  | _ => [.flag o.slot .order false] ++ completeSlot o.slot .refused

/-- Status to a DROP_DEST order (R83). -/
def dropDestStatus (e : Engine) (o : Order) (st : Status) : List Act :=
  match st with
  | .accept =>
    [.slotState o.slot .talking, .leg o.slot .absent, .flag o.slot .side false, .flag o.slot .order false]
      ++ completeSlot o.slot .done
  | .noCall => callGone e o.slot o.purpose
  | _ => [.flag o.slot .order false] ++ completeSlot o.slot .refused

/-- Status to a SWAP order (R82). -/
def swapStatus (e : Engine) (o : Order) (st : Status) : List Act :=
  match st with
  | .accept =>
    [.flag o.slot .side (!(e.slot o.slot).flags.side), .flag o.slot .order false] ++ completeSlot o.slot .done
  | .noCall => callGone e o.slot o.purpose
  | _ => [.flag o.slot .order false] ++ completeSlot o.slot .refused

/-- Status to a camp wake EXTEND (R93). -/
def campWakeStatus (e : Engine) (o : Order) (st : Status) : List Act :=
  match st with
  | .accept =>
    [.campLeave o.slot, .leg o.slot .ringing] ++ enterTimed e o.slot .noans .ringingOut ++ [.flag o.slot .order false]
      ++ [record .extended o.slot o.kind.station o.kind.modeByte]
  | .noCall => callGone e o.slot o.purpose
  | .busy => rejectionSetsTable o.kind.station .busy ++ [.flag o.slot .order false] ++ resumeTimer e o.slot
  | st =>
    rejectionSetsTable o.kind.station st
      ++ (if e.mode = .day then
            [.campLeave o.slot, .timer o.slot Timer.off, .flag o.slot .order false] ++ recallSlot e o.slot .camp
          else nightDivert e o.slot)

/-- Status to a RECALL_LEG order, on the console mode at the status (R106). -/
def recallLegStatus (e : Engine) (o : Order) (st : Status) : List Act :=
  match st with
  | .accept =>
    if e.mode = .day then
      [.timer o.slot Timer.off, .leg o.slot .absent, .flag o.slot .order false] ++ recallSlot e o.slot .noans
    else
      [.leg o.slot .absent, .returnState o.slot (some .held),
        .timer o.slot { kind := .hold, running := false, deadline := e.time }, .deadline o.slot e.time,
        .flag o.slot .timer false]
        ++ issue o.slot (.divert e.setup.nightDest) .nightExpiry ++ [.slotState o.slot .leaving]
  | .noCall => callGone e o.slot o.purpose
  | .state => [.free o.slot, record .transferred o.slot (e.slot o.slot).dest 0]
  | _ => [.flag o.slot .order false] ++ resumeTimer e o.slot

/-- Status to an engine-initiated DIVERT (R46, R109, R124): accepted it frees the slot with its reason, refused it sends the
slot back to its return state. -/
def engineDivertStatus (e : Engine) (o : Order) (st : Status) (why : DivertReason) : List Act :=
  match st with
  | .accept => [.free o.slot, record .diverted o.slot o.kind.destination why.code]
  | .noCall => callGone e o.slot o.purpose
  | _ => goBack e o.slot ++ afterReturn e o.slot

/-- A status while a RELEASE is deferred on the exchange (R14). The slot request, or the ANSWER_NEXT, that the order served completes
CANCELLED before DEFERRED is cleared and posted, in the order of R14, where R19 and R64 have the record fields that the event changes
posted first: DESIGN CHOICE (log 40). At a NO_CALL the freeing comes first, as R14 has it. -/
def deferredStatus (_e : Engine) (o : Order) (st : Status) : List Act :=
  match st with
  | .noCall =>
    [.free o.slot] ++ cancelServed o.slot o.purpose ++ completeSlot o.slot .done ++ [record .released o.slot 0 0]
  | _ =>
    cancelServed o.slot o.purpose ++ [.flag o.slot .deferred false] ++ issue o.slot .release (.slotRequest .release)

end Sys2Proof.Machine
end

