-- ==== Sys2Proof/Machine/TimerUnit.lean ====
section
/-!
DEFINITION. Slot timer expiries (R102, R104, R105, R108).
-/
namespace Sys2Proof.Machine

/-- An expiry in DAY, by the kind of the timer (R104, R105). -/
def expireDay (e : Engine) (i : SlotId) : List Act :=
  match (e.slot i).timer.kind with
  | .hold => [.timer i Timer.off] ++ recallSlot e i .hold
  | .camp => [.timer i Timer.off, .campLeave i] ++ recallSlot e i .camp
  | .noans => suspendTimer e i ++ issue i .recallLeg .recallLeg
  | .none => []

/-- The slot engine applies an expiry on the console mode as it stands; a timer that is SUSPENDED or cleared does not expire
(R102, R104, R105, R108). -/
def expireSlot (e : Engine) (i : SlotId) : List Act :=
  if (e.slot i).timer.running then
    match e.mode with
    | .day => expireDay e i
    | .night => nightDivert e i
  else []

/-- The expiry at the head of those handed over is taken up (R102). -/
def expireNext (e : Engine) : List Act :=
  match e.due with
  | [] => []
  | i :: _ => .dueTaken :: expireSlot e i

end Sys2Proof.Machine
end

