-- ==== Sys2Proof/Machine/ServiceMonitor.lean ====
section
/-!
DEFINITION. The service monitor's evaluation of a group at a tick: the oldest-wait measure (R115), the condition (R116), the
duration counter (R118, R119, R120), the change of state (R121) and shedding (R123).
-/
namespace Sys2Proof.Machine

/-- The older of two entries: smaller entry time, then lower slot number (R115). -/
def olderEntry (x y : Entry) : Entry :=
  if x.time < y.time then x
  else if y.time < x.time then y
  else if x.slot ≤ y.slot then x else y

/-- The oldest entry of a list. -/
def oldestEntry : List Entry → Option Entry
  | [] => none
  | x :: xs =>
    match oldestEntry xs with
    | none => some x
    | some y => some (olderEntry x y)

/-- The group's oldest offered entry (R115): RECALLING entries take no part. -/
def Engine.oldestOffered (e : Engine) (g : GroupId) : Option Entry :=
  oldestEntry (e.queue.filter fun x => x.group == g && (e.slot x.slot).state == .offered)

/-- The console time that the tick in evaluation brought (R115). -/
def Engine.tickTime (e : Engine) : Nat :=
  match e.ticks with
  | [] => e.time
  | t :: _ => t

/-- The oldest-wait measure O_g (R115). -/
def Engine.oldestWait (e : Engine) (g : GroupId) : Nat :=
  match e.oldestOffered g with
  | none => 0
  | some x => min (e.tickTime - x.time) Config.sampleLimit

/-- The enabled terms of the condition, each with its truth (R116). -/
def Engine.terms (e : Engine) (g : GroupId) : List Bool :=
  let s := e.setup.group g
  (if s.countThreshold = 0 then [] else [decide (s.countThreshold ≤ e.waitingCount g)])
    ++ (if s.estimateThreshold = 0 then [] else [decide (s.estimateThreshold ≤ (e.group g).estimate)])
    ++ (if s.oldestThreshold = 0 then [] else [decide (s.oldestThreshold ≤ e.oldestWait g)])

/-- The overflow condition (R116). -/
def Engine.condition? (e : Engine) (g : GroupId) : Bool :=
  if (e.setup.group g).all then !(e.terms g).isEmpty && (e.terms g).all id else (e.terms g).any id

/-- A step of the duration counter in STRICT mode: the new count and state (R118). -/
def strictStep (cond on : Bool) (c d : Nat) : Nat × Bool :=
  if cond = on then (0, on)
  else if d ≤ c + 1 then (0, cond)
  else (c + 1, on)

/-- A step of the duration counter in DECAY mode (R119). -/
def decayStep (cond on : Bool) (c d : Nat) : Nat × Bool :=
  let n := if cond then min (c + 1) d else c - 1
  (n, if on then n != 0 else n == d)

/-- A step of the duration counter; with D_g 0 the state follows the condition (R120). -/
def durationStep (decay cond on : Bool) (c d : Nat) : Nat × Bool :=
  if d = 0 then (0, cond) else if decay then decayStep cond on c d else strictStep cond on c d

/-- The count and state of a group after its evaluation (R117 steps 1 to 3). -/
def Engine.evaluated (e : Engine) (g : GroupId) : Nat × Bool :=
  durationStep (e.setup.group g).decay (e.condition? g) (e.group g).overflow (e.group g).count (e.setup.group g).duration

/-- The shedding of the group's oldest offered entry (R123). The figures are posted last, once the slot record fields of the event have
been (R34), where R123 names them before LEAVING and the order: DESIGN CHOICE (log 31). -/
def shed (e : Engine) (g : GroupId) : List Act :=
  match e.oldestOffered g with
  | none => []
  | some x => divertWaiting e x (e.setup.group g).dest .shed ++ [.figures]

/-- A group's evaluation at a tick (R117). The count is posted only if it changed (R117 step 4, R111), also at a change of the
overflow state that leaves the count as it was, of which R121 says that the counter is posted with the state, and before the state,
which R121 names first: DESIGN CHOICE (log 28). With the last group the tick has been evaluated. -/
def evaluateGroup (e : Engine) (g : GroupId) : List Act :=
  let r := e.evaluated g
  (if r.1 = (e.group g).count then [] else [.count g r.1])
    ++ (if r.2 = (e.group g).overflow then []
        else [.overflow g r.2, .journal .overflow 0xFF (byteOf g.val) (boolByte r.2), .latch .overflowChange])
    ++ (if r.2 && (e.setup.group g).policy == .shedOldest then shed e g else [])
    ++ (if g.val = 7 then [.tickTaken] else [])

end Sys2Proof.Machine
end

