-- ==== Sys2Proof/Machine/SetupUnit.lean ====
section
/-!
DEFINITION. Taking a setup field while running (R172, R173), with what its owner does at the taking (R120, Table 10-1).
-/
namespace Sys2Proof.Machine

/-- The block that a setup field's value belongs to (Table 10-1). -/
def SetupField.owner : SetupField → Block
  | .validity => .setupUnit
  | .prescaler | .tickDivider | .linkDivider | .tHold | .tNoans | .tCamp => .timerUnit
  | .tLink => .linkController
  | .pinMode | .attnEnable | .watermark => .journal
  | .aInt | .aPri | .aRec | .answerMask | .nightDest | .cap _ => .answerQueue
  | .countThreshold _ | .estimateThreshold _ | .oldestThreshold _ | .duration _ | .detector _ | .overflowDest _ | .shift _
  | .reference _ => .serviceMonitor

/-- What the owner does at the taking beyond using the value: a duration below the count clamps the count (R120). -/
def ownerTakes (e : Engine) : SetupField → Nat → List Act
  | .duration g, v => if v < (e.group g).count then [.count g v] else []
  | _, _ => []

/-- A field is taken (R172) and clamped if it is out of range (R173): the clamped bytes are posted back first, so that a value
whose post-back waits for room is applied when the wait ends. `e` holds the copies with the byte just written. The value in use changes
at the taking for every field, so the policy of the detector flags counts at the next offer (log 43, DESIGN CHOICE). -/
def takeField (e : Engine) (f : SetupField) : List Act :=
  let v := e.fieldValue f
  let c := f.clamp v
  (if c = v then [] else [.setupPost f c]) ++ ownerTakes e f c ++ [.setupTake f c]
    ++ (if c = v then [] else [.latch .setupClamped])

/-- A write to a byte of the setup area (R172). -/
def setupWrite (e : Engine) (off : Nat) (v : Byte) : List Act :=
  .setupCopy off v ::
    (match fieldOfTop off with
      | some f => takeField (e.setCopy off v) f
      | none => [])

end Sys2Proof.Machine
end

