-- ==== Sys2Proof/Machine/LinkControl.lean ====
section
/-!
DEFINITION. What the events at the link controller are made of: the claim (R131, R132), the reports at their last byte (R134), the
status of a report (R135), the frame and the status of an order (R137, R138, R139), timeouts (R128), SRST (R144, R146, R147), and
what a change of SACK or SSTB completes (R128). One definition per row, as the acts that the event on an engine consists of.
-/
namespace Sys2Proof.Machine

/-! ### The claim -/

/-- SCS rises (R131): an IDLE link becomes a receiver. -/
def scsAssertedActs (_e : Engine) : List Act := [.scs true, .idleTest]

/-- SCS drops: in RECEIVING and ANSWERING the exchange ends and the link returns to IDLE (R135, R136); an IDLE link tests for
a claim (R131). -/
def scsDroppedActs (e : Engine) : List Act :=
  .scs false ::
    (if e.link.state = .receiving || e.link.state = .answering then [.rxClear, .txEnd] ++ toIdle else [.idleTest])

/-- The claim is decided at the first link unit after SCC rose (R131, R132, R137). -/
def windowEndActs (e : Engine) : List Act :=
  if e.link.state = .arbitrating then
    .linkUnit ::
      (if e.link.scs then [.scc false, .beginReceiving]
       else if e.orders.isEmpty then .scc false :: toIdle
       else [.beginSending])
  else []

/-- The frame's last byte is complete (R137). -/
def orderFrameSentActs (e : Engine) : List Act := if e.link.state = .sending then [.awaitStatus] else []

/-- A wait on the other side reaches its bound (R128): a failed attempt of an order (R140), an abandoned frame (R136), or the
end of a report's status byte (R135). Where the handshake of a report's last byte times out the part gives it up and sends no
status, as at a timeout of the status byte: DESIGN CHOICE (log 29). -/
def linkTimeoutActs (e : Engine) : List Act :=
  if e.link.waits then
    match e.link.state with
    | .sending | .awaitStatus => .linkUnit :: failedAttempt e
    | .receiving => [.linkUnit, .abandon]
    | .answering => [.linkUnit, .txEnd]
    | _ => []
  else []

/-- A status byte that is a failed attempt: a parity error, no status code, or PARITY (R138). -/
def failingStatus (b : LinkByte) : Bool := badParity b || statusOf b.data == none || statusOf b.data == some .parity

/-- A status byte that fails the attempt completes its handshake (R138, R140). -/
def failedStatusActs (b : LinkByte) (e : Engine) : List Act :=
  if e.link.state = .awaitStatus && failingStatus b then failedAttempt e else []

/-! ### SRST -/

/-- The switch begins to drive SRST: the line coming to read asserted is a link reset with cause SWITCH (R144). -/
def srstAssertedActs (e : Engine) : List Act :=
  .srstSwitch true :: (if e.link.srst then [] else linkResetActs e .switch)

/-- The part's own assertion runs out: 20 link units (R146). -/
def srstDriveEndActs (e : Engine) : List Act := if e.link.srstDrive then [.linkUnit, .srstRelease] else []

/-- The switch stops driving SRST; a link in RESETTING leaves it if the part does not drive the line either (R147). -/
def srstDeassertedActs (e : Engine) : List Act :=
  .srstSwitch false ::
    (if e.link.state = .resetting && !e.link.srstDrive then leaveResetting e else [])

/-- What the end of start-up does at the blocks (R148, R176). -/
def startupEndActs (e : Engine) : List Act :=
  (if e.clampNoted then [.latch .setupClamped, .clampLatched] else [])
    ++ [.startDividers]
    ++ (if e.link.srst then linkResetActs e .switch else toIdle)

/-! ### Reports -/

/-- A frame at its last byte (R134): `owner` gives what the block it is handed to does, and the status. A frame arises only in
RECEIVING, before a timeout has abandoned it (R133, R136). -/
def reportActs (frame : List LinkByte) (note : Bool) (owner : Engine → List Act × Status) (e : Engine) : List Act :=
  if e.link.receives then .receive frame note :: (owner e).1 ++ [.answering (owner e).2] else []

/-- The bytes of a frame without a parity error. -/
def soundFrame (kind : Byte) (ref : BitVec 16) (body : List Byte) : List LinkByte := (reportFrame kind ref body).map withParity

/-- OFFER (R35 to R40). -/
def offerReport (ref : BitVec 16) (group cls : Byte) (tag : BitVec 16) (e : Engine) : List Act :=
  reportActs (soundFrame offerKind ref (offerBody group cls tag)) false
    (fun e => (offerActs e ref group cls tag, e.offerStatus ref group cls)) e

/-- CLEARED (R8, R23). -/
def clearedFrame (ref : BitVec 16) (e : Engine) : List Act :=
  reportActs (soundFrame clearedKind ref []) false (fun e => clearedReport e ref) e

/-- DEST_ANSWER (R8, R86, R89, R90). -/
def destAnswerFrame (ref : BitVec 16) (e : Engine) : List Act :=
  reportActs (soundFrame destAnswerKind ref []) false (fun e => destAnswerReport e ref) e

/-- DEST_CLEARED (R8, R87, R90). -/
def destClearedFrame (ref : BitVec 16) (e : Engine) : List Act :=
  reportActs (soundFrame destClearedKind ref []) false (fun e => destClearedReport e ref) e

/-- STATION (R73, R92). -/
def stationFrame (ref : BitVec 16) (st cond : Byte) (e : Engine) : List Act :=
  reportActs (soundFrame stationKind ref [st, cond]) false (fun e => stationReport e ref st cond) e

/-- UNKNOWN_KIND (R133, R134): a kind byte that is no report's is answered FORMAT and handed to nobody. -/
def unknownKindFrame (kind : Byte) (ref : BitVec 16) (e : Engine) : List Act :=
  if isReportKind kind then [] else reportActs (soundFrame kind ref []) false (fun _ => ([], .format)) e

/-- A whole frame by its kind byte's length, with a parity error in some byte (R133, R134). -/
def isDamagedFrame (frame : List LinkByte) : Bool :=
  match frame with
  | [] => false
  | k :: _ => frame.length == frameLength k.data && frame.any badParity

/-- PARITY_ERROR_FRAME (R134): answered PARITY and handed to nobody. -/
def damagedFrame (frame : List LinkByte) (e : Engine) : List Act :=
  if isDamagedFrame frame then reportActs frame true (fun _ => ([], .parity)) e else []

/-- REPORT_STATUS_SENT (R135): the status byte is complete; the part waits in ANSWERING for SCS to drop. -/
def reportStatusSentActs (e : Engine) : List Act := if e.link.state = .answering then [.txEnd] else []

/-- The row that a frame in the receive buffer comes in on (R133, R134). -/
def reportRow (frame : List LinkByte) : Instr :=
  if frame.any badParity then .parityErrorFrame frame
  else
    match frame.map (·.data) with
    | [k, lo, hi, group, cls, t0, t1] => if k = offerKind then .offer (hi ++ lo) group cls (t1 ++ t0) else .unknownKind k (hi ++ lo)
    | [k, lo, hi, st, cond] => if k = stationKind then .station (hi ++ lo) st cond else .unknownKind k (hi ++ lo)
    | k :: lo :: hi :: _ =>
      if k = clearedKind then .cleared (hi ++ lo)
      else if k = destAnswerKind then .destAnswer (hi ++ lo)
      else if k = destClearedKind then .destCleared (hi ++ lo)
      else .unknownKind k (hi ++ lo)
    | _ => .parityErrorFrame frame

/-! ### Statuses of orders -/

/-- The order is the one a row is about: its purpose, and whether it is the HOLD with tone CAMP. -/
def rowMatches (o : Order) (p : Purpose) (camp : Bool) : Bool := o.purpose == p && (o.kind == .hold .camp) == camp

/-- The acts of a status for the order in exchange (R139): the exchange ends, the slot engine applies the status, and the link
returns to IDLE. The status PARITY is a failed attempt whatever the order (R138). -/
def deliveredActs (body : Engine → Order → Status → List Act) (e : Engine) (o : Order) (st : Status) : List Act :=
  if st = .parity then failedAttempt e else .endExchange :: body e o st ++ toIdle

/-- The head order when it is in exchange and its status is awaited (R138). -/
def Engine.awaited (e : Engine) : Option Order :=
  if e.link.state = .awaitStatus && e.link.inExchange then e.orders.head? else none

/-- A status row whose head order `matching` accepts. A row for an order of another purpose changes nothing (log 25). -/
def statusActs (matching : Engine → Order → Bool) (body : Engine → Order → Status → List Act) (st : Status) (e : Engine) :
    List Act :=
  match e.awaited with
  | none => []
  | some o => if matching e o then deliveredActs body e o st else []

/-- A status row of one purpose: a RELEASE that has been deferred before the status is applied takes it (R14). -/
def orderStatus (p : Purpose) (camp : Bool) (body : Engine → Order → Status → List Act) (st : Status) (e : Engine) : List Act :=
  statusActs (fun _ o => rowMatches o p camp)
    (fun e o st => if (e.slot o.slot).flags.deferred then deferredStatus e o st else body e o st) st e

/-- The row that a status for an order comes in on (R139): DEFERRED_RELEASE_STATUS where a RELEASE is deferred on the exchange,
otherwise the row of the order's purpose. -/
def Order.row (o : Order) (deferred : Bool) (st : Status) : Instr :=
  if deferred then .deferredReleaseStatus st
  else
    match o.purpose with
    | .slotRequest .answer => .answerOrderStatus st
    | .slotRequest .hold => .holdOrderStatus st
    | .slotRequest .retrieve => .retrieveOrderStatus st
    | .slotRequest .extend => if o.kind = .hold .camp then .campHoldStatus st else .extendOrderStatus st
    | .slotRequest .complete => .joinOrderStatus st
    | .slotRequest .cancel => .dropDestOrderStatus st
    | .slotRequest .swap => .swapOrderStatus st
    | .slotRequest .release => .releaseOrderStatus st
    | .slotRequest .divert => .divertOrderStatus st
    | .answerNext => .answerNextOrderStatus st
    | .campWake => .campWakeStatus st
    | .recallLeg => .recallLegStatus st
    | .night => .nightDivertStatus st
    | .nightExpiry => .nightExpiryDivertStatus st
    | .shed => .shedDivertStatus st

/-- The row that a status byte comes in on when its handshake is complete (R138). -/
def Engine.statusRow (e : Engine) (b : LinkByte) : Instr :=
  match e.awaited, statusOf b.data with
  | some o, some st =>
    if failingStatus b then .statusByteFailedAttempt b else o.row (e.slot o.slot).flags.deferred st
  | _, _ => .statusByteFailedAttempt b

/-! ### The rows -/

/-- The acts of a link event by its row. A row that is no event of the link controller has none here. -/
def rowActs (c : Instr) (e : Engine) : List Act :=
  match c with
  | .offer ref group cls tag => offerReport ref group cls tag e
  | .cleared ref => clearedFrame ref e
  | .destAnswer ref => destAnswerFrame ref e
  | .destCleared ref => destClearedFrame ref e
  | .station ref st cond => stationFrame ref st cond e
  | .unknownKind kind ref => unknownKindFrame kind ref e
  | .parityErrorFrame frame => damagedFrame frame e
  | .reportStatusSent => reportStatusSentActs e
  | .answerOrderStatus st => orderStatus (.slotRequest .answer) false answerStatus st e
  | .answerNextOrderStatus st => orderStatus .answerNext false answerNextStatus st e
  | .holdOrderStatus st => orderStatus (.slotRequest .hold) false holdStatus st e
  | .retrieveOrderStatus st => orderStatus (.slotRequest .retrieve) false retrieveStatus st e
  | .releaseOrderStatus st => orderStatus (.slotRequest .release) false releaseStatus st e
  | .divertOrderStatus st => orderStatus (.slotRequest .divert) false divertStatus st e
  | .extendOrderStatus st => orderStatus (.slotRequest .extend) false extendStatus st e
  | .campHoldStatus st => orderStatus (.slotRequest .extend) true campHoldStatus st e
  | .joinOrderStatus st => orderStatus (.slotRequest .complete) false joinStatus st e
  | .dropDestOrderStatus st => orderStatus (.slotRequest .cancel) false dropDestStatus st e
  | .swapOrderStatus st => orderStatus (.slotRequest .swap) false swapStatus st e
  | .campWakeStatus st => orderStatus .campWake false campWakeStatus st e
  | .recallLegStatus st => orderStatus .recallLeg false recallLegStatus st e
  | .nightDivertStatus st => orderStatus .night false (fun e o st => engineDivertStatus e o st .night) st e
  | .nightExpiryDivertStatus st => orderStatus .nightExpiry false (fun e o st => engineDivertStatus e o st .night) st e
  | .shedDivertStatus st => orderStatus .shed false (fun e o st => engineDivertStatus e o st .shed) st e
  | .deferredReleaseStatus st => statusActs (fun e o => (e.slot o.slot).flags.deferred) deferredStatus st e
  | .scsAsserted => scsAssertedActs e
  | .scsDropped => scsDroppedActs e
  | .arbitrationWindowEnd => windowEndActs e
  | .orderFrameSent => orderFrameSentActs e
  | .linkWaitTimeout => linkTimeoutActs e
  | .statusByteFailedAttempt b => failedStatusActs b e
  | .srstAsserted .switch => srstAssertedActs e
  | .srstDriveEnd => srstDriveEndActs e
  | .srstDeasserted .switch => srstDeassertedActs e
  | _ => []

/-- The lines as they read once the switch has changed one by a row: SCS or SRST (R131, R144). No other row changes a line. -/
def rowLines (c : Instr) (l : Link) : Link :=
  match c with
  | .scsAsserted => { l with scs := true }
  | .scsDropped => { l with scs := false }
  | .srstAsserted .switch => { l with srstSwitch := true }
  | .srstDeasserted .switch => { l with srstSwitch := false }
  | _ => l

/-- The row that a completed byte brings with it (R133, R135, R137, R138), on the engine with the handshake moved on. -/
def completedRow (e : Engine) : Completed → Option Instr
  | .nothing => none
  | .sent => some (if e.link.state = .sending then .orderFrameSent else .reportStatusSent)
  | .frameTaken => some (reportRow e.link.rx)
  | .frameAcknowledged => none
  | .status b => some (e.statusRow b)

/-- What a completed byte brings with it: its row's acts, or with a report's last byte the status (R134). -/
def completedActs (e : Engine) (c : Completed) : List Act :=
  match completedRow e c, c, e.link.answer with
  | some r, _, _ => rowActs r e
  | none, .frameAcknowledged, some st => [.answering st]
  | none, _, _ => []

/-- The engine and the completed byte after a change of SACK or SSTB (R128). -/
def lineDone (m : LineMove) (e : Engine) : Engine × Completed := (e.onLink fun l => (l.handles m).1, (e.link.handles m).2)

/-- A change of SACK or SSTB at the link controller (R128). -/
def lineActs (m : LineMove) (e : Engine) : List Act :=
  .line m :: completedActs (lineDone m e).1 (lineDone m e).2

/-! ### Whose state a row is decided on (R157, log 6) -/

/-- The part goes on only with what the slot engine holds of the exchanged order: a RELEASE deferred on it (R14). -/
def failureReads (e : Engine) : List Block :=
  if e.link.state = .sending || e.link.state = .awaitStatus then [.slotEngine] else []

/-- The blocks that an OFFER's checks read, up to the check that decides (R35 to R38). The entry time is console time as the engine
holds it: an OFFER does not wait for a tick whose console time post still waits for room, and takes the old value (R29, R97, R157; log
37, DESIGN CHOICE). -/
def offerReads (st : Status) : List Block :=
  match st with
  | .format => [.answerQueue]
  | .dup | .night => [.answerQueue, .slotEngine]
  | _ => [.answerQueue, .slotEngine, .serviceMonitor]

/-- The blocks that a STATION report's owner reads: the slot engine for the head of a camp list (R73, R92). -/
def stationReads (e : Engine) (ref : BitVec 16) (st cond : Byte) : List Block :=
  .transferUnit :: (if ref = 0 ∧ conditionOf cond = some .idle ∧ (e.campHead st).isSome then [.slotEngine] else [])

/-- A status that ends a camp wake with the slot off its list is applied on the console mode (R93). -/
def campWakeReads : Status → List Block
  | .accept | .noCall | .busy | .parity => []
  | _ => [.answerQueue]

/-- Blocks besides the link controller whose state a row is decided on: the owner that a report is handed to (R134), the slot engine
that applies a status (R139), and what these read. -/
def rowReads (c : Instr) (e : Engine) : List Block :=
  match c with
  | .offer ref group cls _ => offerReads (e.offerStatus ref group cls)
  | .cleared _ => [.slotEngine]
  | .destAnswer _ | .destCleared _ => [.transferUnit, .slotEngine]
  | .station ref st cond => stationReads e ref st cond
  | .campWakeStatus st => .slotEngine :: campWakeReads st
  | .recallLegStatus .accept => [.slotEngine, .answerQueue]
  | .answerOrderStatus _ | .answerNextOrderStatus _ | .holdOrderStatus _ | .retrieveOrderStatus _ | .releaseOrderStatus _
  | .divertOrderStatus _ | .extendOrderStatus _ | .campHoldStatus _ | .joinOrderStatus _ | .dropDestOrderStatus _
  | .swapOrderStatus _ | .recallLegStatus _ | .nightDivertStatus _ | .nightExpiryDivertStatus _ | .shedDivertStatus _
  | .deferredReleaseStatus _ => [.slotEngine]
  | .linkWaitTimeout | .statusByteFailedAttempt _ => failureReads e
  | .srstAsserted .switch => [.slotEngine, .answerQueue]
  | .srstDeasserted .switch => [.answerQueue]
  | _ => []

/-- The blocks that a change of SACK or SSTB is decided on, by what it completes. -/
def lineReads (m : LineMove) (e : Engine) : List Block :=
  match completedRow (lineDone m e).1 (lineDone m e).2 with
  | none => []
  | some r => rowReads r (lineDone m e).1

end Sys2Proof.Machine
end

