-- ==== Sys2Proof/Machine/MemoryPath.lean ====
section
/-!
DEFINITION. A processor access at the memory path (spec/08_the_memory_path.md): what it does to memory, to the posting queue
and to the snapshot buffer, and what it hands to the byte's owner.
-/
namespace Sys2Proof.Machine

/-- The region offset the memory path decodes: none while RESET is asserted (R149). -/
def State.decoded (s : State) (addr : BitVec 16) : Option Nat :=
  match s.phase with
  | .inReset => none
  | _ => s.regionOff addr

/-- The 256 setup bytes that the load reads (R174), as one read: no access meets one of its read cycles (log 36, DESIGN CHOICE). -/
def State.setupBytes (s : State) : List Byte := (List.range 256).map fun k => memRead s.mem (s.address k)

/-! ### Writes -/

/-- The firmware's operand bytes of a slot as a processor read would return them (R4, R155). -/
def State.slotOperands (s : State) (i : SlotId) : SlotOperands :=
  { expected := s.readOff (slotOff i 25), station := s.readOff (slotOff i 26), options := s.readOff (slotOff i 27)
    divert := s.readOff (slotOff i 28) }

/-- A write of a slot's request code byte: withheld or delivered (R12, R152). -/
def slotTrigger (s : State) (off : Nat) (i : SlotId) (v : Byte) : State × List Act :=
  if slotWithholds s.eng i v then (s, dropSlotRequest i)
  else (s.writeOff off v, slotRequest s.eng i v (s.slotOperands i))

/-- A write of the console request byte: withheld or delivered (R63, R152). -/
def consoleTrigger (s : State) (off : Nat) (v : Byte) : State × List Act :=
  if consoleWithholds s.eng then (s, dropConsoleRequest)
  else (s.writeOff off v, consoleRequest s.eng v (s.readOff consoleOperandOff))

/-- The slot whose record an offset lies in. -/
def slotAt (off : Nat) : SlotId := ⟨(off - 0x800) / 32 % 64, Nat.mod_lt _ (by decide)⟩

/-- A write of a trigger byte, by its owner (R152). -/
def triggerWrite (s : State) (off : Nat) (v : Byte) : State × List Act :=
  if off < 0x100 then (s.writeOff off v, setupWrite s.eng off v)
  else if off = tailOff + 1 then (s.writeOff off v, [.tailWrite v])
  else if off = consoleReqOff then consoleTrigger s off v
  else slotTrigger s off (slotAt off) v

/-- What the owner of a P byte keeps of a write (R152): the setup unit its copies, journal and attention the tail's low byte. -/
def ownerCopy (e : Engine) (off : Nat) (v : Byte) : List Act :=
  if off < 0x100 then setupWrite e off v else if off = tailOff then [.tailLow v] else []

/-- A processor write to a region offset, by its class (R150, R151, R152). -/
def regionWrite (s : State) (off : Nat) (v : Byte) : State × List Act :=
  match classOf off with
  | .plain => (s.writeAddr (s.address off) v, [])
  | .engine => (s, [])
  | .readToClear => (s, [])
  | .processor => (s.writeOff off v, ownerCopy s.eng off v)
  | .trigger => triggerWrite s off v

/-! ### Reads -/

/-- A read that memory answers, at a free memory side: an active snapshot ends, and an inserted cycle that is ready goes next
(R155, R158, R161). -/
def memoryAnswers (s : State) (addr : Nat) : State :=
  State.beginCycle { s with readData := memRead s.mem addr, snapshot := none }

/-- A read answered by its class with no snapshot for it: a pending post first, else memory (R155, R161). -/
def normalRead (s : State) (off : Nat) : State :=
  match s.pendingAt off with
  | some v => { s with readData := v, snapshot := none }
  | none => memoryAnswers s (s.address off)

/-- The copy of a coherent group that a snapshot takes (R160). -/
def snapshotOf (s : State) (base width : Nat) : Snapshot :=
  { base := base, bytes := (List.range width).map fun k => s.readOff (base + k) }

/-- A read of a group's lowest byte (R160). -/
def startSnapshot (s : State) (base width : Nat) : State :=
  { s with snapshot := some (snapshotOf s base width), readData := s.readOff base }

/-- A read of a byte of a group that is not its lowest (R161). -/
def higherRead (s : State) (off base width : Nat) : State :=
  match s.snapshot with
  | none => normalRead s off
  | some sn =>
    if sn.base = base then
      { s with readData := sn.bytes.getD (off - base) 0
               snapshot := if off + 1 = base + width then none else some sn }
    else normalRead s off

/-- A processor read of a region offset, without what it hands on (R150, R155, R160, R161). A read that has waited is decided when
it is made, so a byte posted anew meanwhile is returned from its entry (log 34, DESIGN CHOICE). -/
def regionRead (s : State) (off : Nat) : State :=
  if classOf off = .plain then memoryAnswers s (s.address off)
  else
    match coherentAt off with
    | none => normalRead s off
    | some (base, width) => if off = base then startSnapshot s base width else higherRead s off base width

/-- The cause word that a snapshot of it holds (R162). -/
def snapshotWord (s : State) : BitVec 16 :=
  BitVec.ofNat 16 (leValue [s.readOff causeOff, s.readOff (causeOff + 1)])

/-- What a read hands to journal and attention: at the cause word's low byte the causes in the buffer (R162). -/
def readActs (s : State) (off : Nat) : List Act := if off = causeOff then [.clearCauses (snapshotWord s)] else []

/-! ### An access -/

/-- A processor access made now: what it does at once, and what its owner then does (R149, R150). -/
def beginAccess (s : State) : Access → State × List Act
  | .write addr v =>
    match s.decoded addr with
    | none => (s.writeAddr addr.toNat v, [])
    | some off => regionWrite s off v
  | .read addr =>
    match s.decoded addr with
    | none => (memoryAnswers s addr.toNat, [])
    | some off => (regionRead s off, readActs s off)

/-- A write makes a memory cycle: every write but one that is withheld (R151, R152, R158). -/
def writeNeedsSide (s : State) (off : Nat) (v : Byte) : Bool :=
  match classOf off with
  | .engine | .readToClear => false
  | .plain | .processor => true
  | .trigger =>
    if off < 0x100 || off = tailOff + 1 then true
    else if off = consoleReqOff then !consoleWithholds s.eng
    else !slotWithholds s.eng (slotAt off) v

/-- A read makes a memory cycle: every read but one answered from a pending post or from the snapshot buffer (R155, R158, R160,
R161). -/
def readNeedsSide (s : State) (off : Nat) : Bool :=
  if classOf off = .plain then true
  else
    match coherentAt off with
    | none => (s.pendingAt off).isNone
    | some (base, _) =>
      if off = base || s.snapshot.any (·.base == base) then false else (s.pendingAt off).isNone

/-- The access makes a memory cycle, and one is in progress: it waits (R158). -/
def State.sideTaken (s : State) (a : Access) : Bool :=
  s.side != .free &&
    match a with
    | .write addr v =>
      match s.decoded addr with
      | none => true
      | some off => writeNeedsSide s off v
    | .read addr =>
      match s.decoded addr with
      | none => true
      | some off => readNeedsSide s off

/-- A field of `width` bytes is half posted: an event waits for room with its highest byte and not with its lowest, the bytes of a
field being posted lowest first. -/
def State.halfPosted (s : State) (base width : Nat) : Bool :=
  s.waiting.any fun w => w.bytes.any (·.off == base + width - 1) && !w.bytes.any (·.off == base)

/-- The access would take a snapshot of a half posted field (R160): it needs the block whose post waits, so that the head never names
a record that firmware cannot read and a snapshot holds one value of the field (R157, R161, R165, log 35). -/
def State.splits (s : State) (a : Access) : Bool :=
  match a with
  | .write _ _ => false
  | .read addr =>
    match s.decoded addr with
    | none => false
    | some off =>
      match coherentAt off with
      | none => false
      | some (base, width) => off == base && s.halfPosted base width

/-- The owner that a write of a region offset is delivered to (R152). -/
def writeOwner (off : Nat) : List Block :=
  if off < 0x100 then [.setupUnit]
  else if off = tailOff || off = tailOff + 1 then [.journal]
  else if classOf off = .trigger then (if off = consoleReqOff then [.answerQueue] else [.slotEngine])
  else []

/-- The owner that an access is delivered to: of a write R152 names it, and a read of the cause word's low byte goes to journal and
attention (R162). -/
def accessOwner (s : State) : Access → List Block
  | .write addr _ =>
    match s.decoded addr with
    | none => []
    | some off => writeOwner off
  | .read addr => if s.decoded addr = some causeOff then [.journal] else []

/-- What a delivered slot request is decided on besides the slot engine (R157, log 6): an EXTEND that is taken on the station's entry
(R75), a RELEASE over an order on where the order stands (R13). -/
def slotReads (s : State) (i : SlotId) (v : Byte) : List Block :=
  match slotReqOf v with
  | some .extend => if (s.eng.slot i).request.isNone && (turnedAway s.eng i .extend (s.slotOperands i)).isNone then [.transferUnit] else []
  | some .release => if (s.eng.slot i).flags.order then [.linkController] else []
  | _ => []

/-- What a delivered console request is decided on besides the answer queue: an ANSWER_NEXT on the talk path (R41). -/
def consoleReads (v : Byte) : List Block := if consoleReqOf v = some .answerNext then [.slotEngine] else []

/-- The owner of a setup field takes its value with the field (R172). -/
def setupReads (off : Nat) : List Block :=
  match fieldOfTop off with
  | some f => [f.owner]
  | none => []

/-- Blocks besides the owner of its byte whose state an access is decided on (R157, log 6). -/
def accessReads (s : State) : Access → List Block
  | .write addr v =>
    match s.decoded addr with
    | none => []
    | some off =>
      if off < 0x100 then setupReads off
      else if off = consoleReqOff then (if consoleWithholds s.eng then [] else consoleReads v)
      else if classOf off = .trigger && off != tailOff + 1 then slotReads s (slotAt off) v
      else []
  | .read _ => []

/-- The access is held on PWAIT for the whole of start-up: to a region byte that is not plain, or behind such an access (R163,
log 26). -/
def State.holdsAccess (s : State) (addr : BitVec 16) : Bool :=
  match s.phase with
  | .inReset | .running => false
  | _ => !s.held.isEmpty || (match s.regionOff addr with
      | none => false
      | some off => classOf off != .plain)

end Sys2Proof.Machine
end

