-- ==== Sys2Proof/Machine/Events.lean ====
section
/-!
DEFINITION. How events run: the blocks that an event works on, its acts in order with each post into the posting queue (R153), what
is left of it waiting when a post finds no room or a block it needs is waiting (R157), and how the waiting events go on.
-/
namespace Sys2Proof.Machine

/-! ### Blocks (R157, log 6) -/

/-- The blocks whose state an act changes or whose bytes it posts. -/
def Act.blocks : Act → List Block
  | .slotState _ _ | .flag _ _ _ | .deadline _ _ | .dest _ _ | .leg _ _ | .outcome _ _ | .recalls _ _ | .entryFields _ _ _
  | .request _ _ | .requestNone _ | .returnState _ _ | .allocate _ _ _ _ _ _ _ | .talkPath _ | .dueTaken => [.slotEngine]
  | .free _ => [.slotEngine, .answerQueue, .transferUnit, .timerUnit, .linkController]
  | .keep _ _ | .enqueue _ | .dequeue _ | .figures | .allFigures | .mode _ | .consoleRequest _ | .consoleOutcome _
  | .answered _ | .consoleNone => [.answerQueue]
  | .station _ _ | .stationsUnknown | .campJoin _ _ | .campLeave _ => [.transferUnit]
  | .timer _ _ | .advanceTime | .testTimers | .startDividers => [.timerUnit]
  | .sample _ _ | .estimate _ _ | .count _ _ | .overflow _ _ | .monitorReset | .tickTaken => [.serviceMonitor]
  | .append _ _ _ | .removeOrder _ | .idleTest | .linkState _ | .scc _ | .scs _ | .linkUnit | .line _ | .beginReceiving
  | .beginSending | .awaitStatus | .txEnd | .receive _ _ | .rxClear | .abandon | .answering _ | .endExchange | .failAttempt
  | .srstDrive _ | .srstRelease | .srstSwitch _ | .linkReset => [.linkController]
  | .journal _ _ _ _ | .latch _ | .clearCauses _ | .dropped _ | .tailLow _ | .tailWrite _ | .clampLatched => [.journal]
  | .setupCopy _ _ | .setupPost _ _ | .setupLoad _ | .sweep => [.setupUnit]
  | .setupTake f _ => [f.owner]

/-- A block that an event comes to only with the act that concerns it: journal and attention, and the service monitor, keep
nothing of an event that is still on its way to them (log 6). -/
def Block.late : Block → Bool
  | .journal | .serviceMonitor => true
  | _ => false

/-- The blocks that acts are decided on and keep from their beginning. -/
def claims (acts : List Act) : List Block := (acts.flatMap Act.blocks).filter fun b => !b.late

/-- Two lists have a block in common. -/
def sharing (a b : List Block) : Bool := a.any fun x => b.contains x

/-- The blocks whose post waits for room. -/
def Waiting.posting (w : Waiting) : List Block :=
  match w.bytes, w.acts with
  | _ :: _, a :: _ => a.blocks
  | _, _ => []

/-- The blocks that a waiting event keeps: where it began, and what it has still to do there. -/
def Waiting.keeps (w : Waiting) : List Block := w.holds ++ claims w.acts ++ w.posting

/-! ### Pieces of events -/

/-- A decision is taken on the state as it stands: due work that has been done, or undone by a new assertion of SRST, is none (R147). -/
def Job.begin (s : State) : Job → State × List Act
  | .clock => (s, [.advanceTime, .testTimers])
  | .expire => (s, expireNext s.eng)
  | .evaluate g => (s, evaluateGroup s.eng g)
  | .access a => beginAccess s a
  | .command c => (s, rowActs c s.eng)
  | .line m => (s, lineActs m s.eng)
  | .resetDue =>
    (s, match s.eng.link.resetDue with
      | some c => linkResetActs s.eng c
      | none => [])
  | .leaveReset => (s, if s.eng.link.state = .resetting ∧ s.eng.link.srst = false then leaveResetting s.eng else [])
  | .setupLoad => (s, [.setupLoad s.setupBytes])
  | .sweep =>
    match s.phase with
    | .loaded => ({ s with phase := .swept }, [.sweep])
    | _ => (s, [])
  | .startupEnd =>
    match s.phase with
    | .swept => ({ s with phase := .running }, startupEndActs s.eng)
    | _ => (s, [])

/-- The blocks at which a piece of an event arrives. An access that waits for the memory side has reached no owner yet (R158). The end
of start-up arrives where the link controller begins: the setup unit has finished, and keeps nothing of it (R163, R176). -/
def Job.arrivesAt (s : State) : Job → List Block
  | .clock => [.timerUnit]
  | .expire => [.slotEngine]
  | .evaluate _ => [.serviceMonitor]
  | .access a => .processor :: (if s.sideTaken a then [] else accessOwner s a)
  | .command _ | .line _ | .resetDue | .leaveReset | .startupEnd => [.linkController]
  | .setupLoad | .sweep => [.setupUnit]

/-- The blocks besides those where it arrives whose state a piece of an event is decided on: each block's changes wait with its
posts, so a decision that reads a waiting block comes after them (R157, R37, R73, log 6). -/
def Job.reads (s : State) : Job → List Block
  | .expire => [.answerQueue]
  | .evaluate _ => [.answerQueue, .slotEngine]
  | .access a => accessReads s a
  | .command c => rowReads c s.eng
  | .line m => lineReads m s.eng
  | .resetDue => [.slotEngine, .answerQueue]
  | .leaveReset => [.answerQueue]
  | .startupEnd => [.setupUnit, .slotEngine, .answerQueue]
  | .clock | .setupLoad | .sweep => []

/-- The blocks that must be free for a piece of an event to begin: where it arrives, those it is decided on, and those it works on. -/
def Job.needs (s : State) (j : Job) : List Block := j.arrivesAt s ++ j.reads s ++ claims (j.begin s).2

/-- What the link controller and the slot engine have still to do: the link reset that the part's own drive has made (R144),
leaving RESETTING once SRST reads deasserted (R147), an expiry handed over (R102). -/
def State.dueJob (s : State) : Option Job :=
  match s.phase with
  | .running =>
    if s.eng.link.resetDue.isSome then some .resetDue
    else if s.eng.link.state = .resetting ∧ s.eng.link.srst = false then some .leaveReset
    else if s.eng.due ≠ [] then some .expire
    else none
  | _ => none

/-- The blocks whose next event comes after the due work (log 11, log 12). -/
def Job.precedes : Job → List Block
  | .expire => [.slotEngine, .answerQueue]
  | .resetDue | .leaveReset => [.slotEngine, .answerQueue, .linkController]
  | _ => []

/-- Due work comes before this piece of an event, also one that arrived before it and waits (log 42, DESIGN CHOICE). An expiry does
not come before itself, nor before the evaluation of its own tick (R125, log 10), but before the next tick, since it is applied as
things stand at its own (R102, log 11). -/
def Job.overdue (s : State) (j : Job) : Bool :=
  match s.dueJob, j with
  | none, _ => false
  | some .expire, .expire => false
  | some .expire, .evaluate _ => false
  | some .expire, .clock => true
  | some d, j => d != j && sharing d.precedes (j.needs s)

/-- The blocks that a piece needs are free: no event that has begun keeps one, no event that arrived earlier waits at one, and an
access finds the memory side, and no half posted field that it would copy. A piece that goes on where the one before it was has arrived before all others (R157). -/
def Job.ready (s : State) (ahead : List Waiting) (at_ : List Block) (j : Job) : Bool :=
  (s.waiting.all fun w => w.acts.isEmpty || !sharing w.keeps (j.needs s))
    && (j.arrivesAt s == at_ || ahead.all fun w => !sharing w.holds (j.needs s))
    && (match j with
        | .access a => !s.sideTaken a && !s.splits a
        | _ => true)

/-- A piece of an event can begin. -/
def Job.free (s : State) (ahead : List Waiting) (at_ : List Block) (j : Job) : Bool := j.ready s ahead at_ && !j.overdue s

/-! ### Running -/

/-- What is left of an event. -/
structure Rest where
  holds : List Block
  bytes : List Post
  acts : List Act
  jobs : List Job
  deriving DecidableEq, Repr

/-- Nothing is left. -/
def Rest.none : Rest := { holds := [], bytes := [], acts := [], jobs := [] }

/-- Posts bytes in order until one finds no room. -/
def runBytes : List Post → State → State × List Post
  | [], s => (s, [])
  | p :: ps, s => if s.canPost p.off then runBytes ps (s.push p) else (s, p :: ps)

/-- Another event's post at one of the act's blocks waits for room. -/
def State.busy (s : State) (a : Act) : Bool := s.waiting.any fun w => sharing w.posting a.blocks

/-- Runs acts in order. An act's change is made when all its posts have been taken: a block's own state waits with the post
(R157). The posts and the change are those of the state as the act finds it (log 24). -/
def runActs : List Act → State → State × List Post × List Act
  | [], s => (s, [], [])
  | a :: as, s =>
    if s.busy a then (s, [], a :: as)
    else
      match runBytes (a.effect s.eng).2 s with
      | (t, []) => runActs as { t with eng := (a.effect t.eng).1 }
      | (t, q :: qs) => (t, q :: qs, a :: as)

/-- Pieces in order, each with its acts. -/
def runJobs : List Job → List Waiting → List Block → State → State × Rest
  | [], _, _, s => (s, Rest.none)
  | j :: js, ahead, at_, s =>
    if j.free s ahead at_ then
      match runActs (j.begin s).2 (j.begin s).1 with
      | (t, [], []) => runJobs js ahead (j.arrivesAt s) t
      | (t, qs, as) => (t, { holds := j.arrivesAt s, bytes := qs, acts := as, jobs := js })
    else (s, { holds := j.arrivesAt s, bytes := [], acts := [], jobs := j :: js })

/-- The acts left of a piece, then the pieces after it. -/
def runPiece (w : Waiting) (acts : List Act) (ahead : List Waiting) (s : State) : State × Rest :=
  match runActs acts s with
  | (t, [], []) => runJobs w.jobs ahead w.holds t
  | (t, qs, as) => (t, { holds := w.holds, bytes := qs, acts := as, jobs := w.jobs })

/-- A waiting event makes the posts that are left of its first act, then the change that waited with them, and goes on. -/
def runPosts (w : Waiting) (bytes : List Post) (ahead : List Waiting) (s : State) : State × Rest :=
  match runBytes bytes s with
  | (t, []) =>
    match w.acts with
    | a :: as => runPiece w as ahead { t with eng := (a.effect t.eng).1 }
    | [] => runPiece w [] ahead t
  | (t, q :: qs) => (t, { holds := w.holds, bytes := q :: qs, acts := w.acts, jobs := w.jobs })

/-- What is left of an event waits again. -/
def Rest.waiting (r : Rest) : Waiting := { holds := r.holds, bytes := r.bytes, acts := r.acts, jobs := r.jobs }

/-- The event `w`, before and behind which other events wait, has gone on. For room, and for a block it comes to on its way, it waits
last (log 7). Between two pieces it keeps its place, and goes before all others where it was at work already. -/
def park (ahead behind : List Waiting) (w : Waiting) (p : State × Rest) : State :=
  if p.2 = Rest.none then { p.1 with waiting := ahead ++ behind }
  else if !p.2.acts.isEmpty then { p.1 with waiting := ahead ++ behind ++ [p.2.waiting] }
  else if w.acts.isEmpty then { p.1 with waiting := ahead ++ p.2.waiting :: behind }
  else if p.2.holds = w.holds then { p.1 with waiting := p.2.waiting :: (ahead ++ behind) }
  else { p.1 with waiting := ahead ++ behind ++ [p.2.waiting] }

/-- One waiting event that needs no room goes on. A waiting access is decided anew here, on the state as it now stands: a read
returns a value posted while it waited (log 34, DESIGN CHOICE). -/
def goOn (ahead : List Waiting) (w : Waiting) (behind : List Waiting) (s : State) : State :=
  park ahead behind w
    (runPiece w w.acts (if w.acts.isEmpty then ahead else ahead ++ behind) { s with waiting := ahead ++ behind })

/-- One waiting event is given the room of an entry. -/
def giveRoom (ahead : List Waiting) (w : Waiting) (behind : List Waiting) (s : State) : State :=
  match w.bytes with
  | [] => s
  | q :: qs => park ahead behind w (runPosts w qs (ahead ++ behind) (State.push { s with waiting := ahead ++ behind } q))

/-! ### Waiting events -/

/-- A waiting event that needs no room can go on: the act it came to finds its block, or the piece that has not begun finds all
it needs. -/
def Waiting.able (s : State) (ahead : List Waiting) (w : Waiting) : Bool :=
  w.bytes.isEmpty &&
    match w.acts, w.jobs with
    | a :: _, _ => !s.busy a
    | [], [] => true
    | [], j :: _ => j.free s ahead []

/-- The first of the events that can go on, with those before and behind it. -/
def firstAble (s : State) : List Waiting → List Waiting → Option (List Waiting × Waiting × List Waiting)
  | _, [] => none
  | ahead, w :: behind => if w.able s ahead then some (ahead, w, behind) else firstAble s (ahead ++ [w]) behind

/-- The first of the events that wait for room, with those before and behind it (R157). -/
def firstForRoom : List Waiting → List Waiting → Option (List Waiting × Waiting × List Waiting)
  | _, [] => none
  | ahead, w :: behind => if w.bytes.isEmpty then firstForRoom (ahead ++ [w]) behind else some (ahead, w, behind)

/-- An event as it arrives. -/
def arrival (s : State) (j : Job) (js : List Job) : Waiting := { holds := j.arrivesAt s, bytes := [], acts := [], jobs := j :: js }

/-- The accesses held at start-up arrive when the hold ends (R163). -/
def releaseHeld (s : State) : State :=
  { s with held := [], waiting := s.waiting ++ s.held.map fun a => arrival s (.access a) [] }

/-- Due work is done for an event that waits behind it. An event that came to a waiting block before the tick, or before the part's
drive of SRST, and has not begun is taken after the expiries of that tick, or after the link reset or the leaving of RESETTING that is
due, as with R110's tick taken first; R157 has the events at a waiting block taken in the order they arrived: DESIGN CHOICE (log 42). -/
def doDue (s : State) : Option State :=
  match s.dueJob with
  | none => none
  | some d =>
    if s.waiting.any (fun w => w.acts.isEmpty) && d.ready s [] [] then
      some (park s.waiting [] (arrival s d []) (runJobs [d] [] [] s))
    else none

/-- One waiting event goes on that can. -/
def wakeOne (s : State) : Option State :=
  if s.phase = .running ∧ s.held ≠ [] then some (releaseHeld s)
  else
    match firstAble s [] s.waiting with
    | some (ahead, w, behind) => some (goOn ahead w behind s)
    | none => doDue s

/-- The waiting events go on as far as they can without room. -/
def wake : Nat → State → State
  | 0, s => s
  | n + 1, s =>
    match wakeOne s with
    | none => s
    | some t => wake n t

/-- An event arrives: it is taken at once if it finds all it needs, otherwise it waits in the order of arrival (R157). -/
def arrive (j : Job) (js : List Job) (s : State) : State :=
  if j.free s s.waiting [] then park s.waiting [] (arrival s j js) (runJobs (j :: js) s.waiting [] s)
  else wake Config.wakeFuel { s with waiting := s.waiting ++ [arrival s j js] }

/-- The room of an entry that has left goes to the event that has waited longest for room (R157, log 7). The place of an entry that
a processor write has removed (R156) is given in the same way: R157 speaks only of entries that leave for a cycle (log 7, DESIGN
CHOICE). -/
def grantRoom (s : State) : State :=
  match firstForRoom [] s.waiting with
  | none => s
  | some (ahead, w, behind) =>
    if s.posts.length < Config.postingCapacity then wake Config.wakeFuel (giveRoom ahead w behind s) else s

/-- An inserted cycle ends: an access that waits for the memory side goes next, otherwise the entry at the head (R154, R158). -/
def endInserted (s : State) : State := State.beginCycle (wake Config.wakeFuel s.endCycle)

/-- One entry drains and its room is given out (R154, R157). -/
def drainOne (s : State) : State := grantRoom (endInserted s)

/-! ### Arrivals -/

/-- An event at the link controller while the part is RUNNING; at any other time it does not arise (log 5). -/
def linkEvent (c : Instr) (s : State) : State :=
  match s.phase with
  | .running => arrive (.command c) [] s
  | _ => s

/-- A processor access: held at start-up (R163), otherwise made when it finds what it needs. -/
def processorAccess (a : Access) (addr : BitVec 16) (s : State) : State :=
  if s.holdsAccess addr then { s with held := s.held ++ [a] } else arrive (.access a) [] s

/-- A processor write. -/
def processorWrite (addr : BitVec 16) (v : Byte) (s : State) : State := processorAccess (.write addr v) addr s

/-- A processor read. -/
def processorRead (addr : BitVec 16) (s : State) : State := processorAccess (.read addr) addr s

/-- The processor address of a region offset (R149). -/
def State.processorAddress (s : State) (off : Nat) : BitVec 16 := BitVec.ofNat 16 (s.address off)

/-- The switch changes SACK or SSTB: the link controller acts on it only while the part is RUNNING (R148). -/
def lineMove (m : LineMove) (s : State) : State :=
  match s.phase with
  | .running => arrive (.line m) [] s
  | _ => { s with eng := s.eng.onLink fun l => l.moved m }

end Sys2Proof.Machine
end

