-- ==== Sys2Proof/Machine/ConsoleRequests.lean ====
section
/-!
DEFINITION. The five console requests: the processor writes the request's code into the console request byte (R63).
-/
namespace Sys2Proof.Machine

/-- The processor writes a code into the console request byte. -/
def writeConsoleRequest (c : ConsoleReq) (s : State) : State :=
  processorWrite (s.processorAddress consoleReqOff) c.code s

/-- ANSWER_NEXT (R41, R43, R65). -/
def execAnswerNext (s : State) : Host.Outcome State Fault Refusal := .next (writeConsoleRequest .answerNext s)

/-- DAY (R44, R68). -/
def execDay (s : State) : Host.Outcome State Fault Refusal := .next (writeConsoleRequest .day s)

/-- NIGHT (R44, R45, R68). -/
def execNight (s : State) : Host.Outcome State Fault Refusal := .next (writeConsoleRequest .night s)

/-- RESET_ESTIMATE (R69): the group is in the console operand byte. -/
def execResetEstimate (s : State) : Host.Outcome State Fault Refusal := .next (writeConsoleRequest .resetEstimate s)

/-- RESTART (R70, R71, R146). -/
def execRestart (s : State) : Host.Outcome State Fault Refusal := .next (writeConsoleRequest .restart s)

end Sys2Proof.Machine
end

