-- ==== Sys2Proof/Machine/LinkEvents.lean ====
section
/-!
DEFINITION. The events of the link (R128, R131, R135, R136, R137, R138, R140, R144, R146, R147). A line the switch drives is
recorded in every phase; the link controller acts on it only while the part is RUNNING (R148).
-/
namespace Sys2Proof.Machine

/-- A line event while the part is RUNNING; before that only the line changes. -/
def lineEvent (c : Instr) (s : State) : State :=
  match s.phase with
  | .running => linkEvent c s
  | _ => { s with eng := s.eng.onLink (rowLines c) }

/-- SCS_ASSERTED (R131). -/
def execScsAsserted (s : State) : Host.Outcome State Fault Refusal :=
  .next (lineEvent .scsAsserted s)

/-- SCS_DROPPED (R135, R136). -/
def execScsDropped (s : State) : Host.Outcome State Fault Refusal :=
  .next (lineEvent .scsDropped s)

/-- ARBITRATION_WINDOW_END (R131, R132). -/
def execArbitrationWindowEnd (s : State) : Host.Outcome State Fault Refusal := .next (linkEvent .arbitrationWindowEnd s)

/-- ORDER_FRAME_SENT (R137). -/
def execOrderFrameSent (s : State) : Host.Outcome State Fault Refusal := .next (linkEvent .orderFrameSent s)

/-- An event that has arrived at the link controller waits, for room or for a block: the line has changed, and the part is not waiting
on the switch (R128). The rise of SCS alone ends no wait before it is taken (log 13). -/
def State.linkDelayed (s : State) : Bool :=
  s.waiting.any fun w => w.holds.contains .linkController && w.jobs != [.command .scsAsserted]

/-- LINK_WAIT_TIMEOUT (R128): where no bound runs, as while the handling of a byte waits for room, there is none. -/
def execLinkWaitTimeout (s : State) : Host.Outcome State Fault Refusal :=
  .next (if s.eng.link.waits && !s.linkDelayed then linkEvent .linkWaitTimeout s else s)

/-- STATUS_BYTE_FAILED_ATTEMPT (R138, R140). -/
def execStatusByteFailedAttempt (b : LinkByte) (s : State) : Host.Outcome State Fault Refusal :=
  .next (linkEvent (.statusByteFailedAttempt b) s)

/-- SRST_ASSERTED (R144). By the part: its drive has made the line read asserted, and the link reset with the drive's cause,
which is due from the moment the drive began (log 12), is performed. -/
def execSrstAsserted (side : Side) (s : State) : Host.Outcome State Fault Refusal :=
  .next (match side with
    | .switch => lineEvent (.srstAsserted .switch) s
    | .part => if s.dueJob = some .resetDue then arrive .resetDue [] s else s)

/-- SRST_DRIVE_END (R146). -/
def execSrstDriveEnd (s : State) : Host.Outcome State Fault Refusal := .next (linkEvent .srstDriveEnd s)

/-- SRST_DEASSERTED (R147). By the part: its drive has ended, and the link leaves RESETTING, which is due from the moment the
line read deasserted (log 12). -/
def execSrstDeasserted (side : Side) (s : State) : Host.Outcome State Fault Refusal :=
  .next (match side with
    | .switch => lineEvent (.srstDeasserted .switch) s
    | .part => if s.dueJob = some .leaveReset then arrive .leaveReset [] s else s)

end Sys2Proof.Machine
end

