-- ==== Sys2Proof/Machine/MemoryCommands.lean ====
section
/-!
DEFINITION. The processor's accesses, the inserted cycles and the room of the posting queue (spec/08_the_memory_path.md), the
journal tail write (R167) and the taking of a setup field (R172).
-/
namespace Sys2Proof.Machine

/-- PROCESSOR_WRITE (R150, R151, R152): any write, by the class of its byte (log 9). -/
def execProcessorWrite (addr : BitVec 16) (v : Byte) (s : State) : Host.Outcome State Fault Refusal :=
  .next (Sys2Proof.Machine.processorWrite addr v s)

/-- SNAPSHOT (R155, R160, R161): any read; of a group's lowest byte it starts a snapshot (log 8). -/
def execSnapshot (addr : BitVec 16) (s : State) : Host.Outcome State Fault Refusal := .next (processorRead addr s)

/-- CAUSE_WORD_READ (R162): a read of the cause word's low byte. -/
def execCauseWordRead (s : State) : Host.Outcome State Fault Refusal :=
  .next (processorRead (s.processorAddress causeOff) s)

/-- INSERTED_CYCLE (R154, R158): the cycle in progress ends with the entry's value in memory, and an access that waits for the side, or
the next entry, takes it. An entry that is ready takes a free side at once (R158), so a cycle that begins has as a rule begun (log 21). -/
def execInsertedCycle (phase : CyclePhase) (s : State) : Host.Outcome State Fault Refusal :=
  .next (match phase with
    | .begins => s.beginCycle
    | .ends => endInserted s)

/-- POSTING_QUEUE_ROOM (R157). -/
def execPostingQueueRoom (s : State) : Host.Outcome State Fault Refusal := .next (grantRoom s)

/-- JOURNAL_TAIL_WRITE (R167): a write of the tail's high byte. -/
def execJournalTailWrite (v : Byte) (s : State) : Host.Outcome State Fault Refusal :=
  .next (Sys2Proof.Machine.processorWrite (s.processorAddress (tailOff + 1)) v s)

/-- SETUP_FIELD_TAKE (R172, R173): a write of a setup byte. -/
def execSetupFieldTake (off v : Byte) (s : State) : Host.Outcome State Fault Refusal :=
  .next (Sys2Proof.Machine.processorWrite (s.processorAddress off.toNat) v s)

end Sys2Proof.Machine
end

