-- ==== Sys2Proof/Machine/OrderStatusCommands.lean ====
section
/-!
DEFINITION. The statuses that end an exchange (R138, R139), one row for each purpose an order is issued for. A row arises in
AWAIT_STATUS with a head order of its purpose, RELEASE deferred or not as the row says; otherwise nothing changes (log 25).
-/
namespace Sys2Proof.Machine

/-- ANSWER_ORDER_STATUS (R52). -/
def execAnswerOrderStatus (st : Status) (s : State) : Host.Outcome State Fault Refusal := .next (linkEvent (.answerOrderStatus st) s)

/-- ANSWER_NEXT_ORDER_STATUS (R66). -/
def execAnswerNextOrderStatus (st : Status) (s : State) : Host.Outcome State Fault Refusal := .next (linkEvent (.answerNextOrderStatus st) s)

/-- HOLD_ORDER_STATUS (R54). -/
def execHoldOrderStatus (st : Status) (s : State) : Host.Outcome State Fault Refusal := .next (linkEvent (.holdOrderStatus st) s)

/-- RETRIEVE_ORDER_STATUS (R56). -/
def execRetrieveOrderStatus (st : Status) (s : State) : Host.Outcome State Fault Refusal := .next (linkEvent (.retrieveOrderStatus st) s)

/-- RELEASE_ORDER_STATUS (R59). -/
def execReleaseOrderStatus (st : Status) (s : State) : Host.Outcome State Fault Refusal := .next (linkEvent (.releaseOrderStatus st) s)

/-- DIVERT_ORDER_STATUS (R61). -/
def execDivertOrderStatus (st : Status) (s : State) : Host.Outcome State Fault Refusal := .next (linkEvent (.divertOrderStatus st) s)

/-- EXTEND_ORDER_STATUS (R77, R78, R79). -/
def execExtendOrderStatus (st : Status) (s : State) : Host.Outcome State Fault Refusal := .next (linkEvent (.extendOrderStatus st) s)

/-- CAMP_HOLD_STATUS (R80). -/
def execCampHoldStatus (st : Status) (s : State) : Host.Outcome State Fault Refusal := .next (linkEvent (.campHoldStatus st) s)

/-- JOIN_ORDER_STATUS (R85). -/
def execJoinOrderStatus (st : Status) (s : State) : Host.Outcome State Fault Refusal := .next (linkEvent (.joinOrderStatus st) s)

/-- DROP_DEST_ORDER_STATUS (R83). -/
def execDropDestOrderStatus (st : Status) (s : State) : Host.Outcome State Fault Refusal := .next (linkEvent (.dropDestOrderStatus st) s)

/-- SWAP_ORDER_STATUS (R82). -/
def execSwapOrderStatus (st : Status) (s : State) : Host.Outcome State Fault Refusal := .next (linkEvent (.swapOrderStatus st) s)

/-- CAMP_WAKE_STATUS (R93). -/
def execCampWakeStatus (st : Status) (s : State) : Host.Outcome State Fault Refusal := .next (linkEvent (.campWakeStatus st) s)

/-- RECALL_LEG_STATUS (R106). -/
def execRecallLegStatus (st : Status) (s : State) : Host.Outcome State Fault Refusal := .next (linkEvent (.recallLegStatus st) s)

/-- NIGHT_DIVERT_STATUS (R46). -/
def execNightDivertStatus (st : Status) (s : State) : Host.Outcome State Fault Refusal := .next (linkEvent (.nightDivertStatus st) s)

/-- NIGHT_EXPIRY_DIVERT_STATUS (R109). -/
def execNightExpiryDivertStatus (st : Status) (s : State) : Host.Outcome State Fault Refusal := .next (linkEvent (.nightExpiryDivertStatus st) s)

/-- SHED_DIVERT_STATUS (R124). -/
def execShedDivertStatus (st : Status) (s : State) : Host.Outcome State Fault Refusal := .next (linkEvent (.shedDivertStatus st) s)

/-- DEFERRED_RELEASE_STATUS (R14). -/
def execDeferredReleaseStatus (st : Status) (s : State) : Host.Outcome State Fault Refusal := .next (linkEvent (.deferredReleaseStatus st) s)

end Sys2Proof.Machine
end

