-- ==== Sys2Proof/Machine/ReportCommands.lean ====
section
/-!
DEFINITION. The reports at their last byte (R134): the frame stands in the receive buffer, the owner handles it in full and
gives the status, and the link enters ANSWERING. A report arises only in RECEIVING, before a timeout has abandoned the frame
(R133, R136); at any other time the part acknowledges no report byte and nothing changes (log 5). A row stands for the bytes of its
frame, which may also come one by one (log 14).
-/
namespace Sys2Proof.Machine

/-- OFFER (R35 to R40). -/
def execOffer (ref : BitVec 16) (group cls : Byte) (tag : BitVec 16) (s : State) : Host.Outcome State Fault Refusal :=
  .next (linkEvent (.offer ref group cls tag) s)

/-- CLEARED (R8, R23). -/
def execCleared (ref : BitVec 16) (s : State) : Host.Outcome State Fault Refusal := .next (linkEvent (.cleared ref) s)

/-- DEST_ANSWER (R8, R86, R89, R90). -/
def execDestAnswer (ref : BitVec 16) (s : State) : Host.Outcome State Fault Refusal := .next (linkEvent (.destAnswer ref) s)

/-- DEST_CLEARED (R8, R87, R90). -/
def execDestCleared (ref : BitVec 16) (s : State) : Host.Outcome State Fault Refusal := .next (linkEvent (.destCleared ref) s)

/-- STATION (R73, R92). -/
def execStation (ref : BitVec 16) (st cond : Byte) (s : State) : Host.Outcome State Fault Refusal :=
  .next (linkEvent (.station ref st cond) s)

/-- UNKNOWN_KIND (R133, R134). -/
def execUnknownKind (kind : Byte) (ref : BitVec 16) (s : State) : Host.Outcome State Fault Refusal :=
  .next (linkEvent (.unknownKind kind ref) s)

/-- PARITY_ERROR_FRAME (R134). -/
def execParityErrorFrame (frame : List LinkByte) (s : State) : Host.Outcome State Fault Refusal :=
  .next (linkEvent (.parityErrorFrame frame) s)

/-- REPORT_STATUS_SENT (R135). -/
def execReportStatusSent (s : State) : Host.Outcome State Fault Refusal := .next (linkEvent .reportStatusSent s)

end Sys2Proof.Machine
end

