-- ==== Sys2Proof/Machine/SlotRequests.lean ====
section
/-!
DEFINITION. The nine slot requests (R16): the processor writes the request's code into the slot's request code byte (R11).
-/
namespace Sys2Proof.Machine

/-- The processor writes a request code into a slot's request code byte. -/
def writeSlotRequest (c : SlotReq) (i : SlotId) (s : State) : State :=
  processorWrite (s.processorAddress (slotOff i 24)) c.code s

/-- ANSWER (R51). -/
def execAnswer (i : SlotId) (s : State) : Host.Outcome State Fault Refusal := .next (writeSlotRequest .answer i s)

/-- HOLD (R53). -/
def execHold (i : SlotId) (s : State) : Host.Outcome State Fault Refusal := .next (writeSlotRequest .hold i s)

/-- RETRIEVE (R55). -/
def execRetrieve (i : SlotId) (s : State) : Host.Outcome State Fault Refusal := .next (writeSlotRequest .retrieve i s)

/-- EXTEND (R75, R76, R80). -/
def execExtend (i : SlotId) (s : State) : Host.Outcome State Fault Refusal := .next (writeSlotRequest .extend i s)

/-- COMPLETE (R84). -/
def execComplete (i : SlotId) (s : State) : Host.Outcome State Fault Refusal := .next (writeSlotRequest .complete i s)

/-- CANCEL (R83, R94). -/
def execCancel (i : SlotId) (s : State) : Host.Outcome State Fault Refusal := .next (writeSlotRequest .cancel i s)

/-- SWAP (R82). -/
def execSwap (i : SlotId) (s : State) : Host.Outcome State Fault Refusal := .next (writeSlotRequest .swap i s)

/-- RELEASE (R58, R13, R14). -/
def execRelease (i : SlotId) (s : State) : Host.Outcome State Fault Refusal := .next (writeSlotRequest .release i s)

/-- DIVERT (R60). -/
def execDivert (i : SlotId) (s : State) : Host.Outcome State Fault Refusal := .next (writeSlotRequest .divert i s)

end Sys2Proof.Machine
end

