-- ==== Sys2Proof/Machine/Startup.lean ====
section
/-!
DEFINITION. RESET and start-up (R149, R163, R174, R175, R176, R177, R148).
-/
namespace Sys2Proof.Machine

/-- An access that passes to memory while RESET is asserted (R149, log 20). -/
def passAccess (s : State) : Access → State
  | .write addr v => { s with mem := memWrite s.mem addr.toNat v }
  | .read addr => { s with readData := memRead s.mem addr.toNat }

/-- The access that a waiting event has still to make, if it is one. -/
def Waiting.access (w : Waiting) : Option Access :=
  match w.acts, w.jobs with
  | [], .access a :: _ => some a
  | _, _ => none

/-- The accesses held on PWAIT and not made yet (R157, R158, R163). -/
def State.accessesHeld (s : State) : List Access := s.held ++ s.waiting.filterMap Waiting.access

/-- The lines once the switch's change that an event brings has been made. -/
def Job.lines (l : Link) : Job → Link
  | .command c => rowLines c l
  | .line m => l.moved m
  | _ => l

/-- The lines as the switch drives them: the changes that the link controller has acted on, and then those that still wait to be
taken, in their order. -/
def State.linesNow (s : State) : Link := (s.waiting.flatMap (·.jobs)).foldl Job.lines s.eng.link

/-- The blocks at their power-on values, with the lines that the switch drives as they read (R148). -/
def Link.atReset (l : Link) : Engine := Engine.initial l.scs l.srstSwitch l.sackIn l.strobe

/-- RESET is asserted: posts and work are lost, memory stays as the drain left it, the blocks are at their power-on values and
an access that was held passes to memory (R149, R163, R177, log 20). An event that waits is lost with its work, but not the change of a
line that it brings: the switch drives the line as before, and the end of start-up reads it so (R148). -/
def assertReset (s : State) : State :=
  s.accessesHeld.foldl passAccess
    { s with phase := .inReset, eng := s.linesNow.atReset, posts := [], snapshot := none, side := .free, held := [], waiting := [] }

/-- POWER_ON_RESET (R177). -/
def execPowerOnReset (s : State) : Host.Outcome State Fault Refusal := .next (assertReset s)

/-- RESET is released: the straps are sampled and the setup load is performed (R149, R174). -/
def releaseReset (straps : BitVec 3) (s : State) : State :=
  match s.phase with
  | .inReset => arrive .setupLoad [] { s with base := straps, phase := .loaded }
  | _ => s

/-- RESET_RELEASE (R174). -/
def execResetRelease (straps : BitVec 3) (s : State) : Host.Outcome State Fault Refusal := .next (releaseReset straps s)

/-- The sweep begins when the setup load has made its last post (R175). -/
def beginSweep (s : State) : State :=
  match s.phase with
  | .loaded => arrive .sweep [] s
  | _ => s

/-- INITIALIZATION_SWEEP (R175). -/
def execInitializationSweep (s : State) : Host.Outcome State Fault Refusal := .next (beginSweep s)

/-- Start-up ends when the sweep has made its last post: the part becomes RUNNING, the recorded clamp latches, the dividers start and
the link controller reads SRST (`startupEndActs`), and then an access held at start-up arrives. R176 gives these steps no order; that
a held read of the cause word or of the link state byte comes after steps 2 to 4 is DESIGN CHOICE (log 30). -/
def endStartup (s : State) : State :=
  match s.phase with
  | .loaded | .swept => wake Config.wakeFuel (arrive .startupEnd [] s)
  | _ => s

/-- STARTUP_END (R176). -/
def execStartupEnd (s : State) : Host.Outcome State Fault Refusal := .next (endStartup s)

end Sys2Proof.Machine
end

