-- ==== Sys2Proof/Machine/TimerCommands.lean ====
section
/-!
DEFINITION. Ticks (R97, R102, R117, R125) and the application of slot timer expiries (R102, R104, R105, R108).
-/
namespace Sys2Proof.Machine

/-- What a tick asks for after the timer unit has taken it: some of its expiries, then the evaluation of each group, lowest first; the
other expiries are applied by their own rows (R102, R117, R125, log 10). -/
def tickJobs (before : Nat) : List Job := List.replicate (min before 64) .expire ++ allGroups.map .evaluate

/-- The part takes a tick (R97): console time and the timer tests at the timer unit, then the tick's other pieces. -/
def tick (before : Nat) (s : State) : State :=
  match s.phase with
  | .running => arrive .clock (tickJobs before) s
  | _ => s

/-- TICK (R97). -/
def execTick (before : Nat) (s : State) : Host.Outcome State Fault Refusal := .next (tick before s)

/-- The slot's expiry is handed over and of the row's sort (R102, R104, R105, R108). -/
def expiryStands (e : Engine) (i : SlotId) (m : Mode) (k : Option TimerKind) : Bool :=
  e.due.contains i && e.mode == m && (k == none || k == some (e.slot i).timer.kind)

/-- The expiries handed over before a slot's, and then its own, are applied (R102). -/
def applyExpiry (m : Mode) (k : Option TimerKind) (i : SlotId) (s : State) : State :=
  match s.phase with
  | .running => if expiryStands s.eng i m k then arrive .expire (List.replicate (s.eng.due.idxOf i) .expire) s else s
  | _ => s

/-- HOLD_TIMER_EXPIRY (R104). -/
def execHoldTimerExpiry (i : SlotId) (s : State) : Host.Outcome State Fault Refusal :=
  .next (applyExpiry .day (some .hold) i s)

/-- CAMP_TIMER_EXPIRY (R104). -/
def execCampTimerExpiry (i : SlotId) (s : State) : Host.Outcome State Fault Refusal :=
  .next (applyExpiry .day (some .camp) i s)

/-- NOANS_TIMER_EXPIRY (R105). -/
def execNoansTimerExpiry (i : SlotId) (s : State) : Host.Outcome State Fault Refusal :=
  .next (applyExpiry .day (some .noans) i s)

/-- NIGHT_EXPIRY (R108). -/
def execNightExpiry (i : SlotId) (s : State) : Host.Outcome State Fault Refusal := .next (applyExpiry .night none i s)

end Sys2Proof.Machine
end

