-- ==== Sys2Proof/Machine/Dispatch.lean ====
section
/-!
DEFINITION. The dispatch: one arm per command, each a direct call of its meaning.
-/
namespace Sys2Proof.Machine

def exec (i : Instr) (s : State) : Host.Outcome State Fault Refusal :=
  match i with
  | .answer slot => Sys2Proof.Machine.execAnswer slot s
  | .hold slot => Sys2Proof.Machine.execHold slot s
  | .retrieve slot => Sys2Proof.Machine.execRetrieve slot s
  | .extend slot => Sys2Proof.Machine.execExtend slot s
  | .complete slot => Sys2Proof.Machine.execComplete slot s
  | .cancel slot => Sys2Proof.Machine.execCancel slot s
  | .swap slot => Sys2Proof.Machine.execSwap slot s
  | .release slot => Sys2Proof.Machine.execRelease slot s
  | .divert slot => Sys2Proof.Machine.execDivert slot s
  | .answerNext => Sys2Proof.Machine.execAnswerNext s
  | .day => Sys2Proof.Machine.execDay s
  | .night => Sys2Proof.Machine.execNight s
  | .resetEstimate => Sys2Proof.Machine.execResetEstimate s
  | .restart => Sys2Proof.Machine.execRestart s
  | .offer ref group cls tag => Sys2Proof.Machine.execOffer ref group cls tag s
  | .cleared ref => Sys2Proof.Machine.execCleared ref s
  | .destAnswer ref => Sys2Proof.Machine.execDestAnswer ref s
  | .destCleared ref => Sys2Proof.Machine.execDestCleared ref s
  | .station ref st cond => Sys2Proof.Machine.execStation ref st cond s
  | .unknownKind kind ref => Sys2Proof.Machine.execUnknownKind kind ref s
  | .parityErrorFrame frame => Sys2Proof.Machine.execParityErrorFrame frame s
  | .reportStatusSent => Sys2Proof.Machine.execReportStatusSent s
  | .answerOrderStatus st => Sys2Proof.Machine.execAnswerOrderStatus st s
  | .answerNextOrderStatus st => Sys2Proof.Machine.execAnswerNextOrderStatus st s
  | .holdOrderStatus st => Sys2Proof.Machine.execHoldOrderStatus st s
  | .retrieveOrderStatus st => Sys2Proof.Machine.execRetrieveOrderStatus st s
  | .releaseOrderStatus st => Sys2Proof.Machine.execReleaseOrderStatus st s
  | .divertOrderStatus st => Sys2Proof.Machine.execDivertOrderStatus st s
  | .extendOrderStatus st => Sys2Proof.Machine.execExtendOrderStatus st s
  | .campHoldStatus st => Sys2Proof.Machine.execCampHoldStatus st s
  | .joinOrderStatus st => Sys2Proof.Machine.execJoinOrderStatus st s
  | .dropDestOrderStatus st => Sys2Proof.Machine.execDropDestOrderStatus st s
  | .swapOrderStatus st => Sys2Proof.Machine.execSwapOrderStatus st s
  | .campWakeStatus st => Sys2Proof.Machine.execCampWakeStatus st s
  | .recallLegStatus st => Sys2Proof.Machine.execRecallLegStatus st s
  | .nightDivertStatus st => Sys2Proof.Machine.execNightDivertStatus st s
  | .nightExpiryDivertStatus st => Sys2Proof.Machine.execNightExpiryDivertStatus st s
  | .shedDivertStatus st => Sys2Proof.Machine.execShedDivertStatus st s
  | .deferredReleaseStatus st => Sys2Proof.Machine.execDeferredReleaseStatus st s
  | .scsAsserted => Sys2Proof.Machine.execScsAsserted s
  | .scsDropped => Sys2Proof.Machine.execScsDropped s
  | .arbitrationWindowEnd => Sys2Proof.Machine.execArbitrationWindowEnd s
  | .orderFrameSent => Sys2Proof.Machine.execOrderFrameSent s
  | .linkWaitTimeout => Sys2Proof.Machine.execLinkWaitTimeout s
  | .srstAsserted side => Sys2Proof.Machine.execSrstAsserted side s
  | .srstDriveEnd => Sys2Proof.Machine.execSrstDriveEnd s
  | .srstDeasserted side => Sys2Proof.Machine.execSrstDeasserted side s
  | .tick before => Sys2Proof.Machine.execTick before s
  | .holdTimerExpiry slot => Sys2Proof.Machine.execHoldTimerExpiry slot s
  | .campTimerExpiry slot => Sys2Proof.Machine.execCampTimerExpiry slot s
  | .noansTimerExpiry slot => Sys2Proof.Machine.execNoansTimerExpiry slot s
  | .nightExpiry slot => Sys2Proof.Machine.execNightExpiry slot s
  | .processorWrite addr value => Sys2Proof.Machine.execProcessorWrite addr value s
  | .snapshot addr => Sys2Proof.Machine.execSnapshot addr s
  | .causeWordRead => Sys2Proof.Machine.execCauseWordRead s
  | .insertedCycle phase => Sys2Proof.Machine.execInsertedCycle phase s
  | .postingQueueRoom => Sys2Proof.Machine.execPostingQueueRoom s
  | .journalTailWrite value => Sys2Proof.Machine.execJournalTailWrite value s
  | .setupFieldTake off value => Sys2Proof.Machine.execSetupFieldTake off value s
  | .powerOnReset => Sys2Proof.Machine.execPowerOnReset s
  | .resetRelease straps => Sys2Proof.Machine.execResetRelease straps s
  | .initializationSweep => Sys2Proof.Machine.execInitializationSweep s
  | .startupEnd => Sys2Proof.Machine.execStartupEnd s
  | .statusByteFailedAttempt byte => Sys2Proof.Machine.execStatusByteFailedAttempt byte s

end Sys2Proof.Machine
end

