-- ==== Sys2Proof/Machine/Step.lean ====
section
/-!
DEFINITION. The step: the command at the front of the queue is taken. With no command waiting, the switch's next change of SACK or
SSTB, of which the table has no row, reaches the link; with none of these either the part idles (log 1, log 14).
-/
namespace Sys2Proof.Machine

/-- One step. -/
def step (s : State) : Host.Outcome State Fault Refusal :=
  match s.pending, s.moves with
  | [], [] => .next s
  | [], m :: rest => .next (lineMove m { s with moves := rest })
  | c :: rest, _ => exec c { s with pending := rest }

/-- The state with the command that a word spells put at the front of its queue. -/
def State.withFetchWord (s : State) (nbits w : Nat) : State :=
  match Sys2Proof.decodeTableWord nbits w with
  | none => s
  | some c => { s with pending := c :: s.pending }

end Sys2Proof.Machine
end

