-- ==== Sys2Proof/Safety.lean ====
section
/-!
DEFINITION. The terms that statements are made in: a part that is free to take an event, room in the posting queue, and what
an event has changed.
-/
namespace Sys2Proof.Machine

/-- Every step from here answers a next state: the part never stops. -/
def Safe (s : State) : Prop := ∃ t, step s = .next t

/-- The part is RUNNING and free to take an event: no event waits and no access is held, no expiry and no tick is handed over, no link
reset is due and the link has not still to leave RESETTING. -/
def Quiet (s : State) : Prop :=
  s.phase = .running ∧ s.waiting = [] ∧ s.eng.due = [] ∧ s.eng.link.resetDue = none
    ∧ (s.eng.link.state = .resetting → s.eng.link.srst = true) ∧ s.held = [] ∧ s.eng.ticks = []

/-- The part is free to take an event, and the memory side is free for an access (R158). -/
def Open (s : State) : Prop := Quiet s ∧ s.side = .free

/-- The posting queue holds one entry an address and has room for `n` more entries (R153). -/
def Room (n : Nat) (s : State) : Prop := (s.posts.map (·.off)).Nodup ∧ s.posts.length + n ≤ Config.postingCapacity

/-- The value that a list of posts leaves pending at an offset: its last post there. -/
def lastPost : List Post → Nat → Option Byte
  | [], _ => none
  | p :: ps, off => (lastPost ps off).or (if p.off = off then some p.val else none)

/-! ### What the region shows -/

/-- Byte `k` of a number, least significant first. -/
def leByte (n k : Nat) : Byte := byteOf (n / 256 ^ k)

/-- Byte `k` of a slot record's engine-owned part (Table 11-3). -/
def Slot.byteAt (x : Slot) (k : Nat) : Byte :=
  if k = 0 then x.state.code
  else if k = 1 then x.flags.byte
  else if k = 2 then byteOf x.group.val
  else if k = 3 then x.cls.code
  else if k < 6 then leByte x.callRef.toNat (k - 4)
  else if k < 8 then leByte x.tag.toNat (k - 6)
  else if k < 12 then leByte x.entryTime (k - 8)
  else if k < 16 then leByte x.rank (k - 12)
  else if k < 20 then leByte x.deadline (k - 16)
  else if k = 20 then x.dest
  else if k = 21 then x.leg.code
  else if k = 22 then x.outcome.code
  else byteOf x.recalls

/-- The group that an index of the status area counts to. -/
def groupAt (n : Nat) : GroupId := ⟨n % 8, Nat.mod_lt n (by decide)⟩

/-- The engine's current value of a byte of the status area, if the byte is engine-owned (Table 11-2). -/
def statusByte (e : Engine) (off : Nat) : Option Byte :=
  if off < 0x104 then some (leByte e.time (off - 0x100))
  else if off < 0x106 then some (leByte e.causes.toNat (off - 0x104))
  else if off < 0x108 then some (leByte e.journal.head (off - 0x106))
  else if off < 0x10A then none
  else if off = 0x10A then some (boolByte e.journal.overrun)
  else if off = 0x10B then some e.dropped
  else if off < 0x10E then none
  else if off = 0x10E then some e.console.outcome.code
  else if off = 0x10F then some (slotByte e.console.answered)
  else if off = 0x110 then some e.mode.code
  else if off = 0x111 then some e.link.state.code
  else if off = 0x112 then some (byteOf e.orders.length)
  else if off = 0x113 then some (byteOf e.figures.length)
  else if off = 0x114 then some (slotByte e.figures.head)
  else if off < 0x120 then none
  else if off < 0x128 then some (byteOf (e.figures.counts[groupAt (off - 0x120)]))
  else if off < 0x130 then some (slotByte (e.figures.heads[groupAt (off - 0x128)]))
  else if off < 0x140 then some (leByte (e.group (groupAt ((off - 0x130) / 2))).estimate ((off - 0x130) % 2))
  else if off < 0x148 then some (byteOf (e.group (groupAt (off - 0x140))).count)
  else if off < 0x150 then some (boolByte (e.group (groupAt (off - 0x148))).overflow)
  else none

/-- The engine's current value of a region byte (R155): of an engine-owned byte outside the journal ring; none of any other. -/
def engineByte (e : Engine) (off : Nat) : Option Byte :=
  if off < 0x100 then none
  else if off < 0x200 then statusByte e off
  else if off < 0x300 then some (e.condition (byteOf (off - 0x200))).code
  else if off < 0x800 then none
  else if off < 0x1000 then
    (if (off - 0x800) % 32 < 24 then some ((e.slot (slotAt off)).byteAt ((off - 0x800) % 32)) else none)
  else none

/-- A read of every engine-owned byte outside the journal ring returns the engine's current value (R155). -/
def Current (s : State) : Prop := ∀ off b, engineByte s.eng off = some b → s.readOff off = b

/-- What reads return in `t` after an event that made the engine `e` from `s`: of a byte that is not the engine's the last value that
`others` posts to it, or what it returned; of an engine's byte its new value, or it kept its value and returns what it returned; below
the region, what memory held. -/
def Shown (s : State) (e : Engine) (others : List Post) (t : State) : Prop :=
  (∀ off, engineByte e off = none → t.readOff off = (lastPost others off).getD (s.readOff off))
    ∧ (∀ off b, engineByte e off = some b →
        t.readOff off = b ∨ (t.readOff off = s.readOff off ∧ engineByte s.eng off = some b))
    ∧ ∀ a, a < s.address 0 → t.settledRead a = s.settledRead a

/-- `t` is `s` after an event that made the engine `e`. Nothing but the engine, the posting queue and the memory side, which a post may
have taken at once (R158), differs; reads return what `Shown` says. -/
def Ran (s : State) (e : Engine) (others : List Post) (t : State) : Prop :=
  t = { s with eng := e, posts := t.posts, side := t.side } ∧ Shown s e others t

/-- The bytes that an append writes into the ring: none on a full ring (R164, R165, R168). -/
def recordPosts (e : Engine) (k : JournalKind) (sl a b : Byte) : List Post :=
  if e.journal.unread < Config.ringSize - 1 then
    postsAt (recordOff e.journal.head) ([k.code, sl, a, b] ++ leBytes e.time 4)
  else []

/-- A list of acts on an engine, with every post in order: an event that finds room for all its posts. -/
def applyActs : List Act → Engine → Engine × List Post
  | [], e => (e, [])
  | a :: as, e => ((applyActs as (a.effect e).1).1, (a.effect e).2 ++ (applyActs as (a.effect e).1).2)

/-- The posts `ps` made one after the other. -/
def State.postAll (s : State) (ps : List Post) : State := ps.foldl State.push s

/-- The state after an event that found room. -/
def State.after (s : State) (r : Engine × List Post) : State := { s.postAll r.2 with eng := r.1 }

/-- From `s` the command answers a next state: `s'` after an event that made the engine `e` and the posts `others`. -/
def Completes (c : Instr) (s s' : State) (e : Engine) (others : List Post) : Prop :=
  ∃ t, exec c s = .next t ∧ Ran s' e others t

/-! ### What several commands leave, as records -/

/-- The link as a frame begins (R131, R132, R133): RECEIVING with an empty buffer, the part waiting for SSTB, or with the byte that
the switch has strobed already taken and acknowledged. -/
def Link.receiving (l : Link) : Link :=
  { l with state := .receiving, rx := l.strobe.toList, rxNote := l.strobe.any badParity, abandoned := false, answer := none
           hand := if l.strobe.isSome then .sstbFall else .sstbRise }

/-- The link after the tests of an IDLE link (R131, R147): a switch claim makes the part a receiver; otherwise it claims when
an order waits and SRST reads deasserted. A link in another state is left as it is. -/
def Link.tested (l : Link) (orders : List Order) : Link :=
  if l.state = .idle then
    if l.scs then l.receiving
    else if orders ≠ [] ∧ l.srst = false then { l with state := .arbitrating, scc := true }
    else l
  else l

/-- The link after the exchange of an order has ended (R139): IDLE, and its tests made with the orders that are left. -/
def Link.exchangeEnded (l : Link) (rest : List Order) : Link :=
  Link.tested { l with state := .idle, scc := false, hand := .idle, tx := [], attempts := 0, inExchange := false, rx := []
                       rxNote := false, abandoned := false, answer := none } rest

/-- The journal's registers after an append (R165): a full ring keeps its records and sets the overrun flag. -/
def Journal.appended (j : Journal) : Journal :=
  if j.unread < 511 then { j with head := (j.head + 1) % 512 } else { j with overrun := true }

/-- The causes an append latches (R165, R166). -/
def Journal.appendCauses (j : Journal) (watermark : Nat) : BitVec 16 :=
  if j.unread < 511 then (if j.appended.unread = watermark then Cause.journalWatermark.mask else 0)
  else Cause.journalOverrun.mask

/-- The slot's flags with ORDER set. -/
def SlotFlags.withOrder (f : SlotFlags) : SlotFlags := { f with order := true }

/-- The slot's flags with ORDER clear. -/
def SlotFlags.noOrder (f : SlotFlags) : SlotFlags := { f with order := false }

/-- An order for a slot as it is queued (R142). -/
def Engine.newOrder (e : Engine) (i : SlotId) (k : OrderKind) (p : Purpose) : Order :=
  { kind := k, slot := i, callRef := (e.slot i).callRef, purpose := p }

/-- Nothing of the slot stands in the way of a request on it (R11): none in flight, no order outstanding, and the expected
state byte is 0xFF or the code of the slot's state (R15). -/
def Ready (s : State) (i : SlotId) : Prop :=
  (s.eng.slot i).request = none ∧ (s.eng.slot i).flags.order = false
    ∧ (s.readOff (slotOff i 25) = 0xFF ∨ s.readOff (slotOff i 25) = (s.eng.slot i).state.code)

/-- The talk path is free or the slot's own (R10). -/
def PathFree (e : Engine) (i : SlotId) : Prop := e.talkPath = none ∨ e.talkPath = some i

/-- A queue entry as it is kept for a return (R31, R32): its sampled flag is set at an exit that yields a sample. -/
def Entry.taken (y : Entry) : Entry := { y with sampled := y.sampled || y.cls != .recall }

/-- The service estimates after an entry's exit (R32, R112): a non-RECALL entry with its sampled flag clear yields one sample. -/
def Engine.monitorAfterExit (e : Engine) (y : Entry) : Vector GroupMonitor 8 :=
  if y.cls ≠ .recall ∧ y.sampled = false then
    e.monitor.set y.group
      { e.group y.group with
        estimate := updateEstimate (e.group y.group).estimate (min (e.time - y.time) 65535) (e.setup.group y.group).shift }
  else e.monitor

/-- A slot timer suspended on its deadline (R100); no timer stays none. -/
def Timer.suspended (t : Timer) : Timer := if t.kind = .none then t else { t with running := false }

/-- A slot's flags as its timer is suspended (R100). -/
def Slot.flagsSuspended (x : Slot) : SlotFlags := if x.timer.kind = .none then x.flags else { x.flags with timer := false }

/-- The queue without a slot's entry. -/
def Engine.queueWithout (e : Engine) (i : SlotId) : List Entry := e.queue.filter (·.slot != i)

/-- The camp lists without a slot. -/
def Engine.campsWithout (e : Engine) (i : SlotId) : List (Byte × SlotId) := e.camps.filter (·.2 != i)

/-- A slot request that leaves only an order and PENDING (R53, R75, R82, R83, R84). -/
def State.orderTaken (s : State) (i : SlotId) (c : SlotReq) (k : OrderKind) : Engine :=
  { s.eng with
    slots := s.eng.slots.set i
      { s.eng.slot i with request := some ((s.slotOperands i).copied c), outcome := .pending
                          flags := (s.eng.slot i).flags.withOrder }
    orders := s.eng.orders ++ [s.eng.newOrder i k (.slotRequest c)]
    link := s.eng.link.tested (s.eng.orders ++ [s.eng.newOrder i k (.slotRequest c)]) }

/-- A slot as it enters a timed state (R99): its timer runs to the deadline, which is posted, or with a duration of 0 it has none. -/
def Engine.timed (e : Engine) (x : Slot) (k : TimerKind) (st : SlotState) : Slot :=
  if e.setup.durationOf k = 0 then { x with state := st, timer := Timer.off, flags := { x.flags with timer := false } }
  else
    { x with state := st, timer := { kind := k, running := true, deadline := min (e.time + e.setup.durationOf k) 4294967295 }
             deadline := min (e.time + e.setup.durationOf k) 4294967295, flags := { x.flags with timer := true } }

/-- The service estimates after a slot's entry, if it has one, has left the queue (R32). -/
def Engine.monitorWithout (e : Engine) (i : SlotId) : Vector GroupMonitor 8 :=
  match e.entryOf i with
  | none => e.monitor
  | some y => e.monitorAfterExit y

/-- The engine after a RELEASE has been taken on a slot (R58, R13, R14): LEAVING, out of the queue and the camp lists, without a
timer and without the talk path, the RELEASE in flight and PENDING. `f` are the slot's flags, `os` and `l` the orders and the
link that are left. -/
def State.releaseTaken (s : State) (i : SlotId) (f : SlotFlags) (os : List Order) (l : Link) : Engine :=
  { s.eng with
    slots := s.eng.slots.set i
      { s.eng.slot i with
        state := .leaving
        ret := if (s.eng.slot i).state = .leaving then (s.eng.slot i).ret else some (s.eng.slot i).state
        kept := none
        timer := Timer.off
        flags := f
        request := some ((s.slotOperands i).copied .release)
        outcome := .pending }
    talkPath := if s.eng.talkPath = some i then none else s.eng.talkPath
    queue := s.eng.queueWithout i
    figures := figuresOf (s.eng.queueWithout i)
    camps := s.eng.campsWithout i
    monitor := s.eng.monitorWithout i
    orders := os
    link := l }

/-- The link after a slot's queued order has been removed: a head order that leaves takes its attempt count with it (R143). -/
def Engine.linkWithout (e : Engine) (i : SlotId) : Link :=
  { e.link with attempts := if (e.ordersWithout i).head? = e.orders.head? then e.link.attempts else 0 }

/-- NONE posted into a slot's request code byte (R19). -/
def slotNone (i : SlotId) : List Post := [{ off := slotOff i 24, val := 0 }]

/-- NONE posted into the console request byte (R64). -/
def consoleNonePost : List Post := [{ off := consoleReqOff, val := 0 }]

/-- A waiting slot's departure under an engine-initiated DIVERT (R45, R123): out of the queue, its entry kept, a sample taken. -/
def Engine.divertedWaiting (e0 e : Engine) (y : Entry) (dest : Byte) (p : Purpose) : Engine :=
  { e with
    slots := e.slots.set y.slot
      { e.slot y.slot with state := .leaving, ret := some (e0.slot y.slot).state, kept := some y.taken
                           flags := (e.slot y.slot).flags.withOrder }
    queue := e.queueWithout y.slot
    monitor := e.monitorAfterExit y
    orders := e.orders ++ [e.newOrder y.slot (.divert dest) p]
    link := e.link.tested (e.orders ++ [e.newOrder y.slot (.divert dest) p]) }

/-- The link takes a frame's bytes (R133, R136): the frame is neither given up nor decided. -/
def Receiving (l : Link) : Prop := l.state = .receiving ∧ l.abandoned = false ∧ l.answer = none

/-- The link as the part becomes the sender of bytes (R128): with SACK asserted it waits, otherwise it raises SSTB over the first. -/
def Link.sending (l : Link) (bytes : List LinkByte) : Link :=
  { l with tx := bytes, hand := if l.sackIn = true then .sackLow else .sackRise }

/-- The link after a report's last byte (R133, R134, R135): the frame in the buffer and the status given; with SSTB deasserted
ANSWERING, the part sending the status byte, otherwise SACK raised until SSTB drops. -/
def Link.answered (l : Link) (frame : List LinkByte) (note : Bool) (st : Status) : Link :=
  if l.strobe = none then
    Link.sending { l with state := .answering, rx := frame, rxNote := note, answer := some st } [withParity (statusCode st)]
  else { l with rx := frame, rxNote := note, answer := some st, hand := .sstbFall }

/-- The engine after a slot has been freed (R6): the slot is as `x`, its attachments are gone. -/
def Engine.without (e : Engine) (i : SlotId) (x : Slot) : Engine :=
  { e with
    slots := e.slots.set i x
    refMap := e.refMap.filter (·.2 != i)
    talkPath := if e.talkPath = some i then none else e.talkPath
    queue := e.queueWithout i
    camps := e.campsWithout i
    orders := e.ordersWithout i
    link := e.linkWithout i }

/-- The order in exchange whose status is awaited, and the orders behind it (R138); no RELEASE is deferred on it. -/
def Awaits (s : State) (o : Order) (rest : List Order) : Prop :=
  s.eng.link.state = .awaitStatus ∧ s.eng.link.inExchange = true ∧ s.eng.orders = o :: rest
    ∧ (s.eng.slot o.slot).flags.deferred = false

/-- The engine as the exchange of its head order ends with the slot freed (R139, R6): the slot is as `x`. -/
def Engine.closedWithout (e : Engine) (i : SlotId) (rest : List Order) (x : Slot) : Engine :=
  { e.without i x with
    orders := rest.filter (·.slot != i), link := e.link.exchangeEnded (rest.filter (·.slot != i)) }

/-- The row that a status for the order comes in on with no RELEASE deferred (R138): one row for each purpose. -/
def Order.statusRow (o : Order) (st : Status) : Instr :=
  match o.purpose with
  | .slotRequest .answer => .answerOrderStatus st
  | .slotRequest .hold => .holdOrderStatus st
  | .slotRequest .retrieve => .retrieveOrderStatus st
  | .slotRequest .extend => if o.kind = .hold .camp then .campHoldStatus st else .extendOrderStatus st
  | .slotRequest .complete => .joinOrderStatus st
  | .slotRequest .cancel => .dropDestOrderStatus st
  | .slotRequest .swap => .swapOrderStatus st
  | .slotRequest .release => .releaseOrderStatus st
  | .slotRequest .divert => .divertOrderStatus st
  | .answerNext => .answerNextOrderStatus st
  | .campWake => .campWakeStatus st
  | .recallLeg => .recallLegStatus st
  | .night => .nightDivertStatus st
  | .nightExpiry => .nightExpiryDivertStatus st
  | .shed => .shedDivertStatus st

/-- A slot timer that resumes on its deadline (R100); no timer stays none. -/
def Timer.resumed (t : Timer) : Timer := if t.kind = .none then t else { t with running := true }

/-- A slot's flags as its timer resumes (R100). -/
def Slot.flagsResumed (x : Slot) : SlotFlags := if x.timer.kind = .none then x.flags else { x.flags with timer := true }

/-- A slot as it enters RECALLING (R103): the count up to 255, the entry's time and rank, and no timer. -/
def Engine.recalling (e : Engine) (x : Slot) : Slot :=
  { x with state := .recalling, timer := Timer.off, flags := { x.flags with timer := false }, recalls := min (x.recalls + 1) 255
           entryTime := e.time, rank := e.time - e.setup.aRec }

/-- The answer queue after a slot has entered RECALLING (R30, R103). -/
def Engine.queueRecalled (e : Engine) (i : SlotId) : List Entry :=
  insertEntry { slot := i, group := (e.slot i).group, cls := .recall, time := e.time, rank := e.time - e.setup.aRec
                sampled := false } e.queue

/-- A status other than ACCEPT, NO_CALL and PARITY: a rejection (R50). -/
def Rejects (st : Status) : Prop := st ≠ .accept ∧ st ≠ .noCall ∧ st ≠ .parity

/-! ### Events whose posts the queue does not hold at once -/

/-- `n` entries drain, each room going to the event that waits for it (R154, R157). -/
def drained : Nat → State → State
  | 0, s => s
  | n + 1, s => drained n (drainOne s)

/-- Every event that waits, waits for room, and a part that is RUNNING holds no access (R157, R163). -/
def OnlyForRoom (s : State) : Prop := (s.phase = .running → s.held = []) ∧ ∀ w ∈ s.waiting, w.bytes ≠ [] ∧ w.acts ≠ []

/-- Of the field of `width` bytes at `base` the event has made the post of the lowest byte and waits for room with that of the highest. -/
def Waiting.HalfPosted (w : Waiting) (base width : Nat) : Prop :=
  (∃ p ∈ w.bytes, p.off = base + width - 1) ∧ ∀ p ∈ w.bytes, p.off ≠ base

/-- An act by which an entry joins the answer queue. -/
def Act.joins : Act → Bool
  | .enqueue _ => true
  | _ => false

/-- The posting queue as it always is: at most its capacity, one entry an address (R153); and memory in its canonical form. -/
def Tidy (s : State) : Prop :=
  memWf s.mem = true ∧ (s.posts.map (·.off)).Nodup ∧ s.posts.length ≤ Config.postingCapacity

/-- `u` is `s` after an event that made the engine `e` has made all its posts. Nothing but the engine, the posting queue, memory
and the memory side differs; reads return what `Shown` says. -/
def Finished (s : State) (e : Engine) (others : List Post) (u : State) : Prop :=
  u = { s with eng := e, posts := u.posts, mem := u.mem, side := u.side } ∧ Shown s e others u

/-- From `s` the command answers a next state, and when enough entries have drained the event has made all its posts. -/
def Finishes (c : Instr) (s s' : State) (e : Engine) (others : List Post) : Prop :=
  ∃ t n, exec c s = .next t ∧ Finished s' e others (drained n t)

/-- The pieces of an event in order, each decided on the engine as it then stands: those that are no processor access and no
part of start-up. -/
def Job.actsOn (e : Engine) : Job → List Act
  | .clock => [.advanceTime, .testTimers]
  | .expire => expireNext e
  | .evaluate g => evaluateGroup e g
  | .command c => rowActs c e
  | .line m => lineActs m e
  | .resetDue =>
    match e.link.resetDue with
    | some c => linkResetActs e c
    | none => []
  | .leaveReset => leaveResetting e
  | .access _ | .setupLoad | .sweep | .startupEnd => []

/-- The engine and the posts after pieces in order. -/
def applyJobs : List Job → Engine → Engine × List Post
  | [], e => (e, [])
  | j :: js, e =>
    ((applyJobs js (applyActs (j.actsOn e) e).1).1,
      (applyActs (j.actsOn e) e).2 ++ (applyJobs js (applyActs (j.actsOn e) e).1).2)

/-! ### The link -/

/-- The number of bytes of a frame by its kind byte: an OFFER has 7, a STATION 5, any other 3 (R133, 11.6). -/
def bytesOf (kind : Byte) : Nat := if kind = 0x81 then 7 else if kind = 0x85 then 5 else 3

/-- The bytes taken are fewer than the kind byte says (R133). -/
def Short (frame : List LinkByte) : Prop := ∃ k bs, frame = k :: bs ∧ frame.length < bytesOf k.data

/-- A whole frame and the row it comes in on (R133, R134, 11.6): the call reference and the caller tag have their low byte first. -/
def FrameRow (frame : List LinkByte) (c : Instr) : Prop :=
  (∃ k bs, frame = k :: bs ∧ frame.length = bytesOf k.data ∧ (∃ b ∈ frame, badParity b = true) ∧ c = .parityErrorFrame frame)
    ∨ ∃ (bytes : List Byte) (k lo hi : Byte), frame = bytes.map withParity ∧
      ((∃ g cls t0 t1 : Byte, bytes = [0x81, lo, hi, g, cls, t0, t1] ∧ c = .offer (hi ++ lo) g cls (t1 ++ t0))
        ∨ (bytes = [0x82, lo, hi] ∧ c = .cleared (hi ++ lo))
        ∨ (bytes = [0x83, lo, hi] ∧ c = .destAnswer (hi ++ lo))
        ∨ (bytes = [0x84, lo, hi] ∧ c = .destCleared (hi ++ lo))
        ∨ (∃ st cond : Byte, bytes = [0x85, lo, hi, st, cond] ∧ c = .station (hi ++ lo) st cond)
        ∨ (bytes = [k, lo, hi] ∧ (k.toNat < 0x81 ∨ 0x85 < k.toNat) ∧ c = .unknownKind k (hi ++ lo)))

/-- A link unit falls: the next period begins with the values in use (R96). -/
def Engine.atLinkUnit (e : Engine) : Engine :=
  { e with linkPeriod := { prescaler := e.setup.prescaler, divider := e.setup.linkDivider } }

/-- The link as an attempt of its order fails (R140, steps 1 to 3): the claim dropped, nothing sent or held, the order no longer
in exchange, the count risen. -/
def Link.failed (l : Link) : Link :=
  { l with scc := false, hand := .idle, tx := [], inExchange := false, attempts := l.attempts + 1, rx := [], rxNote := false
           abandoned := false, answer := none }

/-- A command by which an attempt fails at the state, and the engine it fails on (R128, R138, R140). -/
def FailsAttempt (c : Instr) (s : State) (e : Engine) : Prop :=
  (c = .linkWaitTimeout ∧ (s.eng.link.state = .sending ∨ s.eng.link.state = .awaitStatus)
      ∧ s.eng.link.hand ≠ .idle ∧ s.eng.link.hand ≠ .handling ∧ e = s.eng.atLinkUnit)
    ∨ (∃ b : LinkByte, c = .statusByteFailedAttempt b ∧ s.eng.link.state = .awaitStatus ∧ e = s.eng
        ∧ (badParity b = true ∨ b.data = 0 ∨ b.data = 12 ∨ 13 < b.data.toNat))
    ∨ ∃ o rest, s.eng.link.state = .awaitStatus ∧ s.eng.link.inExchange = true ∧ s.eng.orders = o :: rest ∧ e = s.eng
        ∧ (((o.kind = .hold .camp → o.purpose = .slotRequest .extend) ∧ c = o.statusRow .parity)
          ∨ ((s.eng.slot o.slot).flags.deferred = true ∧ c = .deferredReleaseStatus .parity))

/-- A slot has something to complete at a link reset: a request in flight, or a slot request whose exchanged order a RELEASE
waits behind (R25, R14). -/
def Engine.endsAtReset (e : Engine) (i : SlotId) : Bool :=
  (e.slot i).state != .free
    && ((e.slot i).request.isSome
      || ((e.slot i).flags.deferred
        && (match e.orderOf i with
            | some { purpose := .slotRequest _, .. } => true
            | _ => false)))

/-- A slot after a link reset: freed, its request completed LINK_RESET (R25, R6). -/
def Engine.slotAfterReset (e : Engine) (i : SlotId) : Slot :=
  if (e.slot i).state = .free then e.slot i
  else
    { (e.slot i).freed with request := none
                            outcome := if e.endsAtReset i then .linkReset else (e.slot i).outcome }

/-- The causes that a link reset's completions latch (R25, R49). -/
def Engine.resetCauses (e : Engine) : BitVec 16 :=
  (if (allSlots.any fun i => e.endsAtReset i) = true then Cause.requestDone.mask else 0)
    ||| (if e.console.inFlight = some .answerNext then Cause.consoleDone.mask else 0)

/-- The blocks after a link reset (R145, R25, R49, R95, R126): whatever named a slot that was not FREE is gone, the queue without
samples, an ANSWER_NEXT in flight ends, the stations are UNKNOWN, no group is in overflow, and console time, mode, estimates,
setup and pending attention stay. -/
def Engine.afterLinkReset (e : Engine) : Engine :=
  { e with
    slots := Vector.ofFn e.slotAfterReset
    refMap := e.refMap.filter fun p => (e.slot p.2).state == .free
    talkPath := e.talkPath.filter fun i => (e.slot i).state == .free
    queue := e.queue.filter fun y => (e.slot y.slot).state == .free
    figures := figuresOf (e.queue.filter fun y => (e.slot y.slot).state == .free)
    console := if e.console.inFlight = some .answerNext then { e.console with inFlight := none, outcome := .linkReset }
      else e.console
    stations := Vector.replicate 256 .unknown
    camps := e.camps.filter fun p => (e.slot p.2).state == .free
    monitor := e.monitor.map fun m => { m with count := 0, overflow := false }
    orders := []
    link := { e.link with state := .resetting, scc := false, hand := .idle, tx := [], attempts := 0, inExchange := false, rx := []
                          rxNote := false, abandoned := false, answer := none, resetDue := none }
    journal := e.journal.appended
    causes := e.causes ||| e.resetCauses ||| e.journal.appendCauses e.setup.watermark ||| Cause.linkReset.mask }

/-- The posts of a link reset into bytes that are not the engine's: NONE for each request that ends, and the record. -/
def Engine.resetPosts (e : Engine) (c : ResetCause) : List Post :=
  (allSlots.flatMap fun i => if (e.slot i).state ≠ .free ∧ (e.slot i).request.isSome then slotNone i else [])
    ++ (if e.console.inFlight = some .answerNext then consoleNonePost else [])
    ++ recordPosts e .linkReset 0xFF c.code 0

/-- RUNNING, with nothing waiting and no access held: what `Quiet` asks but for what is handed over or due. -/
def Running (s : State) : Prop := s.phase = .running ∧ s.waiting = [] ∧ s.held = []

/-! ### Ticks -/

/-- A slot under an engine-initiated DIVERT to the night destination (R108): LEAVING from its state, its timer suspended. -/
def Engine.nightDiverted (e : Engine) (i : SlotId) : Engine :=
  { e with
    slots := e.slots.set i
      { e.slot i with state := .leaving, ret := some (e.slot i).state, timer := (e.slot i).timer.suspended
                      flags := (e.slot i).flagsSuspended.withOrder }
    camps := e.campsWithout i
    orders := e.orders ++ [e.newOrder i (.divert e.setup.nightDest) .nightExpiry]
    link := e.link.tested (e.orders ++ [e.newOrder i (.divert e.setup.nightDest) .nightExpiry]) }

/-- A slot that becomes RECALLING at an expiry, with the camp lists that are left (R103, R104). -/
def Engine.recalledSlot (e : Engine) (i : SlotId) (camps : List (Byte × SlotId)) : Engine :=
  { e with
    slots := e.slots.set i (e.recalling (e.slot i))
    camps := camps
    queue := e.queueRecalled i
    figures := figuresOf (e.queueRecalled i)
    journal := e.journal.appended
    causes := e.causes ||| e.journal.appendCauses e.setup.watermark ||| Cause.recall.mask }

/-- A RINGING_OUT slot whose leg is asked back at an expiry (R105). -/
def Engine.legRecalled (e : Engine) (i : SlotId) : Engine :=
  { e with
    slots := e.slots.set i
      { e.slot i with timer := (e.slot i).timer.suspended, flags := (e.slot i).flagsSuspended.withOrder }
    orders := e.orders ++ [e.newOrder i .recallLeg .recallLeg]
    link := e.link.tested (e.orders ++ [e.newOrder i .recallLeg .recallLeg]) }

/-- A slot's expiry on the mode as it stands, with the record it makes (R102, R104, R105, R108). A timer that does not run does
not expire. -/
def Engine.expiredSlot (e : Engine) (i : SlotId) : Engine × List Post :=
  if (e.slot i).timer.running = false then (e, [])
  else
    match e.mode, (e.slot i).timer.kind with
    | .night, _ => (e.nightDiverted i, [])
    | .day, .hold => (e.recalledSlot i e.camps, recordPosts e .recalled (byteOf i.val) 0 0)
    | .day, .camp => (e.recalledSlot i (e.campsWithout i), recordPosts e .recalled (byteOf i.val) 1 0)
    | .day, .noans => (e.legRecalled i, [])
    | .day, .none => (e, [])

/-- The expiry at the head of those handed over (R102). -/
def Engine.expired (e : Engine) : Engine × List Post :=
  match e.due with
  | [] => (e, [])
  | i :: rest => ({ e with due := rest } : Engine).expiredSlot i

/-- A group after its evaluation at a tick (R117, R121, R123): count and state, the OVERFLOW record of a change, and under
SHED_OLDEST the group's oldest offered entry shed. With the last group the tick has been evaluated. -/
def Engine.evaluatedGroup (e : Engine) (g : GroupId) : Engine × List Post :=
  let r := e.evaluated g
  let turned := r.2 != (e.group g).overflow
  let e1 : Engine :=
    { e with monitor := e.monitor.set g { e.group g with count := r.1, overflow := r.2 }
             journal := if turned then e.journal.appended else e.journal
             causes := if turned then
                 e.causes ||| e.journal.appendCauses e.setup.watermark ||| Cause.overflowChange.mask
               else e.causes
             ticks := if g.val = 7 then e.ticks.tail else e.ticks }
  let posts := if turned then recordPosts e .overflow 0xFF (byteOf g.val) (boolByte r.2) else []
  if r.2 && (e.setup.group g).policy == .shedOldest then
    match (e.oldestOffered g).bind fun x => e.entryOf x.slot with
    | none => (e1, posts)
    | some y =>
      ({ e.divertedWaiting e1 y (e.setup.group g).dest .shed with figures := figuresOf (e.queueWithout y.slot) }, posts)
  else (e1, posts)

/-- Decisions one after the other, their posts in order. -/
def inTurn {α : Type} (f : α → Engine → Engine × List Post) : List α → Engine → Engine × List Post
  | [], e => (e, [])
  | a :: as, e => ((inTurn f as (f a e).1).1, (f a e).2 ++ (inTurn f as (f a e).1).2)

/-- Console time at the next tick: one more, but not past its limit (R97). -/
def Engine.nextTime (e : Engine) : Nat := if e.time < 4294967295 then e.time + 1 else e.time

/-- Console time after a tick (R97), the tick period that begins (R96), the time it brings the service monitor (R117), and the expiries
the timer unit hands over, lowest slot first (R102). -/
def Engine.ticked (e : Engine) : Engine :=
  { e with
    time := e.nextTime
    ticks := e.ticks ++ [e.nextTime]
    tickPeriod := { prescaler := e.setup.prescaler, divider := e.setup.tickDivider }
    due := allSlots.filter fun i => (e.slot i).timer.running && decide ((e.slot i).timer.deadline ≤ e.nextTime) }

/-! ### Setup and start-up -/

/-- The value that a field's bytes spell, lowest first (R172). -/
def SetupField.valueOf (f : SetupField) (byte : Nat → Byte) : Nat :=
  if f.width = 1 then (byte f.off).toNat else (byte f.off).toNat + 256 * (byte (f.off + 1)).toNat

/-- What the service monitor does as a field is taken: a duration below the count clamps the count (R120). -/
def Engine.monitorTaking (e : Engine) : SetupField → Nat → Vector GroupMonitor 8
  | .duration g, v => e.monitor.set g { e.group g with count := min (e.group g).count v }
  | _, _ => e.monitor

/-- The values in use after every field has been taken (R174). -/
def setupOf (value : SetupField → Nat) : Setup := valueFields.foldl (fun st f => st.take f (value f)) Setup.default

/-- The setup unit's copies with fields stored in them, in order (R173, R174). -/
def Engine.storing (e : Engine) (value : SetupField → Nat) (fs : List SetupField) : Engine :=
  fs.foldl (fun e f => e.setField f (value f)) e

/-- The posts of fields' bytes, in order (R173, R174). -/
def fieldPosts (value : SetupField → Nat) (fs : List SetupField) : List Post :=
  fs.flatMap fun f => postsAt f.off (leBytes (value f) f.width)

/-- The access as the processor makes it. -/
def Access.command : Access → Instr
  | .write addr v => .processorWrite addr v
  | .read addr => .snapshot addr

/-- The blocks as the end of start-up finds them before the link controller reads SRST: the recorded clamp latched and the dividers
started (R176). -/
def Engine.started (e : Engine) : Engine :=
  { e with
    causes := if e.clampNoted then e.causes ||| Cause.setupClamped.mask else e.causes
    clampNoted := false
    tickPeriod := { prescaler := e.setup.prescaler, divider := e.setup.tickDivider }
    linkPeriod := { prescaler := e.setup.prescaler, divider := e.setup.linkDivider } }

/-! ### What every step keeps -/

/-- Memory in its canonical form; the posting queue within its capacity with one entry an address (R153), and empty at a free memory
side, which an entry that is ready takes at once (R158); the answer queue in rank order (R27); the cause word's and the enable word's bits 13 to 15 clear (R169, R178); head and tail within the ring (R164);
console time within its limit (R97). -/
def Inv (s : State) : Prop :=
  Tidy s ∧ (s.side = .free → s.posts = [])
    ∧ s.eng.queue.Pairwise (fun x y => x.rank ≤ y.rank)
    ∧ (∀ b, 13 ≤ b → s.eng.causes.getLsbD b = false ∧ s.eng.setup.attnEnable.getLsbD b = false)
    ∧ s.eng.journal.head < 512 ∧ s.eng.journal.tail < 512 ∧ s.eng.time ≤ 4294967295

/-! ### How calls stand between events -/

/-- The kinds of slot timer that a state has (R99). -/
def SlotState.timerKind : SlotState → TimerKind
  | .held => .hold
  | .ringingOut => .noans
  | .camped => .camp
  | _ => .none

/-- The kinds of order that serve a purpose (R45, R51, R53, R55, R58, R60, R75, R80, R82, R83, R84, R92, R105, R108, R123). -/
def Purpose.Orders : Purpose → OrderKind → Prop
  | .slotRequest .answer, k | .answerNext, k => k = .answer ∨ k = .retrieve
  | .slotRequest .hold, k => k = .hold .music
  | .slotRequest .retrieve, k => k = .retrieve
  | .slotRequest .extend, k => (∃ st sc ov, k = .extend st sc ov) ∨ k = .hold .camp
  | .slotRequest .complete, k => k = .join
  | .slotRequest .cancel, k => k = .dropDest
  | .slotRequest .swap, k => k = .swap
  | .slotRequest .release, k => k = .release
  | .slotRequest .divert, k | .night, k | .nightExpiry, k | .shed, k => ∃ d, k = .divert d
  | .campWake, k => ∃ st, k = .extend st false false
  | .recallLeg, k => k = .recallLeg

/-- The slot waits on nothing: no request in flight, no order outstanding. -/
def Engine.Unasked (e : Engine) (i : SlotId) : Prop := (e.slot i).request = none ∧ e.orderOf i = none

/-- The slot's order is outstanding for its request in flight, whose code is `c` (R18, R20). -/
def Engine.Asks (e : Engine) (i : SlotId) (c : SlotReq) : Prop :=
  (∃ r, (e.slot i).request = some r ∧ r.code = c) ∧ ∃ o, e.orderOf i = some o ∧ o.purpose = .slotRequest c

/-- The slot's order is outstanding for the part's own work or for an ANSWER_NEXT, and no request is in flight. -/
def Engine.Worked (e : Engine) (i : SlotId) (ps : List Purpose) : Prop :=
  (e.slot i).request = none ∧ ∃ o, e.orderOf i = some o ∧ o.purpose ∈ ps

/-- The slot may go back to where it came from: its return state, the entry kept for a return into the queue, and the timer
suspended for a return into a timed state (R21, R31, R100). -/
def Engine.MayReturn (e : Engine) (i : SlotId) : Prop :=
  ∃ r, (e.slot i).ret = some r ∧ r ∈ [SlotState.offered, .recalling, .held, .ringingOut, .camped]
    ∧ (r = .offered ∨ r = .recalling → ∃ y, (e.slot i).kept = some y ∧ y.slot = i ∧ y.group = (e.slot i).group)
    ∧ ((e.slot i).timer.kind = .none ∨ (e.slot i).timer.kind = r.timerKind)

/-- What may be outstanding for a slot in each state (R1, R12 to R16, R20, R26). -/
def Engine.Outstanding (e : Engine) (i : SlotId) : Prop :=
  if (e.slot i).flags.deferred = true then
    (e.slot i).state = .leaving ∧ (∃ r, (e.slot i).request = some r ∧ r.code = .release)
      ∧ (∃ o, e.orderOf i = some o ∧ o.purpose ≠ .slotRequest .release)
      ∧ (e.orderInExchange i = true ∨ e.link.resetDue.isSome = true)
  else
    match (e.slot i).state with
    | .free | .offered | .recalling | .held => e.Unasked i
    | .connecting =>
      e.MayReturn i ∧ (e.Asks i .retrieve ∨ ((e.Asks i .answer ∨ e.Worked i [.answerNext])
        ∧ ((e.slot i).ret = some .offered ∨ (e.slot i).ret = some .recalling)))
    | .talking => e.Unasked i ∨ e.Asks i .hold ∨ e.Asks i .extend
    | .consulting => e.Unasked i ∨ e.Asks i .complete ∨ e.Asks i .cancel ∨ e.Asks i .swap
    | .ringingOut => e.Unasked i ∨ e.Worked i [.recallLeg]
    | .camped => e.Unasked i ∨ e.Worked i [.campWake]
    | .leaving =>
      e.Asks i .release ∨ ((e.Asks i .divert ∨ e.Worked i [.night, .nightExpiry, .shed]) ∧ e.MayReturn i)

/-- A slot's place in the shared collections follows its state: the call reference map (R7), the talk path (R9), the order queue
(R20), the answer queue (R26), the camp lists (R91) and the timers (R98, R100). -/
def Engine.Placed (e : Engine) (i : SlotId) : Prop :=
  let x := e.slot i
  (∀ ref, (ref, i) ∈ e.refMap ↔ x.state ≠ .free ∧ x.callRef = ref)
    ∧ (e.talkPath = some i ↔ x.state ∈ [SlotState.connecting, .talking, .consulting])
    ∧ (x.flags.order = true ↔ (e.orderOf i).isSome = true)
    ∧ ((∃ y ∈ e.queue, y.slot = i) ↔ x.state = .offered ∨ x.state = .recalling)
    ∧ (∀ st, (st, i) ∈ e.camps ↔ x.state = .camped ∧ x.dest = st)
    ∧ x.flags.timer = x.timer.running
    ∧ (x.timer.running = true → x.timer.kind ≠ .none ∧ e.orderOf i = none)
    ∧ (x.state ∈ [SlotState.held, .ringingOut, .camped] → x.timer.kind = .none ∨ x.timer.kind = x.state.timerKind)
    ∧ (x.state ∉ [SlotState.held, .ringingOut, .camped, .connecting, .leaving] → x.timer.kind = .none)

/-- The handshake of a byte belongs to a link state (R127, R131): the part sends in SENDING and ANSWERING, and takes bytes in
RECEIVING and AWAIT_STATUS, not of a frame that it has given up. Before the last byte of a frame the receive buffer holds fewer bytes
than its kind byte says (R133). A status that the owner has given is kept only while a report is answered. -/
def Link.Shaking (l : Link) : Prop :=
  (l.abandoned = true → l.state = .receiving ∧ l.hand = .idle) ∧
  match l.hand with
  | .idle => l.answer.isSome = true → l.state = .answering
  | .sackLow | .sackRise | .sackFall => (l.state = .sending ∧ l.answer = none) ∨ l.state = .answering
  | .sstbRise =>
    (l.state = .receiving ∨ l.state = .awaitStatus) ∧ l.answer = none ∧ (l.state = .receiving → l.rx = [] ∨ Short l.rx)
  | .sstbFall => (l.state = .receiving ∧ (l.answer = none → Short l.rx)) ∨ (l.state = .awaitStatus ∧ l.answer = none)
  | .handling => False

/-- The state between events, with no event waiting: every slot's place and what is outstanding for it as its state says; no call
reference, slot or order twice (R7, R20, R26, R91); each order serves its purpose and names its slot's call (R130); the exchange
of the head order belongs to a link that sends it or awaits its status (R137), and a line SRST that
reads asserted to a link reset done or due (R144); no count is above its duration (R111); accesses are held in start-up only (R163), and no tick is
half evaluated. -/
def Settled (s : State) : Prop :=
  let e := s.eng
  s.waiting = []
    ∧ (∀ i, e.Placed i ∧ e.Outstanding i)
    ∧ (e.refMap.map (·.1)).Nodup ∧ (∀ p ∈ e.refMap, p.1 ≠ 0)
    ∧ (e.orders.map (·.slot)).Nodup ∧ (e.queue.map (·.slot)).Nodup ∧ (e.camps.map (·.2)).Nodup
    ∧ (∀ y ∈ e.queue, y.group = (e.slot y.slot).group)
    ∧ (∀ o ∈ e.orders, o.purpose.Orders o.kind ∧ o.callRef = (e.slot o.slot).callRef)
    ∧ (e.link.inExchange = true → e.orders ≠ [] ∧ (e.link.state = .sending ∨ e.link.state = .awaitStatus))
    ∧ (s.phase = .running → e.link.srst = true → e.link.state = .resetting ∨ e.link.resetDue.isSome = true)
    ∧ (∀ g, (e.group g).count ≤ (e.setup.group g).duration)
    ∧ e.link.Shaking
    ∧ (s.phase ≠ .running →
      e.link.state = .offline ∧ e.link.inExchange = false ∧ e.link.hand = .idle ∧ ∀ g, (e.group g).count = 0)
    ∧ (s.phase = .inReset → s.posts = [] ∧ s.side = .free) ∧ (s.phase = .inReset ∨ s.phase = .running → s.held = [])
    ∧ e.ticks = []

end Sys2Proof.Machine
end

