-- ==== Sys2Proof/Certificates/Slice0/Obligations.lean ====
section
/-!
DEFINITION. The statements for the provers. A command is stated at a part that is free to take an event (`Quiet`) with room in
the posting queue (`Room`): it answers a next state that differs only in the engine, which is written out as one record, and
in the posts, which bring every byte of the region that the event changed to its new value (`Completes`, `Ran`).
-/
open Sys2Proof.Machine
open Sys2Proof (Instr Byte SlotId GroupId Status LinkByte)

/-- The command at the front of the queue is taken and run on the rest. With no command waiting, the switch's next change of SACK or
SSTB reaches the link (R128), and with none of these either the part idles: that commands and line changes come from two queues in this
order is the model's choice (logs 1 and 14). -/
def Obligations.StepTakesTheFrontCommand : Prop :=
  (∀ (c : Instr) (rest : List Instr) (s : State), s.pending = c :: rest → step s = exec c { s with pending := rest })
    ∧ (∀ (m : LineMove) (rest : List LineMove) (s : State), s.pending = [] → s.moves = m :: rest →
      step s = .next (lineMove m { s with moves := rest }))
    ∧ ∀ s : State, s.pending = [] → s.moves = [] → step s = .next s

/-- HOLD, COMPLETE, SWAP and CANCEL in CONSULTING: an order and PENDING, the slot otherwise as it was (R53, R82, R83, R84). -/
def Obligations.OrderOnlyRequestsTaken : Prop :=
  ∀ (i : SlotId) (s : State), Open s → Room 40 s → Ready s i →
    ((s.eng.slot i).state = .talking →
      Completes (.hold i) s (s.writeOff (slotOff i 24) 2) (s.orderTaken i .hold (.hold .music)) [])
    ∧ ((s.eng.slot i).state = .consulting → (s.eng.slot i).leg ≠ .absent →
      Completes (.complete i) s (s.writeOff (slotOff i 24) 5) (s.orderTaken i .complete .join) [])
    ∧ ((s.eng.slot i).state = .consulting →
      Completes (.cancel i) s (s.writeOff (slotOff i 24) 6) (s.orderTaken i .cancel .dropDest) [])
    ∧ ((s.eng.slot i).state = .consulting → (s.eng.slot i).leg = .talking →
      Completes (.swap i) s (s.writeOff (slotOff i 24) 7) (s.orderTaken i .swap .swap) [])

/-- ANSWER of a waiting slot (R51, R31, R32, R9). -/
def Obligations.AnswerTaken : Prop :=
  ∀ (i : SlotId) (y : Entry) (s : State), Open s → Room 40 s → Ready s i → PathFree s.eng i →
    ((s.eng.slot i).state = .offered ∨ (s.eng.slot i).state = .recalling) → s.eng.entryOf i = some y →
    let k : OrderKind := if (s.eng.slot i).state = .offered then .answer else .retrieve
    let os := s.eng.orders ++ [s.eng.newOrder i k (.slotRequest .answer)]
    Completes (.answer i) s (s.writeOff (slotOff i 24) 1)
      { s.eng with
        slots := s.eng.slots.set i
          { s.eng.slot i with state := .connecting, request := some ((s.slotOperands i).copied .answer), outcome := .pending
                              ret := some (s.eng.slot i).state, kept := some y.taken
                              flags := (s.eng.slot i).flags.withOrder }
        talkPath := some i
        queue := s.eng.queueWithout i
        figures := figuresOf (s.eng.queueWithout i)
        monitor := s.eng.monitorAfterExit y
        orders := os
        link := s.eng.link.tested os } []

/-- RETRIEVE of a HELD, RINGING_OUT or CAMPED slot, and of a RECALLING one (R55, R9, R31, R100, R91). -/
def Obligations.RetrieveTaken : Prop :=
  ∀ (i : SlotId) (s : State), Open s → Room 40 s → Ready s i → PathFree s.eng i →
    let x := s.eng.slot i
    let os := s.eng.orders ++ [s.eng.newOrder i .retrieve (.slotRequest .retrieve)]
    (x.state = .held ∨ x.state = .ringingOut ∨ x.state = .camped →
      Completes (.retrieve i) s (s.writeOff (slotOff i 24) 3)
        { s.eng with
          slots := s.eng.slots.set i
            { x with state := .connecting, request := some ((s.slotOperands i).copied .retrieve), outcome := .pending
                     ret := some x.state, timer := x.timer.suspended, flags := x.flagsSuspended.withOrder }
          talkPath := some i
          camps := if x.state = .camped then s.eng.campsWithout i else s.eng.camps
          figures := figuresOf s.eng.queue
          orders := os
          link := s.eng.link.tested os } [])
    ∧ ∀ y, x.state = .recalling → s.eng.entryOf i = some y →
      Completes (.retrieve i) s (s.writeOff (slotOff i 24) 3)
        { s.eng with
          slots := s.eng.slots.set i
            { x with state := .connecting, request := some ((s.slotOperands i).copied .retrieve), outcome := .pending
                     ret := some x.state, kept := some y.taken, flags := x.flags.withOrder }
          talkPath := some i
          queue := s.eng.queueWithout i
          figures := figuresOf (s.eng.queueWithout i)
          monitor := s.eng.monitorAfterExit y
          orders := os
          link := s.eng.link.tested os } []

/-- EXTEND that goes on: an EXTEND order for a station UNKNOWN, IDLE, or DND with override, a HOLD with tone CAMP for one BUSY or
RINGING with camping allowed (R75, R76, R80, R4). -/
def Obligations.ExtendTaken : Prop :=
  ∀ (i : SlotId) (k : OrderKind) (s : State), Open s → Room 40 s → Ready s i → (s.eng.slot i).state = .talking →
    let x := s.eng.slot i
    let ops := s.slotOperands i
    let c := s.eng.condition ops.station
    let os := s.eng.orders ++ [s.eng.newOrder i k (.slotRequest .extend)]
    ((c = .unknown ∨ c = .idle ∨ (c = .dnd ∧ ops.options.getLsbD 2 = true))
        ∧ k = .extend ops.station (ops.options.getLsbD 0) (ops.options.getLsbD 2))
      ∨ ((c = .busy ∨ c = .ringing) ∧ ops.options.getLsbD 1 = true ∧ k = .hold .camp) →
    Completes (.extend i) s (s.writeOff (slotOff i 24) 4)
      { s.eng with
        slots := s.eng.slots.set i
          { x with dest := ops.station, request := some (ops.copied .extend), outcome := .pending, flags := x.flags.withOrder }
        orders := os
        link := s.eng.link.tested os } []

/-- Two requests that end in the event of their taking: EXTEND that ends at the pre-check with DEST_BUSY, DEST_DND or DEST_INVALID
(R75, R76, R19), and CANCEL in CAMPED, by which the slot leaves its camp list and is HELD at once, with a HOLD timer of its own (R94,
R99). -/
def Obligations.RequestsThatEndAtOnce : Prop :=
  (∀ (i : SlotId) (o : ReqOutcome) (s : State), Open s → Room 40 s → Ready s i → (s.eng.slot i).state = .talking →
    let ops := s.slotOperands i
    let c := s.eng.condition ops.station
    ((c = .busy ∨ c = .ringing) ∧ ops.options.getLsbD 1 = false ∧ o = .destBusy)
      ∨ (c = .dnd ∧ ops.options.getLsbD 2 = false ∧ o = .destDnd) ∨ (c = .outOfService ∧ o = .destInvalid) →
    Completes (.extend i) s (s.writeOff (slotOff i 24) 4)
      { s.eng with
        slots := s.eng.slots.set i { s.eng.slot i with dest := ops.station, outcome := o }
        causes := s.eng.causes ||| Cause.requestDone.mask } (slotNone i))
  ∧ ∀ (i : SlotId) (s : State), Open s → Room 40 s → Ready s i → (s.eng.slot i).state = .camped →
    Completes (.cancel i) s (s.writeOff (slotOff i 24) 6)
      { s.eng with
        slots := s.eng.slots.set i { s.eng.timed (s.eng.slot i) .hold .held with outcome := .done }
        camps := s.eng.campsWithout i
        journal := s.eng.journal.appended
        causes := s.eng.causes ||| Cause.requestDone.mask ||| s.eng.journal.appendCauses s.eng.setup.watermark }
      (slotNone i ++ recordPosts s.eng .held (byteOf i.val) 0 0)

/-- RELEASE on a slot with no request in flight and no order outstanding (R58, R32). -/
def Obligations.ReleaseTaken : Prop :=
  ∀ (i : SlotId) (s : State), Open s → Room 40 s → Ready s i → (s.eng.slot i).state ≠ .free →
    let os := s.eng.orders ++ [s.eng.newOrder i .release (.slotRequest .release)]
    Completes (.release i) s (s.writeOff (slotOff i 24) 8)
      (s.releaseTaken i { (s.eng.slot i).flags with timer := false, side := false, order := true } os
        (s.eng.link.tested os)) []

/-- RELEASE that takes precedence: over a request of the slot whose order is queued, over a queued order of an ANSWER_NEXT or of
the part itself, over an order in exchange (deferred), and over a RELEASE (R13, R14, R143). That a slot which a DIVERT has made LEAVING
keeps its return state under the RELEASE, while the entry kept for the return goes, is the model's choice (log 27, DESIGN CHOICE). -/
def Obligations.ReleaseTakesPrecedence : Prop :=
  ∀ (i : SlotId) (s : State), Open s → Room 40 s →
    let x := s.eng.slot i
    let os := s.eng.ordersWithout i ++ [s.eng.newOrder i .release (.slotRequest .release)]
    let e := s.releaseTaken i { x.flags with timer := false, side := false, order := true } os ((s.eng.linkWithout i).tested os)
    (∀ r o c, x.request = some r → r.code ≠ .release → s.eng.orderOf i = some o → s.eng.orderInExchange i = false →
      o.purpose = .slotRequest c →
      Completes (.release i) s (s.writeOff (slotOff i 24) 8) { e with causes := s.eng.causes ||| Cause.requestDone.mask } [])
    ∧ (∀ o, x.request = none → x.flags.order = true → x.state ≠ .free →
      staleCheckPasses x (s.slotOperands i).expected = true → s.eng.orderOf i = some o → s.eng.orderInExchange i = false →
      (o.purpose = .answerNext →
        Completes (.release i) s (s.writeOff (slotOff i 24) 8)
          { e with console := { s.eng.console with inFlight := none, outcome := .cancelled }
                   causes := s.eng.causes ||| Cause.consoleDone.mask } consoleNonePost)
      ∧ (o.purpose ∈ [.campWake, .recallLeg, .night, .nightExpiry, .shed] →
        Completes (.release i) s (s.writeOff (slotOff i 24) 8) e []))
    ∧ (∀ o, ((∃ r, x.request = some r ∧ r.code ≠ .release)
          ∨ (x.request = none ∧ x.flags.order = true ∧ x.state ≠ .free
              ∧ staleCheckPasses x (s.slotOperands i).expected = true)) →
      s.eng.orderOf i = some o → s.eng.orderInExchange i = true →
      Completes (.release i) s (s.writeOff (slotOff i 24) 8)
        (s.releaseTaken i { x.flags with timer := false, side := false, deferred := true } s.eng.orders s.eng.link) [])
    ∧ ∀ r, x.request = some r → r.code = .release →
      Completes (.release i) s (s.writeOff (slotOff i 24) 8)
        { s.eng with
          slots := s.eng.slots.set i { x with request := some ((s.slotOperands i).copied .release), outcome := .pending }
          causes := s.eng.causes ||| Cause.requestDone.mask } []

/-- DIVERT of a waiting slot, and of a HELD or CAMPED one (R60, R31, R32, R100). -/
def Obligations.DivertTaken : Prop :=
  ∀ (i : SlotId) (s : State), Open s → Room 40 s → Ready s i →
    let x := s.eng.slot i
    let ops := s.slotOperands i
    let os := s.eng.orders ++ [s.eng.newOrder i (.divert ops.divert) (.slotRequest .divert)]
    (∀ y, x.state = .offered ∨ x.state = .recalling → s.eng.entryOf i = some y →
      Completes (.divert i) s (s.writeOff (slotOff i 24) 9)
        { s.eng with
          slots := s.eng.slots.set i
            { x with state := .leaving, request := some (ops.copied .divert), outcome := .pending, ret := some x.state
                     kept := some y.taken, flags := x.flags.withOrder }
          queue := s.eng.queueWithout i
          figures := figuresOf (s.eng.queueWithout i)
          monitor := s.eng.monitorAfterExit y
          orders := os
          link := s.eng.link.tested os } [])
    ∧ (x.state = .held ∨ x.state = .camped →
      Completes (.divert i) s (s.writeOff (slotOff i 24) 9)
        { s.eng with
          slots := s.eng.slots.set i
            { x with state := .leaving, request := some (ops.copied .divert), outcome := .pending, ret := some x.state
                     timer := x.timer.suspended, flags := x.flagsSuspended.withOrder }
          camps := if x.state = .camped then s.eng.campsWithout i else s.eng.camps
          figures := figuresOf s.eng.queue
          orders := os
          link := s.eng.link.tested os } [])

/-- A request code written with no request in flight that a check turns away, the first that fails: it completes at once with
the check's outcome and nothing else of the slot changes; NONE does nothing (R11, R15, R16, R17, R10, R19). The states in which each
request is valid are R16's table. The same of the console request byte, whose only check is the code (R63, R64). -/
def Obligations.RequestsTurnedAway : Prop :=
  ∀ (i : SlotId) (v : Byte) (s : State), Open s → Room 40 s → (s.eng.slot i).request = none →
    let x := s.eng.slot i
    let fresh := s.readOff (slotOff i 25) = 0xFF ∨ s.readOff (slotOff i 25) = x.state.code
    let away (o : ReqOutcome) : Prop :=
      Completes (.processorWrite (s.processorAddress (slotOff i 24)) v) s (s.writeOff (slotOff i 24) v)
        { s.eng with
          slots := s.eng.slots.set i { x with outcome := o }
          causes := s.eng.causes ||| Cause.requestDone.mask } (slotNone i)
    (v = 0 → Completes (.processorWrite (s.processorAddress (slotOff i 24)) v) s (s.writeOff (slotOff i 24) v) s.eng [])
    ∧ (9 < v.toNat → away .unknownRequest)
    ∧ (∀ c : SlotReq, v = c.code →
      (¬ fresh → away .stale)
      ∧ (fresh → validIn x c = false → away .wrongState)
      ∧ (fresh → validIn x c = true → c ≠ .release → x.flags.order = true → away .slotBusy)
      ∧ (fresh → validIn x c = true → x.flags.order = false → c = .answer ∨ c = .retrieve → ¬ PathFree s.eng i →
          away .pathBusy))
    ∧ (s.eng.console.inFlight = none →
      (v = 0 → Completes (.processorWrite (s.processorAddress consoleReqOff) v) s (s.writeOff consoleReqOff v) s.eng [])
      ∧ (5 < v.toNat →
        Completes (.processorWrite (s.processorAddress consoleReqOff) v) s (s.writeOff consoleReqOff v)
          { s.eng with console := { s.eng.console with outcome := .unknownRequest }
                       causes := s.eng.causes ||| Cause.consoleDone.mask } consoleNonePost))
    ∧ ∀ y : Slot,
      let within (c : SlotReq) (states : List SlotState) : Prop := validIn y c = true ↔ y.state ∈ states
      within .answer [.offered, .recalling] ∧ within .hold [.talking]
      ∧ within .retrieve [.held, .camped, .ringingOut, .recalling] ∧ within .extend [.talking]
      ∧ (validIn y .complete = true ↔ y.state = .consulting ∧ (y.leg = .ringing ∨ y.leg = .talking))
      ∧ within .cancel [.consulting, .camped]
      ∧ (validIn y .swap = true ↔ y.state = .consulting ∧ y.leg = .talking)
      ∧ (validIn y .release = true ↔ y.state ≠ .free)
      ∧ within .divert [.offered, .recalling, .held, .camped]

/-- A request code other than RELEASE written while a request is in flight on the slot, and any code written while a console
request is in flight: withheld, memory unchanged, the slot or 0xFF posted as dropped and REQUEST_DROPPED latched (R12, R63). -/
def Obligations.WithheldRequestsChangeNothing : Prop :=
  ∀ (v : Byte) (s : State), Quiet s → Room 40 s →
    (∀ (i : SlotId) (r : Request), (s.eng.slot i).request = some r → v ≠ 8 →
      Completes (.processorWrite (s.processorAddress (slotOff i 24)) v) s s
        { s.eng with dropped := byteOf i.val, causes := s.eng.causes ||| Cause.requestDropped.mask } [])
    ∧ ∀ r : ConsoleReq, s.eng.console.inFlight = some r →
      Completes (.processorWrite (s.processorAddress consoleReqOff) v) s s
        { s.eng with dropped := 0xFF, causes := s.eng.causes ||| Cause.requestDropped.mask } []

/-- ANSWER_NEXT takes the first entry that the answer mask admits; with no such entry it ends QUEUE_EMPTY, and with the talk path
owned by another slot PATH_BUSY, the answered slot posted 0xFF (R41, R43, R64, R65). -/
def Obligations.AnswerNextTaken : Prop :=
  (∀ (y : Entry) (s : State), Open s → Room 60 s → s.eng.console.inFlight = none →
    ((s.eng.queue.find? fun z => s.eng.setup.answerMask.getLsbD z.group.val).bind fun z => s.eng.entryOf z.slot) = some y →
    PathFree s.eng y.slot →
    let x := s.eng.slot y.slot
    let k : OrderKind := if x.state = .offered then .answer else .retrieve
    let os := s.eng.orders ++ [s.eng.newOrder y.slot k .answerNext]
    Completes .answerNext s (s.writeOff consoleReqOff 1)
      { s.eng with
        slots := s.eng.slots.set y.slot
          { x with state := .connecting, ret := some x.state, kept := some y.taken, flags := x.flags.withOrder }
        talkPath := some y.slot
        queue := s.eng.queueWithout y.slot
        figures := figuresOf (s.eng.queueWithout y.slot)
        monitor := s.eng.monitorAfterExit y
        console := { inFlight := some .answerNext, operand := s.readOff consoleOperandOff, outcome := .pending
                     answered := some y.slot }
        orders := os
        link := s.eng.link.tested os } [])
  ∧ (∀ (o : ReqOutcome) (s : State), Open s → Room 40 s → s.eng.console.inFlight = none →
    let first := s.eng.queue.find? fun z => s.eng.setup.answerMask.getLsbD z.group.val
    (first = none ∧ o = .queueEmpty) ∨ (∃ y, first = some y ∧ ¬ PathFree s.eng y.slot ∧ o = .pathBusy) →
    Completes .answerNext s (s.writeOff consoleReqOff 1)
      { s.eng with
        console := { inFlight := none, operand := s.readOff consoleOperandOff, outcome := o, answered := none }
        causes := s.eng.causes ||| Cause.consoleDone.mask } consoleNonePost)

/-- The order of the answer queue (R28): an entry joins directly behind every entry of lesser or equal rank and before the first of
greater rank, the others keeping their order; a new entry, of an offer or of a recall, and a reinserted one join in the same way. -/
def Obligations.QueueOrder : Prop :=
  (∀ (x : Entry) (q : List Entry), ∃ before behind, q = before ++ behind ∧ insertEntry x q = before ++ x :: behind
    ∧ (∀ y ∈ before, y.rank ≤ x.rank) ∧ (∀ y rest, behind = y :: rest → x.rank < y.rank)
    ∧ (q.Pairwise (fun y z => y.rank ≤ z.rank) →
      (∀ y ∈ behind, x.rank < y.rank) ∧ (insertEntry x q).Pairwise fun y z => y.rank ≤ z.rank))
  ∧ (∀ (e : Engine) (x : Entry), ((Act.enqueue x).effect e).1 = { e with queue := insertEntry x e.queue })
  ∧ (∀ (e : Engine) (i : SlotId) (ref : BitVec 16) (g : GroupId) (c : CallClass) (tag : BitVec 16),
    ∃ x, (acceptOffer e i ref g c tag).filter Act.joins = [.enqueue x] ∧ x.slot = i)
  ∧ (∀ (e : Engine) (i : SlotId) (r : RecallReason), ∃ x, (recallSlot e i r).filter Act.joins = [.enqueue x] ∧ x.slot = i)
  ∧ (∀ (e : Engine) (i : SlotId), (reinsert e i).filter Act.joins = ((e.slot i).kept.map Act.enqueue).toList)

/-- DAY and NIGHT: the mode and its record, done in the event of their taking; on NIGHT every waiting slot leaves the queue, head first,
under a DIVERT to the night destination; in the mode already taken nothing but the completion (R44, R45, R68). -/
def Obligations.ModeRequestsTaken : Prop :=
  (∀ s : State, Open s → Room 40 s → s.eng.console.inFlight = none →
    let console : Console := { s.eng.console with inFlight := none, operand := s.readOff consoleOperandOff, outcome := .done }
    (s.eng.mode = .day →
      Completes .day s (s.writeOff consoleReqOff 2)
        { s.eng with console := console, causes := s.eng.causes ||| Cause.consoleDone.mask } consoleNonePost)
    ∧ (s.eng.mode = .night →
      Completes .day s (s.writeOff consoleReqOff 2)
        { s.eng with
          mode := .day
          console := console
          journal := s.eng.journal.appended
          causes := s.eng.causes ||| s.eng.journal.appendCauses s.eng.setup.watermark ||| Cause.consoleDone.mask }
        (recordPosts s.eng .mode 0xFF 0 0 ++ consoleNonePost)))
  ∧ (∀ s : State, Open s → Tidy s → s.eng.console.inFlight = none →
    let console : Console := { s.eng.console with inFlight := none, operand := s.readOff consoleOperandOff, outcome := .done }
    (s.eng.mode = .night →
      Finishes .night s (s.writeOff consoleReqOff 3)
        { s.eng with console := console, causes := s.eng.causes ||| Cause.consoleDone.mask } consoleNonePost)
    ∧ (s.eng.mode = .day →
      let e := (s.eng.queue.filterMap fun y => s.eng.entryOf y.slot).foldl
        (fun e y => s.eng.divertedWaiting e y s.eng.setup.nightDest .night) s.eng
      Finishes .night s (s.writeOff consoleReqOff 3)
        { e with
          queue := []
          figures := Figures.empty
          mode := .night
          console := console
          journal := s.eng.journal.appended
          causes := s.eng.causes ||| s.eng.journal.appendCauses s.eng.setup.watermark ||| Cause.consoleDone.mask }
        (recordPosts s.eng .mode 0xFF 1 0 ++ consoleNonePost)))

/-- RESET_ESTIMATE: the group's estimate becomes its reference, with a record; an operand above 7 is UNKNOWN_REQUEST (R69, R64). -/
def Obligations.ResetEstimateTaken : Prop :=
  ∀ s : State, Open s → Room 40 s → s.eng.console.inFlight = none →
    let v := s.readOff consoleOperandOff
    (∀ g : GroupId, v = byteOf g.val →
      Completes .resetEstimate s (s.writeOff consoleReqOff 4)
        { s.eng with
          monitor := s.eng.monitor.set g { s.eng.group g with estimate := (s.eng.setup.group g).reference }
          console := { s.eng.console with inFlight := none, operand := v, outcome := .done }
          journal := s.eng.journal.appended
          causes := s.eng.causes ||| s.eng.journal.appendCauses s.eng.setup.watermark ||| Cause.consoleDone.mask }
        (recordPosts s.eng .estimateReset 0xFF v 0 ++ consoleNonePost))
    ∧ (7 < v.toNat →
      Completes .resetEstimate s (s.writeOff consoleReqOff 4)
        { s.eng with
          console := { s.eng.console with inFlight := none, operand := v, outcome := .unknownRequest }
          causes := s.eng.causes ||| Cause.consoleDone.mask } consoleNonePost)

/-- RESTART: PENDING, and the part drives SRST; if the line read deasserted, a link reset with cause RESTART is to be performed
before anything else (R70, R71, R146; that it is a step of its own is the model's choice, log 12). -/
def Obligations.RestartTaken : Prop :=
  ∀ s : State, Open s → Room 40 s → s.eng.console.inFlight = none →
    Completes .restart s (s.writeOff consoleReqOff 5)
      { s.eng with
        console := { s.eng.console with inFlight := some .restart, operand := s.readOff consoleOperandOff, outcome := .pending }
        link := { s.eng.link with
                  srstDrive := true
                  resetDue := if s.eng.link.srstDrive || s.eng.link.srstSwitch then none else some .restart } } []

/-- OFFER accepted: the lowest-numbered FREE slot is allocated and joins the queue, with the journal record and QUEUE_ENTRY; and what the
queue's figures read: they count the entries, of the queue and of each group, and name the first (R35, R5, R27, R28, R29, R34, R39). -/
def Obligations.OfferAccepted : Prop :=
  ((figuresOf []).length = 0 ∧ (figuresOf []).head = none
    ∧ ∀ g : GroupId, (figuresOf []).counts[g] = 0 ∧ (figuresOf []).heads[g] = none)
  ∧ (∀ (y : Entry) (q : List Entry),
    let f := figuresOf (y :: q)
    f.length = (figuresOf q).length + 1 ∧ f.head = some y.slot
      ∧ ∀ g : GroupId,
        f.counts[g] = (figuresOf q).counts[g] + (if y.group = g then 1 else 0)
          ∧ f.heads[g] = if y.group = g then some y.slot else (figuresOf q).heads[g])
  ∧ ∀ (ref tag : BitVec 16) (g : GroupId) (cls : Byte) (c : CallClass) (i : SlotId) (s : State), Quiet s → Room 60 s →
    Receiving s.eng.link → ref ≠ 0 → offerClass cls = some c → s.eng.mapped ref = none → s.eng.mode = .day →
    ((s.eng.group g).overflow = false ∨ (s.eng.setup.group g).policy ≠ .divertNew) →
    (s.eng.slot i).state = .free → (∀ j, j < i → (s.eng.slot j).state ≠ .free) →
    (s.eng.queue.filter (·.group == g)).length < (s.eng.setup.group g).cap →
    let rank := s.eng.time - s.eng.setup.advance c
    let queue := insertEntry { slot := i, group := g, cls := c, time := s.eng.time, rank := rank, sampled := false } s.eng.queue
    Completes (.offer ref (byteOf g.val) cls tag) s s
      { s.eng with
        slots := s.eng.slots.set i
          { state := .offered, flags := { timer := false, order := false, side := false, deferred := false }, group := g
            cls := c, callRef := ref, tag := tag, entryTime := s.eng.time, rank := rank, deadline := 0, dest := 0
            leg := .absent, outcome := .none, recalls := 0, timer := Timer.off, request := none, ret := none, kept := none }
        refMap := (ref, i) :: s.eng.refMap
        queue := queue
        figures := figuresOf queue
        journal := s.eng.journal.appended
        causes := s.eng.causes ||| s.eng.journal.appendCauses s.eng.setup.watermark ||| Cause.queueEntry.mask
        link := s.eng.link.answered
          (([0x81] ++ leBytes ref.toNat 2 ++ [byteOf g.val, cls] ++ leBytes tag.toNat 2).map withParity) false .accept }
      (recordPosts s.eng .offerTaken (byteOf i.val) (byteOf g.val) c.code)

/-- OFFER refused by the first check that fails: only the status and a journal record (R35, R36, R37, R38, R40). That a policy just
taken counts before the group's next evaluation is the model's choice (log 43, DESIGN CHOICE). -/
def Obligations.OfferRefused : Prop :=
  ∀ (ref tag : BitVec 16) (group cls : Byte) (st : Status) (s : State), Quiet s → Room 40 s → Receiving s.eng.link →
    ((7 < group.toNat ∨ 2 < cls.toNat ∨ ref = 0) ∧ st = .format)
      ∨ (∃ g : GroupId, group = byteOf g.val ∧ cls.toNat ≤ 2 ∧ ref ≠ 0 ∧
          (((s.eng.mapped ref).isSome = true ∧ st = .dup)
            ∨ (s.eng.mapped ref = none ∧ s.eng.mode = .night ∧ st = .night)
            ∨ (s.eng.mapped ref = none ∧ s.eng.mode = .day ∧ (s.eng.group g).overflow = true
                ∧ (s.eng.setup.group g).policy = .divertNew ∧ st = .overflow)
            ∨ (s.eng.mapped ref = none ∧ s.eng.mode = .day
                ∧ ((s.eng.group g).overflow = false ∨ (s.eng.setup.group g).policy ≠ .divertNew)
                ∧ ((∀ j, (s.eng.slot j).state ≠ .free)
                    ∨ (s.eng.setup.group g).cap ≤ (s.eng.queue.filter (·.group == g)).length) ∧ st = .full))) →
    Completes (.offer ref group cls tag) s s
      { s.eng with
        journal := s.eng.journal.appended
        causes := s.eng.causes ||| s.eng.journal.appendCauses s.eng.setup.watermark
        link := s.eng.link.answered
          (([0x81] ++ leBytes ref.toNat 2 ++ [group, cls] ++ leBytes tag.toNat 2).map withParity) false st }
      (recordPosts s.eng .offerRefused 0xFF group (statusCode st))

/-- CLEARED of a mapped call: the slot is freed, a request of its own or an ANSWER_NEXT for it completes CALLER_GONE, and the
record names the state it had (R23, R6, R8). -/
def Obligations.ClearedReport : Prop :=
  ∀ (ref : BitVec 16) (i : SlotId) (s : State), Quiet s → Room 60 s → Receiving s.eng.link → s.eng.mapped ref = some i →
    let x := s.eng.slot i
    let e (y : Slot) : Engine :=
      { s.eng.without i y with
        figures := figuresOf (s.eng.queueWithout i)
        monitor := s.eng.monitorWithout i
        journal := s.eng.journal.appended
        link := (s.eng.linkWithout i).answered (([0x82] ++ leBytes ref.toNat 2).map withParity) false .accept }
    let ends := s.eng.journal.appendCauses s.eng.setup.watermark ||| Cause.callerGone.mask
    let posts := recordPosts s.eng .callerGone (byteOf i.val) x.state.code 0
    (∀ r, x.request = some r →
      Completes (.cleared ref) s s
        { e { x.freed with outcome := .callerGone, request := none } with
          causes := s.eng.causes ||| Cause.requestDone.mask ||| ends } (slotNone i ++ posts))
    ∧ (x.request = none → (s.eng.orderOf i).any (·.purpose == .answerNext) = true →
      Completes (.cleared ref) s s
        { e x.freed with
          console := { s.eng.console with inFlight := none, outcome := .callerGone }
          causes := s.eng.causes ||| Cause.consoleDone.mask ||| ends } (consoleNonePost ++ posts))
    ∧ (x.request = none → (s.eng.orderOf i).any (·.purpose == .answerNext) = false →
      Completes (.cleared ref) s s { e x.freed with causes := s.eng.causes ||| ends } posts)

/-- DEST_ANSWER: a ringing leg in CONSULTING is answered, and a RINGING_OUT slot's call has been transferred. DEST_CLEARED in CONSULTING:
the attendant is with the caller again, and a request in flight completes CANCELLED (R86, R87, R89, R90). -/
def Obligations.DestinationReports : Prop :=
  (∀ (ref : BitVec 16) (i : SlotId) (s : State), Quiet s → Room 40 s → Receiving s.eng.link → s.eng.mapped ref = some i →
    let x := s.eng.slot i
    let causes := s.eng.causes ||| s.eng.journal.appendCauses s.eng.setup.watermark
    (x.state = .consulting → x.leg = .ringing →
      Completes (.destAnswer ref) s s
        { s.eng with
          slots := s.eng.slots.set i { x with leg := .talking }
          journal := s.eng.journal.appended
          causes := causes
          link := s.eng.link.answered (([0x83] ++ leBytes ref.toNat 2).map withParity) false .accept }
        (recordPosts s.eng .destAnswered (byteOf i.val) x.dest 0))
    ∧ (x.state = .ringingOut →
      Completes (.destAnswer ref) s s
        { s.eng.without i x.freed with
          journal := s.eng.journal.appended
          causes := causes
          link := (s.eng.linkWithout i).answered (([0x83] ++ leBytes ref.toNat 2).map withParity) false .accept }
        (recordPosts s.eng .transferred (byteOf i.val) x.dest 0)))
  ∧ (∀ (ref : BitVec 16) (i : SlotId) (s : State), Quiet s → Room 40 s → Receiving s.eng.link → s.eng.mapped ref = some i →
    (s.eng.slot i).state = .consulting →
    let x : Slot := { s.eng.slot i with state := .talking, leg := .absent
                                        flags := { (s.eng.slot i).flags with side := false, order := false } }
    let e : Engine := { s.eng with
                        orders := s.eng.ordersWithout i
                        journal := s.eng.journal.appended
                        link := (s.eng.linkWithout i).answered (([0x84] ++ leBytes ref.toNat 2).map withParity) false .accept }
    let ends := s.eng.journal.appendCauses s.eng.setup.watermark
    let posts := recordPosts s.eng .destCleared (byteOf i.val) x.dest 0
    ((s.eng.slot i).request = none →
      Completes (.destCleared ref) s s { e with slots := s.eng.slots.set i x, causes := s.eng.causes ||| ends } posts)
    ∧ ∀ r, (s.eng.slot i).request = some r →
      Completes (.destCleared ref) s s
        { e with slots := s.eng.slots.set i { x with outcome := .cancelled, request := none }
                 causes := s.eng.causes ||| Cause.requestDone.mask ||| ends } (slotNone i ++ posts))

/-- STATION: the table entry and STATION_CHANGE; a station that reports IDLE wakes the head of its camp list with a blind EXTEND,
unless the head has an order outstanding (R73, R91, R92, R100). -/
def Obligations.StationReport : Prop :=
  ∀ (st : Byte) (c : Condition) (s : State), Quiet s → Room 40 s → Receiving s.eng.link →
    let e : Engine := { s.eng with
                        stations := s.eng.stations.set (st.toFin : Fin 256) c
                        causes := s.eng.causes ||| Cause.stationChange.mask
                        link := s.eng.link.answered ([0x85, 0, 0, st, c.code].map withParity) false .accept }
    (c ≠ .idle ∨ s.eng.campHead st = none ∨ (∃ i, s.eng.campHead st = some i ∧ (s.eng.slot i).flags.order = true) →
      Completes (.station 0 st c.code) s s e [])
    ∧ ∀ i, c = .idle → s.eng.campHead st = some i → (s.eng.slot i).flags.order = false →
      Completes (.station 0 st c.code) s s
        { e with
          slots := s.eng.slots.set i
            { s.eng.slot i with timer := (s.eng.slot i).timer.suspended, flags := (s.eng.slot i).flagsSuspended.withOrder }
          orders := s.eng.orders ++ [s.eng.newOrder i (.extend st false false) .campWake] } []

/-- A report that changes nothing but the link, and the status it is answered with: NO_CALL, STATE or FORMAT, an unknown kind
FORMAT, a frame with a parity error PARITY (R8, R86, R90, R73, R133, R134). -/
def Obligations.ReportsTurnedAway : Prop :=
  ∀ (ref : BitVec 16) (s : State), Quiet s → Room 40 s → Receiving s.eng.link →
    let turns (c : Instr) (frame : List LinkByte) (note : Bool) (st : Status) : Prop :=
      Completes c s s { s.eng with link := s.eng.link.answered frame note st } []
    let only (c : Instr) (bytes : List Byte) (st : Status) : Prop := turns c (bytes.map withParity) false st
    (s.eng.mapped ref = none →
      only (.cleared ref) ([0x82] ++ leBytes ref.toNat 2) .noCall
        ∧ only (.destAnswer ref) ([0x83] ++ leBytes ref.toNat 2) .noCall
        ∧ only (.destCleared ref) ([0x84] ++ leBytes ref.toNat 2) .noCall)
    ∧ (∀ i, s.eng.mapped ref = some i →
      ((s.eng.slot i).state ≠ .ringingOut ∧ ((s.eng.slot i).state ≠ .consulting ∨ (s.eng.slot i).leg ≠ .ringing) →
        only (.destAnswer ref) ([0x83] ++ leBytes ref.toNat 2) .state)
      ∧ ((s.eng.slot i).state ≠ .consulting → only (.destCleared ref) ([0x84] ++ leBytes ref.toNat 2) .state))
    ∧ (∀ st cond : Byte, ref ≠ 0 ∨ 5 < cond.toNat →
      only (.station ref st cond) ([0x85] ++ leBytes ref.toNat 2 ++ [st, cond]) .format)
    ∧ (∀ kind : Byte, kind.toNat < 0x81 ∨ 0x85 < kind.toNat →
      only (.unknownKind kind ref) ([kind] ++ leBytes ref.toNat 2) .format)
    ∧ ∀ frame : List LinkByte, isDamagedFrame frame = true →
      turns (.parityErrorFrame frame) frame true .parity

/-- ACCEPT to the order of an ANSWER and of an ANSWER_NEXT: the slot is TALKING, and the request completes DONE at the slot or at
the console (R52, R66). -/
def Obligations.AnswerAccepted : Prop :=
  ∀ (o : Order) (rest : List Order) (s : State), Quiet s → Room 40 s → Awaits s o rest →
    (o.kind = .answer ∨ o.kind = .retrieve) →
    let i := o.slot
    let x : Slot := { s.eng.slot i with state := .talking, ret := none, kept := none
                                        flags := (s.eng.slot i).flags.noOrder }
    let e : Engine := { s.eng with orders := rest, link := s.eng.link.exchangeEnded rest, journal := s.eng.journal.appended }
    let ends := s.eng.journal.appendCauses s.eng.setup.watermark
    let posts := recordPosts s.eng .answered (byteOf i.val) (byteOf x.group.val) 0
    (o.purpose = .slotRequest .answer →
      Completes (.answerOrderStatus .accept) s s
        { e with slots := s.eng.slots.set i { x with outcome := .done, request := none }
                 causes := s.eng.causes ||| Cause.requestDone.mask ||| ends } (slotNone i ++ posts))
    ∧ (o.purpose = .answerNext →
      Completes (.answerNextOrderStatus .accept) s s
        { e with slots := s.eng.slots.set i x
                 console := { s.eng.console with inFlight := none, outcome := .done }
                 causes := s.eng.causes ||| Cause.consoleDone.mask ||| ends } (consoleNonePost ++ posts))

/-- ACCEPT to a HOLD order: HELD, or with tone CAMP CAMPED at the tail of the station's camp list; the timer of the state starts,
the talk path is free, the request is DONE (R54, R80, R91, R99). -/
def Obligations.HoldAccepted : Prop :=
  ∀ (o : Order) (rest : List Order) (s : State), Quiet s → Room 40 s → Awaits s o rest →
    let i := o.slot
    let x : Slot := { s.eng.slot i with outcome := .done, request := none, flags := (s.eng.slot i).flags.noOrder }
    let e : Engine :=
      { s.eng with
        talkPath := none
        orders := rest
        link := s.eng.link.exchangeEnded rest
        journal := s.eng.journal.appended
        causes := s.eng.causes ||| Cause.requestDone.mask ||| s.eng.journal.appendCauses s.eng.setup.watermark }
    (o.purpose = .slotRequest .hold → o.kind = .hold .music →
      Completes (.holdOrderStatus .accept) s s { e with slots := s.eng.slots.set i (s.eng.timed x .hold .held) }
        (slotNone i ++ recordPosts s.eng .held (byteOf i.val) 0 0))
    ∧ (o.purpose = .slotRequest .extend → o.kind = .hold .camp →
      Completes (.campHoldStatus .accept) s s
        { e with slots := s.eng.slots.set i (s.eng.timed x .camp .camped)
                 camps := s.eng.camps ++ [(x.dest, i)] }
        (slotNone i ++ recordPosts s.eng .camped (byteOf i.val) x.dest 0))

/-- ACCEPT to the RETRIEVE order of a RETRIEVE: TALKING, the suspended timer cleared, and no leg if the slot was RINGING_OUT (R56). -/
def Obligations.RetrieveAccepted : Prop :=
  ∀ (o : Order) (rest : List Order) (s : State), Quiet s → Room 40 s → Awaits s o rest →
    o.purpose = .slotRequest .retrieve → o.kind = .retrieve →
    let i := o.slot
    let x := s.eng.slot i
    Completes (.retrieveOrderStatus .accept) s s
      { s.eng with
        slots := s.eng.slots.set i
          { x with state := .talking, timer := Timer.off, flags := { x.flags with timer := false, order := false }
                   leg := if x.ret = some .ringingOut then .absent else x.leg
                   ret := none, kept := none, outcome := .done, request := none }
        orders := rest
        link := s.eng.link.exchangeEnded rest
        journal := s.eng.journal.appended
        causes := s.eng.causes ||| Cause.requestDone.mask ||| s.eng.journal.appendCauses s.eng.setup.watermark }
      (slotNone i ++ recordPosts s.eng .retrieved (byteOf i.val) 0 0)

/-- The orders whose status frees the slot (R6): any status to a RELEASE order, DONE for ACCEPT and NO_CALL and REFUSED for a rejection
(R59); ACCEPT to a DIVERT order, of a request or of the part itself, where DIVERTED names the destination and the reason REQUEST,
NIGHT or SHED (R61, R46, R109, R124). -/
def Obligations.ReleaseAndDivertEnd : Prop :=
  (∀ (o : Order) (rest : List Order) (st : Status) (s : State), Quiet s → Room 40 s → Awaits s o rest →
    o.purpose = .slotRequest .release → o.kind = .release → st ≠ .parity →
    let i := o.slot
    Completes (.releaseOrderStatus st) s s
      { s.eng.closedWithout i rest
          { (s.eng.slot i).freed with
            outcome := if st = .accept ∨ st = .noCall then .done else .refused, request := none } with
        journal := s.eng.journal.appended
        causes := s.eng.causes ||| Cause.requestDone.mask ||| s.eng.journal.appendCauses s.eng.setup.watermark }
      (slotNone i ++ recordPosts s.eng .released (byteOf i.val) 0 0))
  ∧ ∀ (o : Order) (rest : List Order) (d : Byte) (s : State), Quiet s → Room 40 s → Awaits s o rest → o.kind = .divert d →
    let i := o.slot
    let e (x : Slot) : Engine := { s.eng.closedWithout i rest x with journal := s.eng.journal.appended }
    let ends := s.eng.journal.appendCauses s.eng.setup.watermark
    (o.purpose = .slotRequest .divert →
      Completes (.divertOrderStatus .accept) s s
        { e { (s.eng.slot i).freed with outcome := .done, request := none } with
          causes := s.eng.causes ||| Cause.requestDone.mask ||| ends }
        (slotNone i ++ recordPosts s.eng .diverted (byteOf i.val) d 0))
    ∧ ∀ c r, (o.purpose = .night ∧ c = .nightDivertStatus .accept ∧ r = 1)
          ∨ (o.purpose = .nightExpiry ∧ c = .nightExpiryDivertStatus .accept ∧ r = 1)
          ∨ (o.purpose = .shed ∧ c = .shedDivertStatus .accept ∧ r = 2) →
      Completes c s s { e (s.eng.slot i).freed with causes := s.eng.causes ||| ends }
        (recordPosts s.eng .diverted (byteOf i.val) d r)

/-- ACCEPT to an EXTEND order: CONSULTING with a ringing leg when it was screened, otherwise RINGING_OUT with the NOANS timer and
the talk path free (R77, R78, R99). -/
def Obligations.ExtendAccepted : Prop :=
  ∀ (o : Order) (rest : List Order) (st : Byte) (sc ov : Bool) (s : State), Quiet s → Room 40 s → Awaits s o rest →
    o.purpose = .slotRequest .extend → o.kind = .extend st sc ov →
    let i := o.slot
    let f := (s.eng.slot i).flags.noOrder
    let x : Slot := { s.eng.slot i with leg := .ringing, outcome := .done, request := none, flags := f }
    Completes (.extendOrderStatus .accept) s s
      { s.eng with
        slots := s.eng.slots.set i
          (if sc = true then { x with state := .consulting, flags := { f with side := true } }
           else s.eng.timed x .noans .ringingOut)
        talkPath := if sc = true then s.eng.talkPath else none
        orders := rest
        link := s.eng.link.exchangeEnded rest
        journal := s.eng.journal.appended
        causes := s.eng.causes ||| Cause.requestDone.mask ||| s.eng.journal.appendCauses s.eng.setup.watermark }
      (slotNone i ++ recordPosts s.eng .extended (byteOf i.val) st (modeFlags sc ov))

/-- A rejected EXTEND: the station's entry follows BUSY, DND and NO_STATION; BUSY with camping allowed goes on with a HOLD with
tone CAMP, any other rejection completes the request (R74, R79, R80). -/
def Obligations.ExtendRejected : Prop :=
  ∀ (o : Order) (rest : List Order) (st : Byte) (sc ov : Bool) (s : State), Quiet s → Room 40 s → Awaits s o rest →
    o.purpose = .slotRequest .extend → o.kind = .extend st sc ov →
    let i := o.slot
    let x := s.eng.slot i
    let ended (out : ReqOutcome) : Slot := { x with outcome := out, request := none, flags := x.flags.noOrder }
    let told (c : Condition) : Engine :=
      { s.eng with stations := s.eng.stations.set (st.toFin : Fin 256) c
                   causes := s.eng.causes ||| Cause.stationChange.mask }
    let done (e : Engine) (out : ReqOutcome) : Engine :=
      { e with slots := s.eng.slots.set i (ended out), causes := e.causes ||| Cause.requestDone.mask, orders := rest
               link := s.eng.link.exchangeEnded rest }
    (x.campAllowed = true →
      let os := rest ++ [s.eng.newOrder i (.hold .camp) (.slotRequest .extend)]
      Completes (.extendOrderStatus .busy) s s
        { told .busy with slots := s.eng.slots.set i { x with flags := x.flags.withOrder }, orders := os
                          link := s.eng.link.exchangeEnded os } [])
    ∧ (x.campAllowed = false →
      Completes (.extendOrderStatus .busy) s s (done (told .busy) .destBusy) (slotNone i))
    ∧ Completes (.extendOrderStatus .dnd) s s (done (told .dnd) .destDnd) (slotNone i)
    ∧ Completes (.extendOrderStatus .noStation) s s (done (told .outOfService) .destInvalid) (slotNone i)
    ∧ ∀ r, Rejects r → r ≠ .busy → r ≠ .dnd → r ≠ .noStation →
      Completes (.extendOrderStatus r) s s (done s.eng .refused) (slotNone i)

/-- ACCEPT to a JOIN order: with the leg TALKING the call is transferred and the slot freed, with it RINGING the slot is
RINGING_OUT with the NOANS timer (R85, R6, R99). -/
def Obligations.JoinAccepted : Prop :=
  ∀ (o : Order) (rest : List Order) (s : State), Quiet s → Room 40 s → Awaits s o rest →
    o.purpose = .slotRequest .complete → o.kind = .join →
    let i := o.slot
    let x := s.eng.slot i
    (x.leg = .talking →
      Completes (.joinOrderStatus .accept) s s
        { s.eng.closedWithout i rest { x.freed with outcome := .done, request := none } with
          journal := s.eng.journal.appended
          causes := s.eng.causes ||| Cause.requestDone.mask ||| s.eng.journal.appendCauses s.eng.setup.watermark }
        (slotNone i ++ recordPosts s.eng .transferred (byteOf i.val) x.dest 0))
    ∧ (x.leg ≠ .talking →
      Completes (.joinOrderStatus .accept) s s
        { s.eng with
          slots := s.eng.slots.set i
            (s.eng.timed { x with outcome := .done, request := none
                                  flags := { x.flags with side := false, order := false } } .noans .ringingOut)
          talkPath := none
          orders := rest
          link := s.eng.link.exchangeEnded rest
          causes := s.eng.causes ||| Cause.requestDone.mask } (slotNone i))

/-- ACCEPT to a DROP_DEST and to a SWAP order (R83, R82, R3). -/
def Obligations.DropDestAndSwapAccepted : Prop :=
  ∀ (o : Order) (rest : List Order) (s : State), Quiet s → Room 40 s → Awaits s o rest →
    let i := o.slot
    let x := s.eng.slot i
    let e (y : Slot) : Engine :=
      { s.eng with slots := s.eng.slots.set i { y with outcome := .done, request := none }
                   orders := rest
                   link := s.eng.link.exchangeEnded rest
                   causes := s.eng.causes ||| Cause.requestDone.mask }
    (o.purpose = .slotRequest .cancel → o.kind = .dropDest →
      Completes (.dropDestOrderStatus .accept) s s
        (e { x with state := .talking, leg := .absent, flags := { x.flags with side := false, order := false } })
        (slotNone i))
    ∧ (o.purpose = .slotRequest .swap → o.kind = .swap →
      Completes (.swapOrderStatus .accept) s s (e { x with flags := { x.flags with side := !x.flags.side, order := false } })
        (slotNone i))

/-- A camp wake's status: ACCEPT makes the slot RINGING_OUT, BUSY leaves it CAMPED with its timer resumed, any other rejection
makes it RECALLING in DAY and sends it to the night destination in NIGHT (R93, R74, R103, R108). -/
def Obligations.CampWakeStatus : Prop :=
  ∀ (o : Order) (rest : List Order) (st : Byte) (s : State), Quiet s → Room 60 s → Awaits s o rest →
    o.purpose = .campWake → o.kind = .extend st false false →
    let i := o.slot
    let x := s.eng.slot i
    let y : Slot := { x with flags := x.flags.noOrder }
    let ended (e : Engine) : Engine := { e with orders := rest, link := s.eng.link.exchangeEnded rest }
    let told (e : Engine) (c : Condition) : Engine :=
      { e with stations := s.eng.stations.set (st.toFin : Fin 256) c, causes := s.eng.causes ||| Cause.stationChange.mask }
    let ends := s.eng.journal.appendCauses s.eng.setup.watermark
    let recalled (e : Engine) : Engine :=
      ended { e with slots := s.eng.slots.set i (s.eng.recalling y)
                     camps := s.eng.campsWithout i
                     queue := s.eng.queueRecalled i
                     figures := figuresOf (s.eng.queueRecalled i)
                     journal := s.eng.journal.appended
                     causes := e.causes ||| ends ||| Cause.recall.mask }
    let os := rest ++ [s.eng.newOrder i (.divert s.eng.setup.nightDest) .nightExpiry]
    let diverted (e : Engine) : Engine :=
      { e with slots := s.eng.slots.set i { x with state := .leaving, ret := some x.state, timer := x.timer.suspended
                                                   flags := x.flagsSuspended.withOrder }
               camps := s.eng.campsWithout i
               orders := os
               link := s.eng.link.exchangeEnded os }
    Completes (.campWakeStatus .accept) s s
      (ended { s.eng with slots := s.eng.slots.set i (s.eng.timed { y with leg := .ringing } .noans .ringingOut)
                          camps := s.eng.campsWithout i
                          journal := s.eng.journal.appended
                          causes := s.eng.causes ||| ends })
      (recordPosts s.eng .extended (byteOf i.val) st 0)
    ∧ Completes (.campWakeStatus .busy) s s
      (told (ended { s.eng with slots := s.eng.slots.set i { x with timer := x.timer.resumed
                                                                    flags := x.flagsResumed.noOrder } }) .busy) []
    ∧ ∀ r e, (r = .dnd ∧ e = told s.eng .dnd) ∨ (r = .noStation ∧ e = told s.eng .outOfService)
          ∨ (Rejects r ∧ r ≠ .busy ∧ r ≠ .dnd ∧ r ≠ .noStation ∧ e = s.eng) →
      (s.eng.mode = .day → Completes (.campWakeStatus r) s s (recalled e) (recordPosts s.eng .recalled (byteOf i.val) 1 0))
      ∧ (s.eng.mode = .night → Completes (.campWakeStatus r) s s (diverted e) [])

/-- A RECALL_LEG's status: ACCEPT takes the leg back and makes the slot RECALLING in DAY, or LEAVING for the night destination
with a HOLD timer already due in NIGHT; STATE means the destination has the call; another rejection resumes the timer (R106,
R103, R108). -/
def Obligations.RecallLegStatus : Prop :=
  ∀ (o : Order) (rest : List Order) (s : State), Quiet s → Room 60 s → Awaits s o rest →
    o.purpose = .recallLeg → o.kind = .recallLeg →
    let i := o.slot
    let x := s.eng.slot i
    let ends := s.eng.journal.appendCauses s.eng.setup.watermark
    let os := rest ++ [s.eng.newOrder i (.divert s.eng.setup.nightDest) .nightExpiry]
    (s.eng.mode = .day →
      Completes (.recallLegStatus .accept) s s
        { s.eng with
          slots := s.eng.slots.set i (s.eng.recalling { x with leg := .absent, flags := x.flags.noOrder })
          queue := s.eng.queueRecalled i
          figures := figuresOf (s.eng.queueRecalled i)
          orders := rest
          link := s.eng.link.exchangeEnded rest
          journal := s.eng.journal.appended
          causes := s.eng.causes ||| ends ||| Cause.recall.mask } (recordPosts s.eng .recalled (byteOf i.val) 2 0))
    ∧ (s.eng.mode = .night →
      Completes (.recallLegStatus .accept) s s
        { s.eng with
          slots := s.eng.slots.set i
            { x with state := .leaving, leg := .absent, ret := some .held, deadline := s.eng.time
                     timer := { kind := .hold, running := false, deadline := s.eng.time }
                     flags := { x.flags with timer := false, order := true } }
          orders := os
          link := s.eng.link.exchangeEnded os } [])
    ∧ Completes (.recallLegStatus .state) s s
        { s.eng.closedWithout i rest x.freed with
          journal := s.eng.journal.appended
          causes := s.eng.causes ||| ends } (recordPosts s.eng .transferred (byteOf i.val) x.dest 0)
    ∧ ∀ r, Rejects r → r ≠ .state →
      Completes (.recallLegStatus r) s s
        { s.eng with
          slots := s.eng.slots.set i { x with timer := x.timer.resumed, flags := x.flagsResumed.noOrder }
          orders := rest
          link := s.eng.link.exchangeEnded rest } []

/-- NO_CALL to an order other than a RELEASE frees the slot: what the order served completes CALLER_GONE, and the record names
the state the slot had (R22, R6). -/
def Obligations.NoCallFreesTheSlot : Prop :=
  ∀ (o : Order) (rest : List Order) (s : State), Quiet s → Room 40 s → Awaits s o rest →
    o.purpose ≠ .slotRequest .release → (o.kind = .hold .camp → o.purpose = .slotRequest .extend) →
    let i := o.slot
    let x := s.eng.slot i
    let e (y : Slot) : Engine := { s.eng.closedWithout i rest y with journal := s.eng.journal.appended }
    let ends := s.eng.journal.appendCauses s.eng.setup.watermark ||| Cause.callerGone.mask
    let posts := recordPosts s.eng .callerGone (byteOf i.val) x.state.code 0
    ((∃ c, o.purpose = .slotRequest c) →
      Completes (o.statusRow .noCall) s s
        { e { x.freed with outcome := .callerGone, request := none } with
          causes := s.eng.causes ||| Cause.requestDone.mask ||| ends } (slotNone i ++ posts))
    ∧ (o.purpose = .answerNext →
      Completes (o.statusRow .noCall) s s
        { e x.freed with
          console := { s.eng.console with inFlight := none, outcome := .callerGone }
          causes := s.eng.causes ||| Cause.consoleDone.mask ||| ends } (consoleNonePost ++ posts))
    ∧ (o.purpose ∈ [.campWake, .recallLeg, .night, .nightExpiry, .shed] →
      Completes (o.statusRow .noCall) s s { e x.freed with causes := s.eng.causes ||| ends } posts)

/-- A rejected HOLD (either tone), JOIN, DROP_DEST or SWAP leaves the slot as it was and completes REFUSED (R54, R80, R82, R83,
R85, R50). -/
def Obligations.RejectedOrderLeavesTheSlot : Prop :=
  ∀ (o : Order) (rest : List Order) (r : Status) (s : State), Quiet s → Room 40 s → Awaits s o rest → Rejects r →
    ((o.purpose = .slotRequest .hold ∧ o.kind = .hold .music) ∨ (o.purpose = .slotRequest .extend ∧ o.kind = .hold .camp)
      ∨ (o.purpose = .slotRequest .complete ∧ o.kind = .join) ∨ (o.purpose = .slotRequest .cancel ∧ o.kind = .dropDest)
      ∨ (o.purpose = .slotRequest .swap ∧ o.kind = .swap)) →
    let x := s.eng.slot o.slot
    Completes (o.statusRow r) s s
      { s.eng with
        slots := s.eng.slots.set o.slot { x with outcome := .refused, request := none, flags := x.flags.noOrder }
        orders := rest
        link := s.eng.link.exchangeEnded rest
        causes := s.eng.causes ||| Cause.requestDone.mask } (slotNone o.slot)

/-- A rejected ANSWER, RETRIEVE or DIVERT, of a request, of an ANSWER_NEXT or of the part, sends the slot back to its return
state: into the queue with its kept entry, to the tail of its camp list, or to HELD or RINGING_OUT, the timer resumed (R21, R33,
R100, R52, R56, R61, R66, R46, R109, R124). -/
def Obligations.RejectedOrderSendsTheSlotBack : Prop :=
  ∀ (o : Order) (rest : List Order) (r : Status) (st : SlotState) (s : State), Quiet s → Room 40 s → Awaits s o rest →
    Rejects r → o.kind ≠ .hold .camp →
    o.purpose ∈ [.slotRequest .answer, .slotRequest .retrieve, .slotRequest .divert, .answerNext, .night, .nightExpiry, .shed] →
    let i := o.slot
    let x := s.eng.slot i
    x.ret = some st →
    ∀ back : Engine,
      (∃ y, (st = .offered ∨ st = .recalling) ∧ x.kept = some y ∧ back =
          { s.eng with
            slots := s.eng.slots.set i { x with state := st, kept := none, ret := none, flags := x.flags.noOrder }
            queue := insertEntry y s.eng.queue
            figures := figuresOf (insertEntry y s.eng.queue)
            causes := s.eng.causes ||| Cause.queueEntry.mask })
        ∨ (st = .camped ∧ back =
          { s.eng with
            slots := s.eng.slots.set i
              { x with state := st, ret := none, timer := x.timer.resumed, flags := x.flagsResumed.noOrder }
            camps := s.eng.camps ++ [(x.dest, i)] })
        ∨ ((st = .held ∨ st = .ringingOut) ∧ back =
          { s.eng with
            slots := s.eng.slots.set i
              { x with state := st, ret := none, timer := x.timer.resumed, flags := x.flagsResumed.noOrder } }) →
      let e : Engine := { back with orders := rest, link := s.eng.link.exchangeEnded rest }
      (o.purpose ∈ [.slotRequest .answer, .slotRequest .retrieve, .slotRequest .divert] →
        Completes (o.statusRow r) s s
          { e with
            slots := e.slots.set i { e.slot i with outcome := .refused, request := none }
            talkPath := if o.purpose = .slotRequest .divert then s.eng.talkPath else none
            causes := e.causes ||| Cause.requestDone.mask } (slotNone i))
      ∧ (o.purpose = .answerNext →
        Completes (o.statusRow r) s s
          { e with
            talkPath := none
            console := { s.eng.console with inFlight := none, outcome := .refused }
            causes := e.causes ||| Cause.consoleDone.mask } consoleNonePost)
      ∧ (o.purpose ∈ [.night, .nightExpiry, .shed] → Completes (o.statusRow r) s s e [])

/-- A status on whose exchange a RELEASE is deferred: NO_CALL frees the slot and completes the RELEASE, any other status appends
the RELEASE's own order; what the exchanged order served completes CANCELLED (R14, R22; that a slot request's CANCELLED gives way to the
RELEASE's PENDING is the model's reading, log 15). The row of the order's own purpose, delivered although a RELEASE has been deferred
since, does the same: the model's choice (log 25). -/
def Obligations.DeferredReleaseStatus : Prop :=
  ∀ (o : Order) (rest : List Order) (s : State), Quiet s → Room 40 s → s.eng.link.state = .awaitStatus →
    s.eng.link.inExchange = true → s.eng.orders = o :: rest → (s.eng.slot o.slot).flags.deferred = true →
    let i := o.slot
    let x := s.eng.slot i
    let served (e : Engine) : Engine × List Post :=
      match o.purpose with
      | .slotRequest _ => ({ e with causes := s.eng.causes ||| Cause.requestDone.mask }, [])
      | .answerNext =>
        ({ e with console := { s.eng.console with inFlight := none, outcome := .cancelled }
                  causes := s.eng.causes ||| Cause.consoleDone.mask }, consoleNonePost)
      | _ => (e, [])
    let freed := served (s.eng.closedWithout i rest { x.freed with outcome := .done, request := none })
    let os := rest ++ [s.eng.newOrder i .release (.slotRequest .release)]
    let goesOn := served
      { s.eng with
        slots := s.eng.slots.set i
          { x with outcome := (match o.purpose with | .slotRequest _ => .pending | _ => x.outcome)
                   flags := { x.flags with deferred := false, order := true } }
        orders := os
        link := s.eng.link.exchangeEnded os }
    let row (c : Instr) (r : Status) : Prop :=
      c = .deferredReleaseStatus r ∨ ((o.kind = .hold .camp → o.purpose = .slotRequest .extend) ∧ c = o.statusRow r)
    (∀ c, row c .noCall →
      Completes c s s
        { freed.1 with
          journal := s.eng.journal.appended
          causes := freed.1.causes ||| Cause.requestDone.mask ||| s.eng.journal.appendCauses s.eng.setup.watermark }
        (freed.2 ++ slotNone i ++ recordPosts s.eng .released (byteOf i.val) 0 0))
    ∧ ∀ c r, row c r → r ≠ .noCall → r ≠ .parity → Completes c s s goesOn.1 goesOn.2

/-! ### The link -/

/-- The bytes of the order frames with their lengths, and the parity of every byte the part sends: the nine lines carry an odd
number of ones, and a byte taken with an even number has a parity error (R130, R127; codes and bodies of 11.6). -/
def Obligations.OrderFramesAndParity : Prop :=
  (∀ (i : SlotId) (ref : BitVec 16) (p : Purpose) (st d : Byte) (sc ov : Bool),
    let frame (k : OrderKind) : List Byte := ({ kind := k, slot := i, callRef := ref, purpose := p } : Order).frame
    let lo : Byte := ref.extractLsb' 0 8
    let hi : Byte := ref.extractLsb' 8 8
    frame .answer = [1, lo, hi] ∧ frame .retrieve = [2, lo, hi] ∧ frame (.hold .music) = [3, lo, hi, 0]
      ∧ frame (.hold .camp) = [3, lo, hi, 1] ∧ frame .join = [5, lo, hi] ∧ frame .dropDest = [6, lo, hi]
      ∧ frame .swap = [7, lo, hi] ∧ frame .recallLeg = [8, lo, hi] ∧ frame .release = [9, lo, hi]
      ∧ frame (.divert d) = [10, lo, hi, d]
      ∧ ∃ m : Byte, frame (.extend st sc ov) = [4, lo, hi, st, m] ∧ m.getLsbD 0 = sc ∧ m.getLsbD 1 = ov ∧ m.toNat < 4)
  ∧ ∀ b : Byte, (withParity b).data = b
    ∧ ∀ sdp : Bool, badParity { data := b, sdp := sdp } = true ↔
        (((List.range 8).filter fun k => b.getLsbD k).length + (if sdp then 1 else 0)) % 2 = 0
          ∧ sdp ≠ (withParity b).sdp

/-- The four steps of a byte on the link, as the switch changes SACK and SSTB: which lines the part drives; as the sender it waits for
SACK to be deasserted, to rise and to fall, and goes on with the next byte; as the receiver it takes a byte when SSTB rises and is done
with it when SSTB drops. The last byte of a frame, sent or taken, and the status byte are the events of their rows (R127, R128, R133,
R134, R135, R137, R138; that line changes come from a queue of their own and that the rows stand for whole frames is the model's
choice, log 14). -/
def Obligations.HandshakeSteps : Prop :=
  (∀ l : Link,
    l.dataOut = (if l.hand = .sackRise then l.tx.head? else none)
    ∧ l.sstbOut = (if l.hand = .sackRise then .high else if l.hand = .sackLow ∨ l.hand = .sackFall then .low else .undriven)
    ∧ l.sackOut = (if l.hand = .sstbFall then .high else if l.hand = .sstbRise ∨ l.hand = .handling then .low else .undriven))
  ∧ ∀ (m : LineMove) (ms : List LineMove) (s : State), s.pending = [] → s.moves = m :: ms →
    let l := s.eng.link
    let lines : Link :=
      match m with
      | .sack b => { l with sackIn := b }
      | .strobe b => { l with strobe := some b }
      | .strobeEnd => { l with strobe := none }
    let on (l : Link) : State := { s with moves := ms, eng := { s.eng with link := l } }
    (s.phase ≠ .running → step s = .next (on lines))
    ∧ (Quiet s →
      (l.hand = .idle ∨ l.hand = .handling → step s = .next (on lines))
      ∧ (l.hand = .sackLow → m = .sack false → step s = .next (on { lines with hand := .sackRise }))
      ∧ (l.hand = .sackRise → m = .sack true → step s = .next (on { lines with hand := .sackFall }))
      ∧ (∀ b c bs, l.hand = .sackFall → m = .sack false → l.tx = b :: c :: bs →
        step s = .next (on { lines with tx := c :: bs, hand := .sackRise }))
      ∧ (∀ b, l.hand = .sackFall → m = .sack false → l.tx = [b] →
        (l.state = .sending → step s = exec .orderFrameSent (on { lines with tx := [], hand := .idle }))
        ∧ (l.state = .answering → step s = exec .reportStatusSent (on { lines with tx := [], hand := .idle })))
      ∧ (∀ b, l.hand = .sstbRise → m = .strobe b →
        let taken : Link := { lines with rx := l.rx ++ [b], rxNote := l.rxNote || badParity b }
        (l.state ≠ .receiving ∨ Short (l.rx ++ [b]) → step s = .next (on { taken with hand := .sstbFall }))
        ∧ ∀ c, l.state = .receiving → FrameRow (l.rx ++ [b]) c → step s = exec c (on { taken with hand := .handling }))
      ∧ (l.hand = .sstbFall → m = .strobeEnd →
        (l.state ≠ .awaitStatus → l.answer = none → step s = .next (on { lines with hand := .sstbRise }))
        ∧ (∀ st, l.state = .receiving → l.answer = some st → Room 1 s →
          ∃ t, step s = .next t
            ∧ Ran { s with moves := ms }
              { s.eng with link := Link.sending { lines with state := .answering } [withParity (statusCode st)] } [] t)
        ∧ ∀ o rest b earlier, l.state = .awaitStatus → l.inExchange = true → s.eng.orders = o :: rest → l.rx = earlier ++ [b] →
          (badParity b = true ∨ b.data = 0 ∨ b.data = 12 ∨ 13 < b.data.toNat →
            step s = exec (.statusByteFailedAttempt b) (on { lines with hand := .idle }))
          ∧ ∀ st, b = withParity (statusCode st) → st ≠ .parity →
            step s = exec (if (s.eng.slot o.slot).flags.deferred = true then .deferredReleaseStatus st else o.statusRow st)
              (on { lines with hand := .idle })))

/-- A claim: the switch's makes an IDLE link a receiver; the part's is decided at the first link unit on SCS as it reads, and
won, the head order is in exchange with its frame to send; with the frame sent its status is awaited (R131, R132, R137, R96). That an
SSTB which the switch has asserted before is taken as the status byte at once, where R132 speaks of RECEIVING only, is the model's choice
(log 33, DESIGN CHOICE). -/
def Obligations.LinkClaimed : Prop :=
  ∀ s : State, Quiet s → Room 10 s →
    let l := s.eng.link
    let e := s.eng.atLinkUnit
    Completes .scsAsserted s s { s.eng with link := Link.tested { l with scs := true } s.eng.orders } []
    ∧ (l.state = .arbitrating → l.scs = true →
      Completes .arbitrationWindowEnd s s
        { e with link := { l.receiving with scc := false } } [])
    ∧ (l.state = .arbitrating → l.scs = false → s.eng.orders = [] →
      Completes .arbitrationWindowEnd s s { e with link := { l with state := .idle, scc := false } } [])
    ∧ (∀ o rest, l.state = .arbitrating → l.scs = false → s.eng.orders = o :: rest →
      Completes .arbitrationWindowEnd s s
        { e with link := Link.sending { l with state := .sending, inExchange := true } (o.frame.map withParity) } [])
    ∧ (l.state = .sending →
      Completes .orderFrameSent s s { s.eng with link := { l.receiving with state := .awaitStatus, tx := [] } } [])

/-- The ends of a report's exchange: the status byte sent or timed out leaves the part in ANSWERING, a frame timed out is
abandoned, and SCS dropping ends the exchange, whatever was left of it (R135, R136, R133, R131). Two clauses are the model's choice: that
a timeout in RECEIVING gives a frame up also when its status has been given and only the last byte's handshake is left (log 29, DESIGN
CHOICE), and that a timeout with nothing waited for changes nothing (log 5, DESIGN CHOICE). No bound runs while an event that has
arrived at the link controller waits, such as the handling of a report (R128; that the rise of SCS alone does not stop it is log 13,
DESIGN CHOICE). -/
def Obligations.ReportExchangeEnds : Prop :=
  (∀ s : State, (∃ w ∈ s.waiting, .linkController ∈ w.holds ∧ w.jobs ≠ [.command .scsAsserted]) →
    exec .linkWaitTimeout s = .next s)
  ∧ ∀ s : State, Quiet s → Room 10 s →
    let l := s.eng.link
    let empty : Link := { l with rx := [], rxNote := false, abandoned := false, answer := none, hand := .idle }
    let waits : Prop := l.hand ≠ .idle ∧ l.hand ≠ .handling
    (l.state = .answering → Completes .reportStatusSent s s { s.eng with link := { l with tx := [], hand := .idle } } [])
    ∧ (l.state = .answering → waits →
      Completes .linkWaitTimeout s s { s.eng.atLinkUnit with link := { l with tx := [], hand := .idle } } [])
    ∧ (l.state = .receiving → waits →
      Completes .linkWaitTimeout s s { s.eng.atLinkUnit with link := { empty with abandoned := true } } [])
    ∧ (¬ waits → exec .linkWaitTimeout s = .next s)
    ∧ (l.state = .receiving ∨ l.state = .answering →
      Completes .scsDropped s s
        { s.eng with link := Link.tested { empty with scs := false, state := .idle, tx := [] } s.eng.orders } [])
    ∧ (l.state ≠ .receiving → l.state ≠ .answering →
      Completes .scsDropped s s { s.eng with link := Link.tested { l with scs := false } s.eng.orders } [])

/-- A failed attempt: below three the order stays at the head and the part tests for a claim at once, a RELEASE deferred on the
exchange replacing the order first; at the third the part drives SRST (R140, R141, R143, R14). The model's own: a row that carries the
status PARITY counts as a failed attempt (log 25), the reset that the third causes is a step of its own (log 12), and a slot request's
CANCELLED gives way to the PENDING of the RELEASE that was deferred on its order (log 15, DEDUCED). -/
def Obligations.AttemptFails : Prop :=
  ∀ (c : Instr) (e : Engine) (s : State), Quiet s → Room 40 s → FailsAttempt c s e →
    let l := s.eng.link
    let retry : Engine := { e with causes := s.eng.causes ||| Cause.linkRetry.mask }
    (l.attempts < 2 → (∀ o, s.eng.orders.head? = some o → (s.eng.slot o.slot).flags.deferred = false) →
      Completes c s s { retry with link := Link.tested { l.failed with state := .idle } s.eng.orders } [])
    ∧ (l.attempts < 2 → ∀ o rest, s.eng.orders = o :: rest → (s.eng.slot o.slot).flags.deferred = true →
      let i := o.slot
      let x := s.eng.slot i
      let os := rest.filter (·.slot != i) ++ [s.eng.newOrder i .release (.slotRequest .release)]
      let goesOn : Engine :=
        { retry with
          slots := s.eng.slots.set i
            { x with outcome := (match o.purpose with | .slotRequest _ => .pending | _ => x.outcome)
                     flags := { x.flags with deferred := false, order := true } }
          orders := os
          link := Link.tested { l.failed with state := .idle, attempts := 0 } os }
      ((∃ r, o.purpose = .slotRequest r) →
        Completes c s s { goesOn with causes := retry.causes ||| Cause.requestDone.mask } [])
      ∧ (o.purpose = .answerNext →
        Completes c s s
          { goesOn with console := { s.eng.console with inFlight := none, outcome := .cancelled }
                        causes := retry.causes ||| Cause.consoleDone.mask } consoleNonePost)
      ∧ (o.purpose ∈ [.campWake, .recallLeg, .night, .nightExpiry, .shed] → Completes c s s goesOn []))
    ∧ (l.attempts = 2 → l.srst = false →
      Completes c s s { retry with link := { l.failed with srstDrive := true, resetDue := some .attempts } } [])

/-- A link reset, when SRST comes to read asserted by the switch's drive, and when the part's own drive has made it so, with the
drive's cause; an assertion while the line reads asserted makes none (R144, R145, R25, R49, R95, R126; that the part's own is a step of its
own is the model's choice, log 12). -/
def Obligations.LinkReset : Prop :=
  ∀ s : State, Running s → s.eng.due = [] → Tidy s →
    (Quiet s → s.eng.link.srst = false →
      Finishes (.srstAsserted .switch) s s
        { s.eng.afterLinkReset with link := { s.eng.afterLinkReset.link with srstSwitch := true } }
        (s.eng.resetPosts .switch))
    ∧ (Quiet s → s.eng.link.srst = true →
      Finishes (.srstAsserted .switch) s s { s.eng with link := { s.eng.link with srstSwitch := true } } [])
    ∧ ∀ c, s.eng.link.resetDue = some c → s.eng.link.srstDrive = true →
      Finishes (.srstAsserted .part) s s s.eng.afterLinkReset (s.eng.resetPosts c)

/-- The end of SRST: each side stops its own drive, and the link leaves RESETTING when the line reads deasserted, a RESTART in
flight completing DONE; it does not leave it where SRST reads asserted (R146, R147, R71, R96). That the end of the part's drive, SRST_DRIVE_END, leaves the link in RESETTING, and that
SRST_DEASSERTED by the part takes it out in a step of its own, is the model's choice (log 12, DESIGN CHOICE): the rules have the line
read deasserted and the link go on in one event. -/
def Obligations.LinkResetEnds : Prop :=
  (∀ s : State, s.eng.link.state ≠ .resetting ∨ s.eng.link.srst = true → Job.leaveReset.begin s = (s, []))
  ∧ ∀ s : State, Running s → s.eng.due = [] → s.eng.link.resetDue = none → Room 10 s →
    let l := s.eng.link
    let leaves (c : Instr) (l : Link) : Prop :=
      let e : Engine := { s.eng with link := Link.tested { l with state := .idle } s.eng.orders }
      (s.eng.console.inFlight ≠ some .restart → Completes c s s e [])
      ∧ (s.eng.console.inFlight = some .restart →
        Completes c s s
          { e with console := { s.eng.console with inFlight := none, outcome := .done }
                   causes := s.eng.causes ||| Cause.consoleDone.mask } consoleNonePost)
    (Quiet s → l.srstDrive = true →
      Completes .srstDriveEnd s s { s.eng.atLinkUnit with link := { l with srstDrive := false } } [])
    ∧ (Quiet s → l.state ≠ .resetting ∨ l.srstDrive = true →
      Completes (.srstDeasserted .switch) s s { s.eng with link := { l with srstSwitch := false } } [])
    ∧ (Quiet s → l.state = .resetting → l.srstDrive = false → leaves (.srstDeasserted .switch) { l with srstSwitch := false })
    ∧ (l.state = .resetting → l.srst = false → leaves (.srstDeasserted .part) l)

/-! ### Ticks and expiries -/

/-- A tick: console time, the timers it runs out, as many of their expiries as it takes first, and the evaluation of the eight
groups in turn (R97, R102, R117, R96); which of them come first is open (R125): the command's operand says it, the model's choice (log 10).
An expiry that is still handed over when the next tick comes is applied before that tick, as things stand at its own (R102; that it may
be left over is the model's choice, log 11). -/
def Obligations.TickTaken : Prop :=
  (∀ (before : Nat) (s : State), Quiet s → Tidy s →
    let e1 := s.eng.ticked
    let r2 := inTurn (fun _ => Engine.expired) (List.replicate (min before 64) ()) e1
    let r3 := inTurn (fun g e => e.evaluatedGroup g) [0, 1, 2, 3, 4, 5, 6, 7] r2.1
    Finishes (.tick before) s s r3.1 (r2.2 ++ r3.2))
  ∧ ∀ (before : Nat) (i : SlotId) (c : Instr) (s u : State), Running s → s.eng.due = [i] → s.eng.link.resetDue = none →
    (s.eng.link.state = .resetting → s.eng.link.srst = true) →
    c ∈ [.holdTimerExpiry i, .campTimerExpiry i, .noansTimerExpiry i, .nightExpiry i] → exec c s = .next u → u.waiting = [] →
    exec (.tick before) s = exec (.tick before) u

/-- The expiry of a slot's timer, the first of those handed over: in DAY a HELD or CAMPED slot is recalled and a RINGING_OUT
slot's leg is asked back, in NIGHT any of them goes to the night destination (R102, R103, R104, R105, R108; that an expiry is a command of its
own is the model's choice, log 11). -/
def Obligations.ExpiryApplied : Prop :=
  ∀ (i : SlotId) (rest : List SlotId) (s : State), Running s → s.eng.due = i :: rest → s.eng.link.resetDue = none →
    (s.eng.link.state = .resetting → s.eng.link.srst = true) → Room 60 s → (s.eng.slot i).timer.running = true →
    let x := s.eng.slot i
    let e : Engine := { s.eng with due := rest }
    (s.eng.mode = .day → x.timer.kind = .hold →
      Completes (.holdTimerExpiry i) s s
        { e with
          slots := s.eng.slots.set i (s.eng.recalling x)
          queue := s.eng.queueRecalled i
          figures := figuresOf (s.eng.queueRecalled i)
          journal := s.eng.journal.appended
          causes := s.eng.causes ||| s.eng.journal.appendCauses s.eng.setup.watermark ||| Cause.recall.mask }
        (recordPosts s.eng .recalled (byteOf i.val) 0 0))
    ∧ (s.eng.mode = .day → x.timer.kind = .camp →
      Completes (.campTimerExpiry i) s s
        { e with
          slots := s.eng.slots.set i (s.eng.recalling x)
          camps := s.eng.campsWithout i
          queue := s.eng.queueRecalled i
          figures := figuresOf (s.eng.queueRecalled i)
          journal := s.eng.journal.appended
          causes := s.eng.causes ||| s.eng.journal.appendCauses s.eng.setup.watermark ||| Cause.recall.mask }
        (recordPosts s.eng .recalled (byteOf i.val) 1 0))
    ∧ (s.eng.mode = .day → x.timer.kind = .noans →
      let os := s.eng.orders ++ [s.eng.newOrder i .recallLeg .recallLeg]
      Completes (.noansTimerExpiry i) s s
        { e with
          slots := s.eng.slots.set i { x with timer := { x.timer with running := false }
                                              flags := { x.flags with timer := false, order := true } }
          orders := os
          link := s.eng.link.tested os } [])
    ∧ (s.eng.mode = .night → x.timer.kind ≠ .none →
      let os := s.eng.orders ++ [s.eng.newOrder i (.divert s.eng.setup.nightDest) .nightExpiry]
      Completes (.nightExpiry i) s s
        { e with
          slots := s.eng.slots.set i
            { x with state := .leaving, ret := some x.state, timer := { x.timer with running := false }
                     flags := { x.flags with timer := false, order := true } }
          camps := s.eng.campsWithout i
          orders := os
          link := s.eng.link.tested os } [])

/-- What a group's evaluation decides: the oldest offered entry, the one with the smallest entry time and at a tie the lowest slot,
with the measure it gives at the console time that the tick in evaluation brought; the condition from the enabled terms; and the step
of the duration count with the state it gives (R115, R116, R118, R119, R120). That the tick's time is kept where a later tick has
advanced console time before the group's turn is the model's choice (log 24, DEDUCED). -/
def Obligations.OverflowDecided : Prop :=
  ∀ (g : GroupId) (e : Engine),
    let m := e.group g
    let u := e.setup.group g
    let offered (y : Entry) : Prop := y ∈ e.queue ∧ y.group = g ∧ (e.slot y.slot).state = .offered
    let n := (e.queue.filter (·.group == g)).length
    let wait := e.oldestWait g
    let now := e.ticks.headD e.time
    let cond := e.condition? g
    let next := e.evaluated g
    (∀ y, e.oldestOffered g = some y →
      offered y ∧ (∀ z, offered z → y.time < z.time ∨ (y.time = z.time ∧ y.slot ≤ z.slot)) ∧ wait = min (now - y.time) 65535)
    ∧ (∀ y, offered y → ∃ z, e.oldestOffered g = some z)
    ∧ ((∀ y, ¬ offered y) → wait = 0 ∧ e.oldestOffered g = none)
    ∧ (u.all = false →
      (cond = true ↔ (u.countThreshold ≠ 0 ∧ u.countThreshold ≤ n) ∨ (u.estimateThreshold ≠ 0 ∧ u.estimateThreshold ≤ m.estimate)
        ∨ (u.oldestThreshold ≠ 0 ∧ u.oldestThreshold ≤ wait)))
    ∧ (u.all = true →
      (cond = true ↔ (u.countThreshold ≠ 0 ∨ u.estimateThreshold ≠ 0 ∨ u.oldestThreshold ≠ 0)
        ∧ (u.countThreshold ≠ 0 → u.countThreshold ≤ n) ∧ (u.estimateThreshold ≠ 0 → u.estimateThreshold ≤ m.estimate)
        ∧ (u.oldestThreshold ≠ 0 → u.oldestThreshold ≤ wait)))
    ∧ (u.duration = 0 → next = (0, cond))
    ∧ (u.duration ≠ 0 → u.decay = false →
      (cond = m.overflow → next = (0, m.overflow))
      ∧ (cond ≠ m.overflow → u.duration ≤ m.count + 1 → next = (0, cond))
      ∧ (cond ≠ m.overflow → m.count + 1 < u.duration → next = (m.count + 1, m.overflow)))
    ∧ (u.duration ≠ 0 → u.decay = true →
      next.1 = (if cond then min (m.count + 1) u.duration else m.count - 1)
      ∧ (m.overflow = false → (next.2 = true ↔ next.1 = u.duration)) ∧ (m.overflow = true → (next.2 = false ↔ next.1 = 0)))

/-- The update of a service estimate by a sample (R113): the step is the difference divided by 2 to the shift, rounded up; the
estimate moves by it toward the sample and never past it, and reaches a steady sample. -/
def Obligations.EstimateUpdate : Prop :=
  ∀ (est w k : Nat), est ≤ 65535 → w ≤ 65535 → k ≤ 7 →
    let d := if est ≤ w then w - est else est - w
    let change := (d + 2 ^ k - 1) / 2 ^ k
    let new := updateEstimate est w k
    (est < w → new = est + change) ∧ (w < est → new = est - change) ∧ (w = est → new = est)
    ∧ d + 2 ^ k - 1 ≤ 65662 ∧ change ≤ d
    ∧ min est w ≤ new ∧ new ≤ max est w ∧ new ≤ 65535
    ∧ (1 ≤ d → new ≠ est) ∧ (k = 0 → new = w) ∧ (k = 7 → change = (d + 127) / 128)
    ∧ ∃ n, n ≤ d ∧ (List.replicate n w).foldl (fun x w => updateEstimate x w k) est = w

/-! ### The memory path -/

/-- A write outside the region, to a plain byte or while RESET is asserted passes to memory, in start-up as well; a write to a P byte
passes, removes the pending post and is copied to the owner; a write to a byte of class E or C is withheld: it changes nothing and
does not wait. In start-up a write to any byte of the region that is not plain is held on PWAIT. After a write an inserted cycle
that is ready goes next (R149, R150, R151, R152, R156, R158, R163). -/
def Obligations.WritesPass : Prop :=
  ∀ (addr : BitVec 16) (off : Nat) (v : Byte) (s : State), off < 8192 →
    let c : Instr := .processorWrite addr v
    let plain : Prop := s.regionOff addr = some off ∧ classOf off = .plain
    (s.pwait = false → s.side = .free → s.phase = .inReset ∨ s.regionOff addr = none ∨ plain →
      exec c s = .next (s.writeAddr addr.toNat v))
    ∧ (Open s → classOf off = .processor →
      exec (.processorWrite (s.processorAddress off) v) s =
        .next { s.writeOff off v with
                eng := if off < 0x100 then s.eng.setCopy off v
                       else if off = 0x108 then { s.eng with journal := { s.eng.journal with lowCopy := v } } else s.eng })
    ∧ (s.regionOff addr = some off → classOf off = .engine ∨ classOf off = .readToClear → s.phase = .running → s.pwait = false →
      exec c s = .next s)
    ∧ (s.phase = .loaded ∨ s.phase = .swept → s.regionOff addr = some off → classOf off ≠ .plain →
      ∃ t, exec c s = .next t ∧ t = { s with held := s.held ++ [.write addr v] } ∧ t.pwait = true)
    ∧ (Tidy s → s.side = .free →
      Tidy (s.writeOff off v) ∧ (s.writeOff off v).readOff off = v
      ∧ (∀ o, o ≠ off → (s.writeOff off v).readOff o = s.readOff o)
      ∧ memRead (s.writeAddr addr.toNat v).mem addr.toNat = v
      ∧ (∀ a, a ≠ addr.toNat → memRead (s.writeAddr addr.toNat v).mem a = memRead s.mem a)
      ∧ (∀ p ps, s.posts = p :: ps →
        (s.writeAddr addr.toNat v).side = .inserted p ∧ (s.writeAddr addr.toNat v).posts = ps)
      ∧ ∀ p ps, s.posts.filter (·.off != off) = p :: ps →
        (s.writeOff off v).side = .inserted p ∧ (s.writeOff off v).posts = ps)

/-- A read: outside the region, of plain bytes and while RESET is asserted from memory; of a single byte from its pending post, else
from memory; of a coherent group's lowest byte by taking a snapshot; of its other bytes from an active snapshot of it. A read that
memory answers takes the memory side, and an inserted cycle that is ready goes next; in start-up a read of any byte of the region
that is not plain is held on PWAIT (R149, R150, R155, R158, R160, R161, R163; any read is a SNAPSHOT command, the model's choice,
log 8). A snapshot of a field that is half posted is another matter (PostingQueueDrains, log 35). -/
def Obligations.ReadsAnswered : Prop :=
  ∀ (addr : BitVec 16) (off : Nat) (s : State), off < 8192 →
    let c : Instr := .snapshot (s.processorAddress off)
    let plain : Prop := s.regionOff addr = some off ∧ classOf off = .plain
    let memory (c : Instr) (a : Nat) : Prop :=
      s.side = .free → exec c s = exec (.insertedCycle .begins) { s with readData := memRead s.mem a, snapshot := none }
    let normal : Prop :=
      (∀ v, s.pendingAt off = some v → exec c s = .next { s with readData := v, snapshot := none })
        ∧ (s.pendingAt off = none → memory c (s.address off))
    (s.pwait = false → s.phase = .inReset ∨ s.regionOff addr = none ∨ plain → memory (.snapshot addr) addr.toNat)
    ∧ (s.pwait = false → s.phase = .running → classOf off ≠ .plain →
      (coherentAt off = none → normal)
      ∧ (∀ w, off ≠ 0x104 → coherentAt off = some (off, w) → (∀ x ∈ s.waiting, ¬ x.HalfPosted off w) →
        exec c s = .next { s with readData := s.readOff off
                                  snapshot := some { base := off, bytes := (List.range w).map fun k => s.readOff (off + k) } })
      ∧ ∀ b w, coherentAt off = some (b, w) → b ≠ off →
        (∀ sn, s.snapshot = some sn → sn.base = b →
          exec c s = .next { s with readData := sn.bytes.getD (off - b) 0
                                    snapshot := if off = b + w - 1 then none else some sn })
        ∧ ((∀ sn, s.snapshot = some sn → sn.base ≠ b) → normal))
    ∧ (s.phase = .loaded ∨ s.phase = .swept → s.regionOff addr = some off → classOf off ≠ .plain →
      ∃ t, exec (.snapshot addr) s = .next t ∧ t = { s with held := s.held ++ [.read addr] } ∧ t.pwait = true)

/-- A read of the cause word's low byte takes a snapshot of the word and clears exactly the causes in it; ATTN is active while a
latched cause is enabled, at the level of the pin mode (R162, R160, R169, R170). -/
def Obligations.CauseWordRead : Prop :=
  (∀ (c : Instr) (s : State), Quiet s → Room 2 s → c = .causeWordRead ∨ c = .snapshot (s.processorAddress 0x104) →
    let low := s.readOff 0x104
    let high := s.readOff 0x105
    let word : BitVec 16 := high ++ low
    Completes c s { s with readData := low, snapshot := some { base := 0x104, bytes := [low, high] } }
      { s.eng with causes := s.eng.causes &&& ~~~word } [])
  ∧ ∀ s : State,
    let active : Prop := ∃ b, s.eng.causes.getLsbD b = true ∧ s.eng.setup.attnEnable.getLsbD b = true
    (s.phase = .inReset → s.attn = .undriven)
    ∧ (s.phase ≠ .inReset → s.eng.setup.pinLow = false → (active → s.attn = .high) ∧ (¬ active → s.attn = .low))
    ∧ (s.phase ≠ .inReset → s.eng.setup.pinLow = true → (active → s.attn = .low) ∧ (¬ active → s.attn = .undriven))

/-- The posting queue: a post replaces the address's entry in place or joins the tail, and at a free memory side its cycle begins at
once; a cycle takes the head entry and, ended, leaves its value in memory, and the next entry's begins; the room of an entry that has
left goes to the event that has waited longest, whose change is made with the last post of its act, or which waits again, last. An
access that finds the memory side taken waits on PWAIT and is made when the cycle has ended. A tick waits while the timer unit waits,
and is taken while others do; an OFFER waits while the answer queue does, and a write that completes a setup field of the service
monitor while that does. A read that would take a snapshot of a half posted field waits, and is made when the field's last post is, so
that it copies one value of the field and the head never names a record that cannot be read (R153, R154, R157, R158, R161, R165, R37,
R120; one grant a command, which blocks an event keeps and reads, the cycle's two phases, and that such a read waits on PWAIT, are the
model's choice, logs 6, 7, 21 and 35). -/
def Obligations.PostingQueueDrains : Prop :=
  (∀ (p : Post) (q : List Post), (∀ x ∈ q, x.off ≠ p.off) → pushPost p q = q ++ [p])
  ∧ (∀ (p x : Post) (a b : List Post), x.off = p.off → (∀ y ∈ a, y.off ≠ p.off) → pushPost p (a ++ x :: b) = a ++ p :: b)
  ∧ (∀ s : State,
    (∀ p, (s.side = .free → s.posts = [] → s.push p = { s with side := .inserted p })
      ∧ (s.side ≠ .free → s.push p = { s with posts := pushPost p s.posts }))
    ∧ (∀ p ps, s.side = .free → s.posts = p :: ps →
      exec (.insertedCycle .begins) s = .next { s with posts := ps, side := .inserted p })
    ∧ (s.side ≠ .free ∨ s.posts = [] → exec (.insertedCycle .begins) s = .next s)
    ∧ (OnlyForRoom s → s.side = .free → exec (.insertedCycle .ends) s = exec (.insertedCycle .begins) s)
    ∧ (∀ p, OnlyForRoom s → s.side = .inserted p → memWf s.mem = true →
      ∃ m, memWf m = true ∧ (∀ a, memRead m a = if a = s.address p.off then p.val else memRead s.mem a)
        ∧ (s.posts = [] → exec (.insertedCycle .ends) s = .next { s with mem := m, side := .free })
        ∧ ∀ q qs, s.posts = q :: qs → exec (.insertedCycle .ends) s = .next { s with mem := m, posts := qs, side := .inserted q })
    ∧ ((∀ w ∈ s.waiting, w.bytes = []) ∨ 64 ≤ s.posts.length → exec .postingQueueRoom s = .next s)
    ∧ ∀ holds p qs a ws, s.waiting = { holds := holds, bytes := p :: qs, acts := [a], jobs := [] } :: ws → OnlyForRoom s →
      (qs = [] → s.posts.length < 64 →
        exec .postingQueueRoom s =
          .next { s.push p with waiting := ws, eng := (a.effect s.eng).1 })
      ∧ (∀ q rest, qs = q :: rest → s.side ≠ .free → s.posts.length = 63 → (∀ x ∈ s.posts, x.off ≠ p.off ∧ x.off ≠ q.off) → p.off ≠ q.off →
        exec .postingQueueRoom s =
          .next { s with waiting := ws ++ [{ holds := holds, bytes := qs, acts := [a], jobs := [] }], posts := s.posts ++ [p] }))
  ∧ (∀ (a : Access) (p : Post) (s t : State), Quiet s → s.side = .inserted p → s.sideTaken a = true →
    exec a.command s = .next t →
    t.pwait = true ∧ t.mem = s.mem ∧ t.eng = s.eng ∧ exec (.insertedCycle .ends) t = exec a.command s.endCycle)
  ∧ ∀ (before : Nat) (s : State), s.phase = .running → OnlyForRoom s → s.eng.due = [] → s.eng.link.resetDue = none →
    (s.eng.link.state = .resetting → s.eng.link.srst = true) →
    ((∃ w ∈ s.waiting, .timerUnit ∈ w.keeps) →
      ∃ js, exec (.tick before) s =
        .next { s with waiting := s.waiting ++ [{ holds := [.timerUnit], bytes := [], acts := [], jobs := .clock :: js }] })
    ∧ ((∀ w ∈ s.waiting, .timerUnit ∉ w.keeps) → (∀ k < 4, s.hasPost (0x100 + k) = true) → s.eng.time < 4294967295 →
      ∃ t more, exec (.tick before) s = .next t ∧ t.eng.time = s.eng.time + 1 ∧ t.waiting = s.waiting ++ more)
    ∧ (∀ ref g cls tag, (∃ w ∈ s.waiting, .answerQueue ∈ w.keeps) →
      exec (.offer ref g cls tag) s =
        .next { s with waiting := s.waiting ++
                  [{ holds := [.linkController], bytes := [], acts := [], jobs := [.command (.offer ref g cls tag)] }] })
    ∧ (∀ off width, off < 8192 → off ≠ 0x104 → coherentAt off = some (off, width) → s.pwait = false →
      (∃ w ∈ s.waiting, w.HalfPosted off width) →
      let addr := s.processorAddress off
      let held : State :=
        { s with waiting := s.waiting ++ [{ holds := [.processor], bytes := [], acts := [], jobs := [.access (.read addr)] }] }
      exec (.snapshot addr) s = .next held ∧ held.pwait = true
        ∧ ∀ holds p a, s.waiting = [{ holds := holds, bytes := [p], acts := [a], jobs := [] }] → s.posts.length < 64 →
          exec .postingQueueRoom held = exec (.snapshot addr) { s.push p with waiting := [], eng := (a.effect s.eng).1 })
    ∧ ∀ (f : SetupField) (v : Byte), f.owner = .serviceMonitor → (∃ w ∈ s.waiting, .serviceMonitor ∈ w.keeps) →
      ∃ t, exec (.setupFieldTake (byteOf (f.off + f.width - 1)) v) s = .next t ∧ t.pwait = true
        ∧ ∃ more, t = { s with waiting := s.waiting ++ more }

/-- The journal tail write within and beyond the unread span, and a setup field taken, in range or clamped to its nearest limit,
with the duration count it may lower; the ranges of 10.1, policy code 3 becoming SHED_OLDEST; and the entry of the values in use that
each field changes (R167, R172, R173, R120, 10.1). That a clamped detector byte's unused bits 4 to 7 are posted as 0 is the model's
reading (log 17, DEDUCED). -/
def Obligations.TailAndSetupTaken : Prop :=
  (∀ (v : Byte) (s : State), Open s → Room 4 s →
    let j := s.eng.journal
    let p := v.toNat * 256 + j.lowCopy.toNat
    let within := p < 512 ∧ (p + 512 - j.tail) % 512 ≤ (j.head + 512 - j.tail) % 512
    (within →
      Completes (.journalTailWrite v) s (s.writeOff 0x109 v)
        { s.eng with
          journal := { j with tail := p, overrun := j.overrun && decide ((j.head + 512 - p) % 512 = 511) } } [])
    ∧ (¬ within →
      Completes (.journalTailWrite v) s (s.writeOff 0x109 v)
        { s.eng with journal := { j with tail := j.head, lowCopy := byteOf j.head, overrun := false } }
        (postsAt 0x108 (leBytes j.head 2))))
  ∧ (∀ (f : SetupField) (v : Byte) (s : State), Open s → Room 8 s →
    let off := f.off + f.width - 1
    let raw := f.valueOf fun k => if k = off then v else s.eng.copy k
    let e : Engine :=
      { s.eng.setCopy off v with setup := s.eng.setup.take f (f.clamp raw), monitor := s.eng.monitorTaking f (f.clamp raw) }
    (f.clamp raw = raw → Completes (.setupFieldTake (byteOf off) v) s (s.writeOff off v) e [])
    ∧ (f.clamp raw ≠ raw →
      Completes (.setupFieldTake (byteOf off) v) s (s.writeOff off v)
        { e.setField f (f.clamp raw) with causes := s.eng.causes ||| Cause.setupClamped.mask }
        (postsAt f.off (leBytes (f.clamp raw) f.width))))
  ∧ (∀ (v : Nat) (g : GroupId),
    SetupField.clamp .tLink v = max v 1 ∧ SetupField.clamp .pinMode v = min v 1
    ∧ (∀ f ∈ [SetupField.tHold, .tNoans, .tCamp, .aInt, .aPri, .aRec], f.clamp v = min v 6000)
    ∧ SetupField.clamp .watermark v = max (min v 511) 1 ∧ SetupField.clamp (.cap g) v = max (min v 64) 1
    ∧ SetupField.clamp (.countThreshold g) v = min v 64 ∧ SetupField.clamp (.shift g) v = min v 7
    ∧ (v / 4 % 4 ≠ 3 → SetupField.clamp (.detector g) v = v)
    ∧ (v / 4 % 4 = 3 → SetupField.clamp (.detector g) v = v % 4 + 8
      ∧ ∀ st : Setup, ((st.take (.detector g) (SetupField.clamp (.detector g) v)).groups[g]).policy = .shedOldest)
    ∧ ∀ f ∈ [SetupField.validity, .prescaler, .tickDivider, .linkDivider, .answerMask, .nightDest, .attnEnable,
          .estimateThreshold g, .oldestThreshold g, .duration g, .overflowDest g, .reference g], f.clamp v = v)
  ∧ ∀ (st : Setup) (v : Nat) (g : GroupId),
    let x := st.groups[g]
    let on (x : GroupSetup) : Setup := { st with groups := st.groups.set g x }
    let bits := BitVec.ofNat 16 v
    (st.take .validity v = st ∧ st.take .prescaler v = { st with prescaler := v + 1 }
      ∧ st.take .tickDivider v = { st with tickDivider := v + 1 } ∧ st.take .linkDivider v = { st with linkDivider := v + 1 }
      ∧ st.take .tLink v = { st with tLink := v } ∧ st.take .pinMode v = { st with pinLow := decide (v = 1) }
      ∧ st.take .tHold v = { st with tHold := v } ∧ st.take .tNoans v = { st with tNoans := v }
      ∧ st.take .tCamp v = { st with tCamp := v } ∧ st.take .aInt v = { st with aInt := v }
      ∧ st.take .aPri v = { st with aPri := v } ∧ st.take .aRec v = { st with aRec := v }
      ∧ st.take .answerMask v = { st with answerMask := BitVec.ofNat 8 v }
      ∧ st.take .nightDest v = { st with nightDest := BitVec.ofNat 8 v }
      ∧ st.take .attnEnable v = { st with attnEnable := bits &&& 0x1FFF } ∧ st.take .watermark v = { st with watermark := v })
    ∧ st.take (.cap g) v = on { x with cap := v } ∧ st.take (.countThreshold g) v = on { x with countThreshold := v }
    ∧ st.take (.estimateThreshold g) v = on { x with estimateThreshold := v }
    ∧ st.take (.oldestThreshold g) v = on { x with oldestThreshold := v } ∧ st.take (.duration g) v = on { x with duration := v }
    ∧ st.take (.overflowDest g) v = on { x with dest := BitVec.ofNat 8 v } ∧ st.take (.shift g) v = on { x with shift := v }
    ∧ st.take (.reference g) v = on { x with reference := v }
    ∧ (∀ p : Policy, (p = .notify ∧ v / 4 % 4 = 0) ∨ (p = .divertNew ∧ v / 4 % 4 = 1) ∨ (p = .shedOldest ∧ v / 4 % 4 = 2) →
      st.take (.detector g) v = on { x with decay := bits.getLsbD 0, all := bits.getLsbD 1, policy := p })

/-! ### Start-up -/

/-- POWER_ON_RESET at any point, an access held on PWAIT passing to memory and the lines staying as the switch drives them, changes that
still waited to be taken included (R148); and the setup load at RESET_RELEASE: stored setup clamped
where it must be, or the defaults posted in the order of their offsets with the validity byte last, so that memory holds 0xA5 there
only once it holds every default (R177, R149, R174, R173). The model's own: the values of the setup in use, of the setup unit's copies,
of the estimates and of the console operand while RESET is asserted, for which the spec gives none (log 4, DESIGN CHOICE, unsafe); what
becomes of a cycle in progress and of a held access at RESET (log 20); what the unused bits of a clamped detector byte are posted as
(log 17, DEDUCED); and that the load's read cycles are taken as one read (log 36, DESIGN CHOICE). -/
def Obligations.ResetAndSetupLoad : Prop :=
  (∀ s : State, (s.waiting = [] → s.linesNow = s.eng.link)
    ∧ ∀ ws w j, s.waiting = ws ++ [w] → w.jobs = [j] →
      let l := ({ s with waiting := ws } : State).linesNow
      (j = .command .scsAsserted → s.linesNow = { l with scs := true })
      ∧ (j = .command .scsDropped → s.linesNow = { l with scs := false })
      ∧ (j = .command (.srstAsserted .switch) → s.linesNow = { l with srstSwitch := true })
      ∧ (j = .command (.srstDeasserted .switch) → s.linesNow = { l with srstSwitch := false })
      ∧ (∀ b, j = .line (.sack b) → s.linesNow = { l with sackIn := b })
      ∧ (∀ b, j = .line (.strobe b) → s.linesNow = { l with strobe := some b })
      ∧ (j = .line .strobeEnd → s.linesNow = { l with strobe := none })
      ∧ ((∀ c ∈ [Instr.scsAsserted, .scsDropped, .srstAsserted .switch, .srstDeasserted .switch], j ≠ .command c) →
        (∀ m, j ≠ .line m) → s.linesNow = l))
  ∧ (∀ s : State,
    let l := s.linesNow
    let r : State :=
      { s with phase := .inReset, eng := Engine.initial l.scs l.srstSwitch l.sackIn l.strobe, posts := [], snapshot := none
               side := .free, held := [], waiting := [] }
    (s.accessesHeld = [] → exec .powerOnReset s = .next r)
    ∧ (∀ addr, s.accessesHeld = [.read addr] → exec .powerOnReset s = .next { r with readData := memRead s.mem addr.toNat })
    ∧ ∀ addr v, s.accessesHeld = [.write addr v] → memWf s.mem = true →
      ∃ m, exec .powerOnReset s = .next { r with mem := m } ∧ memWf m = true
        ∧ ∀ a, memRead m a = if a = addr.toNat then v else memRead s.mem a)
  ∧ ∀ (straps : BitVec 3) (scs srst sack : Bool) (strobe : Option LinkByte) (s : State), s.phase = .inReset →
    s.eng = Engine.initial scs srst sack strobe → s.waiting = [] → Tidy s →
    let s' : State := { s with base := straps, phase := .loaded }
    let byte (k : Nat) : Byte := memRead s.mem (straps.toNat * 8192 + k)
    let raw (f : SetupField) : Nat := f.valueOf byte
    let clamped := valueFields.filter fun f => f.clamp (raw f) != raw f
    let e : Engine := { s.eng with copies := Vector.ofFn fun k : Fin 256 => byte k.val }
    let defaults := fieldPosts SetupField.default valueFields
    (byte 0 = 0xA5 →
      Finishes (.resetRelease straps) s s'
        { e.storing (fun f => f.clamp (raw f)) clamped with
          setup := setupOf fun f => f.clamp (raw f), clampNoted := !clamped.isEmpty }
        (fieldPosts (fun f => f.clamp (raw f)) clamped))
    ∧ (byte 0 ≠ 0xA5 →
      Finishes (.resetRelease straps) s s'
        { (e.storing SetupField.default valueFields).setCopy 0 0xA5 with setup := Setup.default }
        (defaults ++ [{ off := 0, val := 0xA5 }]))
    ∧ (byte 0 ≠ 0xA5 → s.posts = [] → s.side = .free →
      ∃ t p, exec (.resetRelease straps) s = .next t ∧ t.side = .inserted p
        ∧ p :: t.posts ++ t.waiting.flatMap (·.bytes) = defaults ++ [{ off := 0, val := 0xA5 }]
        ∧ (defaults.map (·.off)).Pairwise (· < ·)
        ∧ ∀ n, memRead (drained n t).mem (straps.toNat * 8192) = 0xA5 →
          ∀ p ∈ defaults, memRead (drained n t).mem (straps.toNat * 8192 + p.off) = p.val)

/-- The initialization sweep brings every engine-owned byte but the journal records to its initial value, and NONE into the request
bytes, the estimates at their references; the rest of the region keeps what it had (R175, R111, R164). -/
def Obligations.SweepTaken : Prop :=
  ∀ (scs srst sack noted : Bool) (strobe : Option LinkByte) (st : Setup) (cp : Vector Byte 256) (s : State), s.phase = .loaded →
    s.waiting = [] → Tidy s →
    s.eng = { Engine.initial scs srst sack strobe with setup := st, copies := cp, clampNoted := noted } →
    ∃ t n, exec .initializationSweep s = .next t ∧
      let u := drained n t
      u = { s with phase := .swept, posts := u.posts, mem := u.mem, side := u.side
                   eng := { s.eng with monitor := Vector.ofFn fun g =>
                                { estimate := (st.group g).reference, count := 0, overflow := false } } }
      ∧ Current u ∧ (∀ i, u.readOff (slotOff i 24) = 0)
      ∧ u.readOff 0x10C = 0 ∧ u.readOff 0x108 = 0 ∧ u.readOff 0x109 = 0
      ∧ ∀ off, engineByte s.eng off = none → (∀ i, off ≠ slotOff i 24) → off ≠ 0x10C → off ≠ 0x108 → off ≠ 0x109 →
        u.readOff off = s.readOff off

/-- The end of start-up: RUNNING, the recorded clamp latched, the dividers started, the link IDLE or, with SRST asserted, in a link
reset with cause SWITCH; the hold of accesses ends in the same event, and a held access is made as if it had just arrived (R176, R148,
R96, R163; that it comes after the other steps is the model's choice, log 30). While the posts of a link reset wait, the setup unit is free
for a write. -/
def Obligations.StartupEnded : Prop :=
  ∀ s : State, s.phase = .swept → s.waiting = [] → Tidy s →
    let s' : State := { s with phase := .running }
    (s.held = [] → s.eng.link.srst = false → Room 5 s →
      Completes .startupEnd s s'
        { s.eng.started with link := Link.tested { s.eng.link with state := .idle } s.eng.orders } [])
    ∧ (s.held = [] → s.eng.link.srst = true →
      Finishes .startupEnd s s' s.eng.started.afterLinkReset (s.eng.resetPosts .switch))
    ∧ (∃ t, exec .startupEnd s = .next t ∧ t.phase = .running ∧ t.held = []
        ∧ (s.held = [] → t.pwait = false ∧ ∀ w ∈ t.waiting, .setupUnit ∉ w.keeps))
    ∧ ∀ a t u, s.held = [a] → exec .startupEnd { s with held := [] } = .next t → Quiet t → exec a.command t = .next u →
      exec .startupEnd s = .next u

/-! ### The whole part -/

/-- The part right after reset: every value the spec gives at power-on, no post, no snapshot, and both invariants; the setup in use, the
copies and memory are the model's choice (R1, R24, R48, R62, R95, R97, R98, R111, R148, R163, R164, R169; logs 3 and 4). -/
def Obligations.ResetState : Prop :=
  let s := State.reset
  Inv s ∧ Settled s
  ∧ s.phase = .inReset ∧ s.posts = [] ∧ s.snapshot = none ∧ s.side = .free ∧ s.waiting = [] ∧ s.held = [] ∧ s.pending = []
  ∧ s.moves = []
  ∧ (∀ i,
      let x := s.eng.slot i
      x.state = .free ∧ x.leg = .absent ∧ x.flags.byte = 0 ∧ x.outcome = .none ∧ x.timer.kind = .none ∧ x.timer.running = false
        ∧ x.request = none ∧ x.ret = none ∧ x.kept = none ∧ x.callRef = 0 ∧ x.deadline = 0 ∧ x.group = 0 ∧ x.cls = .external
        ∧ x.tag = 0 ∧ x.entryTime = 0 ∧ x.rank = 0 ∧ x.dest = 0 ∧ x.recalls = 0
        ∧ ∀ k < 24, engineByte s.eng (slotOff i k) = some 0)
  ∧ s.eng.refMap = [] ∧ s.eng.talkPath = none ∧ s.eng.queue = [] ∧ s.eng.camps = [] ∧ s.eng.orders = []
  ∧ s.eng.figures.length = 0 ∧ s.eng.figures.head = none
  ∧ (∀ g : GroupId, s.eng.figures.counts[g] = 0 ∧ s.eng.figures.heads[g] = none)
  ∧ (engineByte s.eng 0x113 = some 0 ∧ engineByte s.eng 0x114 = some 0xFF
      ∧ ∀ k < 8, engineByte s.eng (0x120 + k) = some 0 ∧ engineByte s.eng (0x128 + k) = some 0xFF)
  ∧ s.eng.mode = .day ∧ s.eng.console.inFlight = none ∧ s.eng.console.outcome = .none ∧ s.eng.console.answered = none
  ∧ (∀ st, s.eng.condition st = .unknown) ∧ s.eng.time = 0 ∧ s.eng.due = [] ∧ s.eng.ticks = []
  ∧ (∀ g, (s.eng.group g).count = 0 ∧ (s.eng.group g).overflow = false)
  ∧ s.eng.link.state = .offline ∧ s.eng.link.scc = false ∧ s.eng.link.srstDrive = false ∧ s.eng.link.attempts = 0
  ∧ s.eng.link.hand = .idle ∧ s.eng.link.tx = [] ∧ s.eng.link.inExchange = false
  ∧ s.eng.link.rx = [] ∧ s.eng.journal = { head := 0, tail := 0, lowCopy := 0, overrun := false }
  ∧ s.eng.causes = 0 ∧ s.eng.dropped = 0xFF

/-- Every step keeps the invariant, whatever the state. -/
def Obligations.StepKeepsTheInvariant : Prop := ∀ s t : State, Inv s → step s = .next t → Inv t

/-- How calls stand between events is kept: from a part between events, every command, once its event has made all its posts, leaves
a part between events (R1, R7, R9, R20, R26, R91, R98, R100, R111, R137, R144). -/
def Obligations.StructureKept : Prop :=
  ∀ (s t : State) (n : Nat), Settled s → step s = .next t → (drained n t).waiting = [] → Settled (drained n t)

/-- A read of an engine-owned byte outside the journal ring returns the engine's current value, after every command whose event
has found room (R155). -/
def Obligations.StepKeepsBytesCurrent : Prop :=
  ∀ s t : State, Quiet s → Tidy s → Current s → step s = .next t → t.waiting = [] → t.phase = .running → Current t

/-- Progress: nothing is lost to a full posting queue: from a part that is free to take an event, every command answers a next state, and its
event comes to its end as entries drain (R157). -/
def Obligations.EveryEventFinishes : Prop :=
  ∀ (c : Instr) (s : State), Quiet s → Tidy s → ∃ t n, exec c s = .next t ∧ (drained n t).waiting = []
end

