-- ==== Sys2Proof/Laws/State.lean ====
section
/-!
SUPPORT. One lemma per field per update of the state and of the engine, and the reads of an updated slot,
group or station.
-/
namespace Sys2Proof.Machine

@[simp] theorem Engine.setSlot_refMap (e : Engine) (i : SlotId) (x : Slot) : (e.setSlot i x).refMap = e.refMap := rfl
@[simp] theorem Engine.setSlot_talkPath (e : Engine) (i : SlotId) (x : Slot) : (e.setSlot i x).talkPath = e.talkPath := rfl
@[simp] theorem Engine.setSlot_queue (e : Engine) (i : SlotId) (x : Slot) : (e.setSlot i x).queue = e.queue := rfl
@[simp] theorem Engine.setSlot_figures (e : Engine) (i : SlotId) (x : Slot) : (e.setSlot i x).figures = e.figures := rfl
@[simp] theorem Engine.setSlot_mode (e : Engine) (i : SlotId) (x : Slot) : (e.setSlot i x).mode = e.mode := rfl
@[simp] theorem Engine.setSlot_console (e : Engine) (i : SlotId) (x : Slot) : (e.setSlot i x).console = e.console := rfl
@[simp] theorem Engine.setSlot_stations (e : Engine) (i : SlotId) (x : Slot) : (e.setSlot i x).stations = e.stations := rfl
@[simp] theorem Engine.setSlot_camps (e : Engine) (i : SlotId) (x : Slot) : (e.setSlot i x).camps = e.camps := rfl
@[simp] theorem Engine.setSlot_time (e : Engine) (i : SlotId) (x : Slot) : (e.setSlot i x).time = e.time := rfl
@[simp] theorem Engine.setSlot_tickPeriod (e : Engine) (i : SlotId) (x : Slot) : (e.setSlot i x).tickPeriod = e.tickPeriod := rfl
@[simp] theorem Engine.setSlot_linkPeriod (e : Engine) (i : SlotId) (x : Slot) : (e.setSlot i x).linkPeriod = e.linkPeriod := rfl
@[simp] theorem Engine.setSlot_due (e : Engine) (i : SlotId) (x : Slot) : (e.setSlot i x).due = e.due := rfl
@[simp] theorem Engine.setSlot_ticks (e : Engine) (i : SlotId) (x : Slot) : (e.setSlot i x).ticks = e.ticks := rfl
@[simp] theorem Engine.setSlot_monitor (e : Engine) (i : SlotId) (x : Slot) : (e.setSlot i x).monitor = e.monitor := rfl
@[simp] theorem Engine.setSlot_link (e : Engine) (i : SlotId) (x : Slot) : (e.setSlot i x).link = e.link := rfl
@[simp] theorem Engine.setSlot_orders (e : Engine) (i : SlotId) (x : Slot) : (e.setSlot i x).orders = e.orders := rfl
@[simp] theorem Engine.setSlot_journal (e : Engine) (i : SlotId) (x : Slot) : (e.setSlot i x).journal = e.journal := rfl
@[simp] theorem Engine.setSlot_causes (e : Engine) (i : SlotId) (x : Slot) : (e.setSlot i x).causes = e.causes := rfl
@[simp] theorem Engine.setSlot_dropped (e : Engine) (i : SlotId) (x : Slot) : (e.setSlot i x).dropped = e.dropped := rfl
@[simp] theorem Engine.setSlot_setup (e : Engine) (i : SlotId) (x : Slot) : (e.setSlot i x).setup = e.setup := rfl
@[simp] theorem Engine.setSlot_copies (e : Engine) (i : SlotId) (x : Slot) : (e.setSlot i x).copies = e.copies := rfl
@[simp] theorem Engine.setSlot_clampNoted (e : Engine) (i : SlotId) (x : Slot) : (e.setSlot i x).clampNoted = e.clampNoted := rfl

@[simp] theorem Engine.onSlot_refMap (e : Engine) (i : SlotId) (f : Slot → Slot) : (e.onSlot i f).refMap = e.refMap := rfl
@[simp] theorem Engine.onSlot_talkPath (e : Engine) (i : SlotId) (f : Slot → Slot) : (e.onSlot i f).talkPath = e.talkPath := rfl
@[simp] theorem Engine.onSlot_queue (e : Engine) (i : SlotId) (f : Slot → Slot) : (e.onSlot i f).queue = e.queue := rfl
@[simp] theorem Engine.onSlot_figures (e : Engine) (i : SlotId) (f : Slot → Slot) : (e.onSlot i f).figures = e.figures := rfl
@[simp] theorem Engine.onSlot_mode (e : Engine) (i : SlotId) (f : Slot → Slot) : (e.onSlot i f).mode = e.mode := rfl
@[simp] theorem Engine.onSlot_console (e : Engine) (i : SlotId) (f : Slot → Slot) : (e.onSlot i f).console = e.console := rfl
@[simp] theorem Engine.onSlot_stations (e : Engine) (i : SlotId) (f : Slot → Slot) : (e.onSlot i f).stations = e.stations := rfl
@[simp] theorem Engine.onSlot_camps (e : Engine) (i : SlotId) (f : Slot → Slot) : (e.onSlot i f).camps = e.camps := rfl
@[simp] theorem Engine.onSlot_time (e : Engine) (i : SlotId) (f : Slot → Slot) : (e.onSlot i f).time = e.time := rfl
@[simp] theorem Engine.onSlot_tickPeriod (e : Engine) (i : SlotId) (f : Slot → Slot) : (e.onSlot i f).tickPeriod = e.tickPeriod := rfl
@[simp] theorem Engine.onSlot_linkPeriod (e : Engine) (i : SlotId) (f : Slot → Slot) : (e.onSlot i f).linkPeriod = e.linkPeriod := rfl
@[simp] theorem Engine.onSlot_due (e : Engine) (i : SlotId) (f : Slot → Slot) : (e.onSlot i f).due = e.due := rfl
@[simp] theorem Engine.onSlot_ticks (e : Engine) (i : SlotId) (f : Slot → Slot) : (e.onSlot i f).ticks = e.ticks := rfl
@[simp] theorem Engine.onSlot_monitor (e : Engine) (i : SlotId) (f : Slot → Slot) : (e.onSlot i f).monitor = e.monitor := rfl
@[simp] theorem Engine.onSlot_link (e : Engine) (i : SlotId) (f : Slot → Slot) : (e.onSlot i f).link = e.link := rfl
@[simp] theorem Engine.onSlot_orders (e : Engine) (i : SlotId) (f : Slot → Slot) : (e.onSlot i f).orders = e.orders := rfl
@[simp] theorem Engine.onSlot_journal (e : Engine) (i : SlotId) (f : Slot → Slot) : (e.onSlot i f).journal = e.journal := rfl
@[simp] theorem Engine.onSlot_causes (e : Engine) (i : SlotId) (f : Slot → Slot) : (e.onSlot i f).causes = e.causes := rfl
@[simp] theorem Engine.onSlot_dropped (e : Engine) (i : SlotId) (f : Slot → Slot) : (e.onSlot i f).dropped = e.dropped := rfl
@[simp] theorem Engine.onSlot_setup (e : Engine) (i : SlotId) (f : Slot → Slot) : (e.onSlot i f).setup = e.setup := rfl
@[simp] theorem Engine.onSlot_copies (e : Engine) (i : SlotId) (f : Slot → Slot) : (e.onSlot i f).copies = e.copies := rfl
@[simp] theorem Engine.onSlot_clampNoted (e : Engine) (i : SlotId) (f : Slot → Slot) : (e.onSlot i f).clampNoted = e.clampNoted := rfl

@[simp] theorem Engine.onGroup_slots (e : Engine) (g : GroupId) (f : GroupMonitor → GroupMonitor) : (e.onGroup g f).slots = e.slots := rfl
@[simp] theorem Engine.onGroup_refMap (e : Engine) (g : GroupId) (f : GroupMonitor → GroupMonitor) : (e.onGroup g f).refMap = e.refMap := rfl
@[simp] theorem Engine.onGroup_talkPath (e : Engine) (g : GroupId) (f : GroupMonitor → GroupMonitor) : (e.onGroup g f).talkPath = e.talkPath := rfl
@[simp] theorem Engine.onGroup_queue (e : Engine) (g : GroupId) (f : GroupMonitor → GroupMonitor) : (e.onGroup g f).queue = e.queue := rfl
@[simp] theorem Engine.onGroup_figures (e : Engine) (g : GroupId) (f : GroupMonitor → GroupMonitor) : (e.onGroup g f).figures = e.figures := rfl
@[simp] theorem Engine.onGroup_mode (e : Engine) (g : GroupId) (f : GroupMonitor → GroupMonitor) : (e.onGroup g f).mode = e.mode := rfl
@[simp] theorem Engine.onGroup_console (e : Engine) (g : GroupId) (f : GroupMonitor → GroupMonitor) : (e.onGroup g f).console = e.console := rfl
@[simp] theorem Engine.onGroup_stations (e : Engine) (g : GroupId) (f : GroupMonitor → GroupMonitor) : (e.onGroup g f).stations = e.stations := rfl
@[simp] theorem Engine.onGroup_camps (e : Engine) (g : GroupId) (f : GroupMonitor → GroupMonitor) : (e.onGroup g f).camps = e.camps := rfl
@[simp] theorem Engine.onGroup_time (e : Engine) (g : GroupId) (f : GroupMonitor → GroupMonitor) : (e.onGroup g f).time = e.time := rfl
@[simp] theorem Engine.onGroup_tickPeriod (e : Engine) (g : GroupId) (f : GroupMonitor → GroupMonitor) : (e.onGroup g f).tickPeriod = e.tickPeriod := rfl
@[simp] theorem Engine.onGroup_linkPeriod (e : Engine) (g : GroupId) (f : GroupMonitor → GroupMonitor) : (e.onGroup g f).linkPeriod = e.linkPeriod := rfl
@[simp] theorem Engine.onGroup_due (e : Engine) (g : GroupId) (f : GroupMonitor → GroupMonitor) : (e.onGroup g f).due = e.due := rfl
@[simp] theorem Engine.onGroup_ticks (e : Engine) (g : GroupId) (f : GroupMonitor → GroupMonitor) : (e.onGroup g f).ticks = e.ticks := rfl
@[simp] theorem Engine.onGroup_link (e : Engine) (g : GroupId) (f : GroupMonitor → GroupMonitor) : (e.onGroup g f).link = e.link := rfl
@[simp] theorem Engine.onGroup_orders (e : Engine) (g : GroupId) (f : GroupMonitor → GroupMonitor) : (e.onGroup g f).orders = e.orders := rfl
@[simp] theorem Engine.onGroup_journal (e : Engine) (g : GroupId) (f : GroupMonitor → GroupMonitor) : (e.onGroup g f).journal = e.journal := rfl
@[simp] theorem Engine.onGroup_causes (e : Engine) (g : GroupId) (f : GroupMonitor → GroupMonitor) : (e.onGroup g f).causes = e.causes := rfl
@[simp] theorem Engine.onGroup_dropped (e : Engine) (g : GroupId) (f : GroupMonitor → GroupMonitor) : (e.onGroup g f).dropped = e.dropped := rfl
@[simp] theorem Engine.onGroup_setup (e : Engine) (g : GroupId) (f : GroupMonitor → GroupMonitor) : (e.onGroup g f).setup = e.setup := rfl
@[simp] theorem Engine.onGroup_copies (e : Engine) (g : GroupId) (f : GroupMonitor → GroupMonitor) : (e.onGroup g f).copies = e.copies := rfl
@[simp] theorem Engine.onGroup_clampNoted (e : Engine) (g : GroupId) (f : GroupMonitor → GroupMonitor) : (e.onGroup g f).clampNoted = e.clampNoted := rfl

@[simp] theorem Engine.onLink_slots (e : Engine) (f : Link → Link) : (e.onLink f).slots = e.slots := rfl
@[simp] theorem Engine.onLink_refMap (e : Engine) (f : Link → Link) : (e.onLink f).refMap = e.refMap := rfl
@[simp] theorem Engine.onLink_talkPath (e : Engine) (f : Link → Link) : (e.onLink f).talkPath = e.talkPath := rfl
@[simp] theorem Engine.onLink_queue (e : Engine) (f : Link → Link) : (e.onLink f).queue = e.queue := rfl
@[simp] theorem Engine.onLink_figures (e : Engine) (f : Link → Link) : (e.onLink f).figures = e.figures := rfl
@[simp] theorem Engine.onLink_mode (e : Engine) (f : Link → Link) : (e.onLink f).mode = e.mode := rfl
@[simp] theorem Engine.onLink_console (e : Engine) (f : Link → Link) : (e.onLink f).console = e.console := rfl
@[simp] theorem Engine.onLink_stations (e : Engine) (f : Link → Link) : (e.onLink f).stations = e.stations := rfl
@[simp] theorem Engine.onLink_camps (e : Engine) (f : Link → Link) : (e.onLink f).camps = e.camps := rfl
@[simp] theorem Engine.onLink_time (e : Engine) (f : Link → Link) : (e.onLink f).time = e.time := rfl
@[simp] theorem Engine.onLink_tickPeriod (e : Engine) (f : Link → Link) : (e.onLink f).tickPeriod = e.tickPeriod := rfl
@[simp] theorem Engine.onLink_linkPeriod (e : Engine) (f : Link → Link) : (e.onLink f).linkPeriod = e.linkPeriod := rfl
@[simp] theorem Engine.onLink_due (e : Engine) (f : Link → Link) : (e.onLink f).due = e.due := rfl
@[simp] theorem Engine.onLink_ticks (e : Engine) (f : Link → Link) : (e.onLink f).ticks = e.ticks := rfl
@[simp] theorem Engine.onLink_monitor (e : Engine) (f : Link → Link) : (e.onLink f).monitor = e.monitor := rfl
@[simp] theorem Engine.onLink_orders (e : Engine) (f : Link → Link) : (e.onLink f).orders = e.orders := rfl
@[simp] theorem Engine.onLink_journal (e : Engine) (f : Link → Link) : (e.onLink f).journal = e.journal := rfl
@[simp] theorem Engine.onLink_causes (e : Engine) (f : Link → Link) : (e.onLink f).causes = e.causes := rfl
@[simp] theorem Engine.onLink_dropped (e : Engine) (f : Link → Link) : (e.onLink f).dropped = e.dropped := rfl
@[simp] theorem Engine.onLink_setup (e : Engine) (f : Link → Link) : (e.onLink f).setup = e.setup := rfl
@[simp] theorem Engine.onLink_copies (e : Engine) (f : Link → Link) : (e.onLink f).copies = e.copies := rfl
@[simp] theorem Engine.onLink_clampNoted (e : Engine) (f : Link → Link) : (e.onLink f).clampNoted = e.clampNoted := rfl

@[simp] theorem Engine.onJournal_slots (e : Engine) (f : Journal → Journal) : (e.onJournal f).slots = e.slots := rfl
@[simp] theorem Engine.onJournal_refMap (e : Engine) (f : Journal → Journal) : (e.onJournal f).refMap = e.refMap := rfl
@[simp] theorem Engine.onJournal_talkPath (e : Engine) (f : Journal → Journal) : (e.onJournal f).talkPath = e.talkPath := rfl
@[simp] theorem Engine.onJournal_queue (e : Engine) (f : Journal → Journal) : (e.onJournal f).queue = e.queue := rfl
@[simp] theorem Engine.onJournal_figures (e : Engine) (f : Journal → Journal) : (e.onJournal f).figures = e.figures := rfl
@[simp] theorem Engine.onJournal_mode (e : Engine) (f : Journal → Journal) : (e.onJournal f).mode = e.mode := rfl
@[simp] theorem Engine.onJournal_console (e : Engine) (f : Journal → Journal) : (e.onJournal f).console = e.console := rfl
@[simp] theorem Engine.onJournal_stations (e : Engine) (f : Journal → Journal) : (e.onJournal f).stations = e.stations := rfl
@[simp] theorem Engine.onJournal_camps (e : Engine) (f : Journal → Journal) : (e.onJournal f).camps = e.camps := rfl
@[simp] theorem Engine.onJournal_time (e : Engine) (f : Journal → Journal) : (e.onJournal f).time = e.time := rfl
@[simp] theorem Engine.onJournal_tickPeriod (e : Engine) (f : Journal → Journal) : (e.onJournal f).tickPeriod = e.tickPeriod := rfl
@[simp] theorem Engine.onJournal_linkPeriod (e : Engine) (f : Journal → Journal) : (e.onJournal f).linkPeriod = e.linkPeriod := rfl
@[simp] theorem Engine.onJournal_due (e : Engine) (f : Journal → Journal) : (e.onJournal f).due = e.due := rfl
@[simp] theorem Engine.onJournal_ticks (e : Engine) (f : Journal → Journal) : (e.onJournal f).ticks = e.ticks := rfl
@[simp] theorem Engine.onJournal_monitor (e : Engine) (f : Journal → Journal) : (e.onJournal f).monitor = e.monitor := rfl
@[simp] theorem Engine.onJournal_link (e : Engine) (f : Journal → Journal) : (e.onJournal f).link = e.link := rfl
@[simp] theorem Engine.onJournal_orders (e : Engine) (f : Journal → Journal) : (e.onJournal f).orders = e.orders := rfl
@[simp] theorem Engine.onJournal_causes (e : Engine) (f : Journal → Journal) : (e.onJournal f).causes = e.causes := rfl
@[simp] theorem Engine.onJournal_dropped (e : Engine) (f : Journal → Journal) : (e.onJournal f).dropped = e.dropped := rfl
@[simp] theorem Engine.onJournal_setup (e : Engine) (f : Journal → Journal) : (e.onJournal f).setup = e.setup := rfl
@[simp] theorem Engine.onJournal_copies (e : Engine) (f : Journal → Journal) : (e.onJournal f).copies = e.copies := rfl
@[simp] theorem Engine.onJournal_clampNoted (e : Engine) (f : Journal → Journal) : (e.onJournal f).clampNoted = e.clampNoted := rfl
@[simp] theorem Engine.onJournal_journal (e : Engine) (f : Journal → Journal) : (e.onJournal f).journal = f e.journal := rfl

@[simp] theorem Engine.setCondition_slots (e : Engine) (st : Byte) (c : Condition) : (e.setCondition st c).slots = e.slots := rfl
@[simp] theorem Engine.setCondition_refMap (e : Engine) (st : Byte) (c : Condition) : (e.setCondition st c).refMap = e.refMap := rfl
@[simp] theorem Engine.setCondition_talkPath (e : Engine) (st : Byte) (c : Condition) : (e.setCondition st c).talkPath = e.talkPath := rfl
@[simp] theorem Engine.setCondition_queue (e : Engine) (st : Byte) (c : Condition) : (e.setCondition st c).queue = e.queue := rfl
@[simp] theorem Engine.setCondition_figures (e : Engine) (st : Byte) (c : Condition) : (e.setCondition st c).figures = e.figures := rfl
@[simp] theorem Engine.setCondition_mode (e : Engine) (st : Byte) (c : Condition) : (e.setCondition st c).mode = e.mode := rfl
@[simp] theorem Engine.setCondition_console (e : Engine) (st : Byte) (c : Condition) : (e.setCondition st c).console = e.console := rfl
@[simp] theorem Engine.setCondition_camps (e : Engine) (st : Byte) (c : Condition) : (e.setCondition st c).camps = e.camps := rfl
@[simp] theorem Engine.setCondition_time (e : Engine) (st : Byte) (c : Condition) : (e.setCondition st c).time = e.time := rfl
@[simp] theorem Engine.setCondition_tickPeriod (e : Engine) (st : Byte) (c : Condition) : (e.setCondition st c).tickPeriod = e.tickPeriod := rfl
@[simp] theorem Engine.setCondition_linkPeriod (e : Engine) (st : Byte) (c : Condition) : (e.setCondition st c).linkPeriod = e.linkPeriod := rfl
@[simp] theorem Engine.setCondition_due (e : Engine) (st : Byte) (c : Condition) : (e.setCondition st c).due = e.due := rfl
@[simp] theorem Engine.setCondition_ticks (e : Engine) (st : Byte) (c : Condition) : (e.setCondition st c).ticks = e.ticks := rfl
@[simp] theorem Engine.setCondition_monitor (e : Engine) (st : Byte) (c : Condition) : (e.setCondition st c).monitor = e.monitor := rfl
@[simp] theorem Engine.setCondition_link (e : Engine) (st : Byte) (c : Condition) : (e.setCondition st c).link = e.link := rfl
@[simp] theorem Engine.setCondition_orders (e : Engine) (st : Byte) (c : Condition) : (e.setCondition st c).orders = e.orders := rfl
@[simp] theorem Engine.setCondition_journal (e : Engine) (st : Byte) (c : Condition) : (e.setCondition st c).journal = e.journal := rfl
@[simp] theorem Engine.setCondition_causes (e : Engine) (st : Byte) (c : Condition) : (e.setCondition st c).causes = e.causes := rfl
@[simp] theorem Engine.setCondition_dropped (e : Engine) (st : Byte) (c : Condition) : (e.setCondition st c).dropped = e.dropped := rfl
@[simp] theorem Engine.setCondition_setup (e : Engine) (st : Byte) (c : Condition) : (e.setCondition st c).setup = e.setup := rfl
@[simp] theorem Engine.setCondition_copies (e : Engine) (st : Byte) (c : Condition) : (e.setCondition st c).copies = e.copies := rfl
@[simp] theorem Engine.setCondition_clampNoted (e : Engine) (st : Byte) (c : Condition) : (e.setCondition st c).clampNoted = e.clampNoted := rfl

/-! A cycle begins or ends at the memory side; a post, and an event's posts: all else is as it was. -/

@[simp] theorem State.beginCycle_phase (s : State) : s.beginCycle.phase = s.phase := by unfold State.beginCycle; split <;> rfl
@[simp] theorem State.beginCycle_eng (s : State) : s.beginCycle.eng = s.eng := by unfold State.beginCycle; split <;> rfl
@[simp] theorem State.beginCycle_base (s : State) : s.beginCycle.base = s.base := by unfold State.beginCycle; split <;> rfl
@[simp] theorem State.beginCycle_mem (s : State) : s.beginCycle.mem = s.mem := by unfold State.beginCycle; split <;> rfl
@[simp] theorem State.beginCycle_snapshot (s : State) : s.beginCycle.snapshot = s.snapshot := by unfold State.beginCycle; split <;> rfl
@[simp] theorem State.beginCycle_readData (s : State) : s.beginCycle.readData = s.readData := by unfold State.beginCycle; split <;> rfl
@[simp] theorem State.beginCycle_held (s : State) : s.beginCycle.held = s.held := by unfold State.beginCycle; split <;> rfl
@[simp] theorem State.beginCycle_waiting (s : State) : s.beginCycle.waiting = s.waiting := by unfold State.beginCycle; split <;> rfl
@[simp] theorem State.beginCycle_moves (s : State) : s.beginCycle.moves = s.moves := by unfold State.beginCycle; split <;> rfl
@[simp] theorem State.beginCycle_pending (s : State) : s.beginCycle.pending = s.pending := by unfold State.beginCycle; split <;> rfl

@[simp] theorem State.endCycle_phase (s : State) : s.endCycle.phase = s.phase := by unfold State.endCycle; split <;> rfl
@[simp] theorem State.endCycle_eng (s : State) : s.endCycle.eng = s.eng := by unfold State.endCycle; split <;> rfl
@[simp] theorem State.endCycle_base (s : State) : s.endCycle.base = s.base := by unfold State.endCycle; split <;> rfl
@[simp] theorem State.endCycle_snapshot (s : State) : s.endCycle.snapshot = s.snapshot := by unfold State.endCycle; split <;> rfl
@[simp] theorem State.endCycle_readData (s : State) : s.endCycle.readData = s.readData := by unfold State.endCycle; split <;> rfl
@[simp] theorem State.endCycle_held (s : State) : s.endCycle.held = s.held := by unfold State.endCycle; split <;> rfl
@[simp] theorem State.endCycle_waiting (s : State) : s.endCycle.waiting = s.waiting := by unfold State.endCycle; split <;> rfl
@[simp] theorem State.endCycle_moves (s : State) : s.endCycle.moves = s.moves := by unfold State.endCycle; split <;> rfl
@[simp] theorem State.endCycle_pending (s : State) : s.endCycle.pending = s.pending := by unfold State.endCycle; split <;> rfl
@[simp] theorem State.endCycle_posts (s : State) : s.endCycle.posts = s.posts := by unfold State.endCycle; split <;> rfl

@[simp] theorem State.push_phase (s : State) (p : Post) : (s.push p).phase = s.phase := State.beginCycle_phase _
@[simp] theorem State.push_eng (s : State) (p : Post) : (s.push p).eng = s.eng := State.beginCycle_eng _
@[simp] theorem State.push_base (s : State) (p : Post) : (s.push p).base = s.base := State.beginCycle_base _
@[simp] theorem State.push_mem (s : State) (p : Post) : (s.push p).mem = s.mem := State.beginCycle_mem _
@[simp] theorem State.push_snapshot (s : State) (p : Post) : (s.push p).snapshot = s.snapshot := State.beginCycle_snapshot _
@[simp] theorem State.push_readData (s : State) (p : Post) : (s.push p).readData = s.readData := State.beginCycle_readData _
@[simp] theorem State.push_held (s : State) (p : Post) : (s.push p).held = s.held := State.beginCycle_held _
@[simp] theorem State.push_waiting (s : State) (p : Post) : (s.push p).waiting = s.waiting := State.beginCycle_waiting _
@[simp] theorem State.push_moves (s : State) (p : Post) : (s.push p).moves = s.moves := State.beginCycle_moves _
@[simp] theorem State.push_pending (s : State) (p : Post) : (s.push p).pending = s.pending := State.beginCycle_pending _

@[simp] theorem State.postAll_nil (s : State) : s.postAll [] = s := rfl
@[simp] theorem State.postAll_cons (s : State) (p : Post) (ps : List Post) : s.postAll (p :: ps) = (s.push p).postAll ps := rfl
theorem State.postAll_append (s : State) (ps qs : List Post) : s.postAll (ps ++ qs) = (s.postAll ps).postAll qs := List.foldl_append

@[simp] theorem State.postAll_phase (s : State) (ps : List Post) : (s.postAll ps).phase = s.phase := by
  induction ps generalizing s with
  | nil => rfl
  | cons p ps ih => exact (ih _).trans (s.push_phase p)
@[simp] theorem State.postAll_eng (s : State) (ps : List Post) : (s.postAll ps).eng = s.eng := by
  induction ps generalizing s with
  | nil => rfl
  | cons p ps ih => exact (ih _).trans (s.push_eng p)
@[simp] theorem State.postAll_base (s : State) (ps : List Post) : (s.postAll ps).base = s.base := by
  induction ps generalizing s with
  | nil => rfl
  | cons p ps ih => exact (ih _).trans (s.push_base p)
@[simp] theorem State.postAll_mem (s : State) (ps : List Post) : (s.postAll ps).mem = s.mem := by
  induction ps generalizing s with
  | nil => rfl
  | cons p ps ih => exact (ih _).trans (s.push_mem p)
@[simp] theorem State.postAll_snapshot (s : State) (ps : List Post) : (s.postAll ps).snapshot = s.snapshot := by
  induction ps generalizing s with
  | nil => rfl
  | cons p ps ih => exact (ih _).trans (s.push_snapshot p)
@[simp] theorem State.postAll_readData (s : State) (ps : List Post) : (s.postAll ps).readData = s.readData := by
  induction ps generalizing s with
  | nil => rfl
  | cons p ps ih => exact (ih _).trans (s.push_readData p)
@[simp] theorem State.postAll_held (s : State) (ps : List Post) : (s.postAll ps).held = s.held := by
  induction ps generalizing s with
  | nil => rfl
  | cons p ps ih => exact (ih _).trans (s.push_held p)
@[simp] theorem State.postAll_waiting (s : State) (ps : List Post) : (s.postAll ps).waiting = s.waiting := by
  induction ps generalizing s with
  | nil => rfl
  | cons p ps ih => exact (ih _).trans (s.push_waiting p)
@[simp] theorem State.postAll_moves (s : State) (ps : List Post) : (s.postAll ps).moves = s.moves := by
  induction ps generalizing s with
  | nil => rfl
  | cons p ps ih => exact (ih _).trans (s.push_moves p)
@[simp] theorem State.postAll_pending (s : State) (ps : List Post) : (s.postAll ps).pending = s.pending := by
  induction ps generalizing s with
  | nil => rfl
  | cons p ps ih => exact (ih _).trans (s.push_pending p)

@[simp] theorem State.after_phase (s : State) (r : Engine × List Post) : (s.after r).phase = s.phase := s.postAll_phase r.2
@[simp] theorem State.after_base (s : State) (r : Engine × List Post) : (s.after r).base = s.base := s.postAll_base r.2
@[simp] theorem State.after_mem (s : State) (r : Engine × List Post) : (s.after r).mem = s.mem := s.postAll_mem r.2
@[simp] theorem State.after_snapshot (s : State) (r : Engine × List Post) : (s.after r).snapshot = s.snapshot := s.postAll_snapshot r.2
@[simp] theorem State.after_readData (s : State) (r : Engine × List Post) : (s.after r).readData = s.readData := s.postAll_readData r.2
@[simp] theorem State.after_held (s : State) (r : Engine × List Post) : (s.after r).held = s.held := s.postAll_held r.2
@[simp] theorem State.after_waiting (s : State) (r : Engine × List Post) : (s.after r).waiting = s.waiting := s.postAll_waiting r.2
@[simp] theorem State.after_moves (s : State) (r : Engine × List Post) : (s.after r).moves = s.moves := s.postAll_moves r.2
@[simp] theorem State.after_pending (s : State) (r : Engine × List Post) : (s.after r).pending = s.pending := s.postAll_pending r.2
@[simp] theorem State.after_eng (s : State) (r : Engine × List Post) : (s.after r).eng = r.1 := rfl
@[simp] theorem State.after_posts (s : State) (r : Engine × List Post) : (s.after r).posts = (s.postAll r.2).posts := rfl
@[simp] theorem State.after_side (s : State) (r : Engine × List Post) : (s.after r).side = (s.postAll r.2).side := rfl

@[simp] theorem Engine.onLink_link (e : Engine) (f : Link → Link) : (e.onLink f).link = f e.link := rfl
@[simp] theorem Engine.setSlot_slots (e : Engine) (i : SlotId) (x : Slot) : (e.setSlot i x).slots = e.slots.set i x := rfl

/-! ### Reads of what was written -/

@[simp] theorem Engine.slot_setSlot_self (e : Engine) (i : SlotId) (x : Slot) : (e.setSlot i x).slot i = x := by
  simp [Engine.slot, Engine.setSlot]

theorem Engine.slot_setSlot_ne (e : Engine) {i j : SlotId} (x : Slot) (h : j ≠ i) : (e.setSlot i x).slot j = e.slot j := by
  have : (i : Nat) ≠ j := fun hc => h (Fin.ext hc.symm)
  simp [Engine.slot, Engine.setSlot, Vector.getElem_set_ne, this]

@[simp] theorem Engine.slot_onSlot_self (e : Engine) (i : SlotId) (f : Slot → Slot) :
    (e.onSlot i f).slot i = f (e.slot i) := Engine.slot_setSlot_self _ _ _

theorem Engine.slot_onSlot_ne (e : Engine) {i j : SlotId} (f : Slot → Slot) (h : j ≠ i) :
    (e.onSlot i f).slot j = e.slot j := Engine.slot_setSlot_ne _ _ h

@[simp] theorem Engine.group_onGroup_self (e : Engine) (g : GroupId) (f : GroupMonitor → GroupMonitor) :
    (e.onGroup g f).group g = f (e.group g) := by
  simp [Engine.group, Engine.onGroup]

theorem Engine.group_onGroup_ne (e : Engine) {g k : GroupId} (f : GroupMonitor → GroupMonitor) (h : k ≠ g) :
    (e.onGroup g f).group k = e.group k := by
  have : (g : Nat) ≠ k := fun hc => h (Fin.ext hc.symm)
  simp [Engine.group, Engine.onGroup, Vector.getElem_set_ne, this]

@[simp] theorem Engine.condition_setCondition_self (e : Engine) (st : Byte) (c : Condition) :
    (e.setCondition st c).condition st = c := by
  simp [Engine.condition, Engine.setCondition]

theorem Engine.condition_setCondition_ne (e : Engine) {st u : Byte} (c : Condition) (h : u ≠ st) :
    (e.setCondition st c).condition u = e.condition u := by
  have : (st.toNat : Nat) ≠ u.toNat := fun hc => h (BitVec.eq_of_toNat_eq hc.symm)
  simp [Engine.condition, Engine.setCondition, Vector.getElem_set_ne, this]

theorem Engine.onSlot_eq (e : Engine) (i : SlotId) (f : Slot → Slot) : e.onSlot i f = e.setSlot i (f (e.slot i)) := rfl

@[simp] theorem Engine.setSlot_setSlot (e : Engine) (i : SlotId) (x y : Slot) :
    (e.setSlot i x).setSlot i y = e.setSlot i y := by
  simp [Engine.setSlot]

@[simp] theorem Engine.setSlot_slot (e : Engine) (i : SlotId) : e.setSlot i (e.slot i) = e := by
  simp [Engine.setSlot, Engine.slot]

end Sys2Proof.Machine
end

