-- ==== Sys2Proof/Laws/Memory.lean ====
section
/-!
SUPPORT. Console memory: a write is read back, leaves every other byte alone and keeps the canonical form.
-/
namespace Sys2Proof.Machine

/-- The canonical form, cell by cell. -/
theorem memWf_cons (a : Nat) (b : Byte) (m : List Host.Cell) :
    memWf ((a, b) :: m) = true ↔ b ≠ Config.memoryFill ∧ (∀ c ∈ m, a < c.1) ∧ memWf m = true := by
  induction m generalizing a b with
  | nil => simp [memWf]
  | cons c m ih =>
    obtain ⟨a', b'⟩ := c
    constructor
    · intro h
      simp only [memWf, Bool.and_eq_true, decide_eq_true_eq, bne_iff_ne] at h
      obtain ⟨⟨hb, ha⟩, hw⟩ := h
      refine ⟨hb, ?_, hw⟩
      intro c hc
      rcases List.mem_cons.1 hc with rfl | hc
      · exact ha
      · exact Nat.lt_trans ha (((ih a' b').1 hw).2.1 c hc)
    · rintro ⟨hb, ha, hw⟩
      simp only [memWf, Bool.and_eq_true, decide_eq_true_eq, bne_iff_ne]
      exact ⟨⟨hb, ha _ (List.mem_cons_self ..)⟩, hw⟩

/-- A byte below every listed address is unlisted. -/
theorem memRead_below (m : List Host.Cell) (k : Nat) (h : ∀ c ∈ m, k < c.1) : memRead m k = Config.memoryFill := by
  induction m with
  | nil => rfl
  | cons c m ih =>
    obtain ⟨a, b⟩ := c
    have ha := h (a, b) (List.mem_cons_self ..)
    simp only [memRead]
    rw [if_neg (by simp at ha; omega)]
    exact ih fun c hc => h c (List.mem_cons_of_mem _ hc)

/-- What a write leaves to be read. -/
theorem memRead_memWrite (m : List Host.Cell) (h : memWf m = true) (k j : Nat) (v : Byte) :
    memRead (memWrite m k v) j = if j = k then v else memRead m j := by
  induction m with
  | nil =>
    unfold memWrite
    by_cases hv : v = Config.memoryFill
    · simp [hv, memRead]
    · simp only [hv, if_false, memRead]; simp [eq_comm]
  | cons c m ih =>
    obtain ⟨a, b⟩ := c
    obtain ⟨hb, ha, hw⟩ := (memWf_cons a b m).1 h
    unfold memWrite
    by_cases h1 : k < a
    · rw [if_pos h1]
      by_cases hv : v = Config.memoryFill
      · rw [if_pos hv]
        by_cases hj : j = k
        · rw [if_pos hj, hj, hv]
          refine memRead_below _ _ ?_
          intro c hc
          rcases List.mem_cons.1 hc with rfl | hc
          · exact h1
          · exact Nat.lt_trans h1 (ha c hc)
        · rw [if_neg hj]
      · rw [if_neg hv]; simp only [memRead, eq_comm]
    · rw [if_neg h1]
      by_cases h2 : k = a
      · rw [if_pos h2]
        by_cases hv : v = Config.memoryFill
        · rw [if_pos hv]
          by_cases hj : j = k
          · rw [if_pos hj, hj, hv]
            exact memRead_below _ _ (by rw [h2]; exact ha)
          · rw [if_neg hj]; simp only [memRead]; rw [if_neg (by omega)]
        · rw [if_neg hv]
          simp only [memRead]
          by_cases hj : j = k
          · simp [hj]
          · rw [if_neg (by omega), if_neg hj, if_neg (by omega)]
      · rw [if_neg h2]
        simp only [memRead]
        by_cases hj : a = j
        · rw [if_pos hj, if_pos hj, if_neg (by omega)]
        · rw [if_neg hj, if_neg hj, ih hw]

/-- The addresses listed after a write. -/
theorem mem_memWrite (m : List Host.Cell) (k : Nat) (v : Byte) (c : Host.Cell) (h : c ∈ memWrite m k v) :
    c ∈ m ∨ c.1 = k := by
  induction m with
  | nil =>
    unfold memWrite at h
    split at h
    · simp at h
    · right; simp at h; rw [h]
  | cons d m ih =>
    obtain ⟨a, b⟩ := d
    unfold memWrite at h
    split at h
    · split at h
      · exact .inl h
      · rcases List.mem_cons.1 h with rfl | h
        · exact .inr rfl
        · exact .inl h
    · split at h
      · split at h
        · exact .inl (List.mem_cons_of_mem _ h)
        · rcases List.mem_cons.1 h with rfl | h
          · exact .inr rfl
          · exact .inl (List.mem_cons_of_mem _ h)
      · rcases List.mem_cons.1 h with rfl | h
        · exact .inl (List.mem_cons_self ..)
        · exact (ih h).imp (List.mem_cons_of_mem _) id

/-- Every memory write keeps the canonical form. -/
theorem memWf_memWrite (m : List Host.Cell) (h : memWf m = true) (k : Nat) (v : Byte) :
    memWf (memWrite m k v) = true := by
  induction m with
  | nil =>
    unfold memWrite
    split
    · rfl
    · simpa [memWf] using ‹_›
  | cons d m ih =>
    obtain ⟨a, b⟩ := d
    obtain ⟨hb, ha, hw⟩ := (memWf_cons a b m).1 h
    unfold memWrite
    split
    · split
      · exact h
      · refine (memWf_cons ..).2 ⟨‹_›, ?_, h⟩
        intro c hc
        rcases List.mem_cons.1 hc with rfl | hc
        · assumption
        · have := ha c hc; omega
    · split
      · split
        · exact hw
        · refine (memWf_cons ..).2 ⟨‹_›, ?_, hw⟩
          intro c hc
          have := ha c hc; omega
      · refine (memWf_cons ..).2 ⟨hb, ?_, ih hw⟩
        intro c hc
        rcases mem_memWrite m k v c hc with hc | hc
        · exact ha c hc
        · rw [hc]; omega

end Sys2Proof.Machine
end

