-- ==== Sys2Proof/Laws/Posts.lean ====
section
/-!
SUPPORT. The posting queue (R153): what a post leaves pending, how long the queue is, and that it holds one entry an address.
-/
namespace Sys2Proof.Machine

/-- The value pending at an offset in a queue. -/
def pendingIn (q : List Post) (off : Nat) : Option Byte := (q.find? (·.off == off)).map (·.val)

theorem State.pendingAt_eq (s : State) (off : Nat) : s.pendingAt off = pendingIn s.posts off := rfl

@[simp] theorem pendingIn_nil (off : Nat) : pendingIn [] off = none := rfl

theorem pendingIn_cons (p : Post) (q : List Post) (off : Nat) :
    pendingIn (p :: q) off = if p.off = off then some p.val else pendingIn q off := by
  simp only [pendingIn, List.find?_cons]
  by_cases h : p.off = off
  · simp [h]
  · simp [h, beq_eq_false_iff_ne.2 h]

/-- A post is what a read of its byte then returns; every other byte is as it was. -/
theorem pendingIn_pushPost (p : Post) (q : List Post) (off : Nat) :
    pendingIn (pushPost p q) off = if p.off = off then some p.val else pendingIn q off := by
  induction q with
  | nil => simp [pushPost, pendingIn_cons]
  | cons r q ih =>
    simp only [pushPost]
    by_cases h : r.off = p.off
    · rw [if_pos h]; simp only [pendingIn_cons]; by_cases hp : p.off = off
      · simp [hp]
      · have hr : ¬ r.off = off := by omega
        simp [hp, hr]
    · rw [if_neg h]; simp only [pendingIn_cons, ih]
      by_cases hr : r.off = off
      · have hp : ¬ p.off = off := by omega
        simp [hr, hp]
      · simp [hr]

theorem length_pushPost_le (p : Post) (q : List Post) : (pushPost p q).length ≤ q.length + 1 := by
  induction q with
  | nil => simp [pushPost]
  | cons r q ih => simp only [pushPost]; split <;> simp <;> omega

theorem le_length_pushPost (p : Post) (q : List Post) : q.length ≤ (pushPost p q).length := by
  induction q with
  | nil => simp
  | cons r q ih => simp only [pushPost]; split <;> simp <;> omega

theorem length_pushPost_of_mem (p : Post) (q : List Post) (h : q.any (·.off == p.off) = true) :
    (pushPost p q).length = q.length := by
  induction q with
  | nil => simp at h
  | cons r q ih =>
    simp only [pushPost]
    split
    · simp
    · rename_i hr
      have : q.any (·.off == p.off) = true := by simpa [hr] using h
      simp [ih this]

theorem offs_pushPost (p : Post) (q : List Post) (off : Nat) (h : off ∈ (pushPost p q).map (·.off)) :
    off = p.off ∨ off ∈ q.map (·.off) := by
  induction q with
  | nil => simp [pushPost] at h; exact .inl h
  | cons r q ih =>
    simp only [pushPost] at h
    split at h
    · simp only [List.map_cons, List.mem_cons] at h ⊢
      rcases h with h | h
      · exact .inl h
      · exact .inr (.inr h)
    · simp only [List.map_cons, List.mem_cons] at h ⊢
      rcases h with h | h
      · exact .inr (.inl h)
      · exact (ih h).imp id .inr

/-- A post keeps one entry an address (R153). -/
theorem nodup_pushPost (p : Post) (q : List Post) (h : (q.map (·.off)).Nodup) : ((pushPost p q).map (·.off)).Nodup := by
  induction q with
  | nil => simp [pushPost]
  | cons r q ih =>
    simp only [List.map_cons, List.nodup_cons] at h
    simp only [pushPost]
    split
    · rename_i hr
      simp only [List.map_cons, List.nodup_cons]
      exact ⟨by rw [← hr]; exact h.1, h.2⟩
    · rename_i hr
      simp only [List.map_cons, List.nodup_cons]
      refine ⟨fun hc => ?_, ih h.2⟩
      rcases offs_pushPost p q _ hc with hc | hc
      · exact hr hc
      · exact h.1 hc

theorem postsAt_length (off : Nat) (bs : List Byte) : (postsAt off bs).length = bs.length := by
  induction bs generalizing off with
  | nil => rfl
  | cons b bs ih => simp [postsAt, ih]

theorem leBytes_length (n k : Nat) : (leBytes n k).length = k := by
  induction k generalizing n with
  | zero => rfl
  | succ k ih => simp [leBytes, ih]

theorem lastPost_append (ps qs : List Post) (off : Nat) :
    lastPost (ps ++ qs) off = (lastPost qs off).or (lastPost ps off) := by
  induction ps with
  | nil => simp [lastPost]
  | cons p ps ih => simp only [List.cons_append, lastPost, ih, Option.or_assoc]

end Sys2Proof.Machine
end

