-- ==== Sys2Proof/Laws/Reads.lean ====
section
/-!
SUPPORT. What the memory side and the posting queue do to a read (R153, R154, R155): a cycle changes no read, a post is what its byte
then reads, and memory outside the region is as it was.
-/
namespace Sys2Proof.Machine

/-! ### Cycles -/

theorem settledRead_endCycle (s : State) (h : memWf s.mem = true) (a : Nat) : s.endCycle.settledRead a = s.settledRead a := by
  unfold State.endCycle
  cases hs : s.side with
  | free => rfl
  | inserted p =>
    simp only [State.settledRead, hs, memRead_memWrite _ h]
    by_cases hc : a = s.address p.off
    · rw [if_pos hc, if_pos hc.symm]
    · rw [if_neg hc, if_neg (fun h => hc h.symm)]

theorem readOff_endCycle (s : State) (h : memWf s.mem = true) (off : Nat) : s.endCycle.readOff off = s.readOff off := by
  unfold State.readOff
  have h1 : s.endCycle.pendingAt off = s.pendingAt off := by unfold State.endCycle; split <;> rfl
  have h2 : s.endCycle.address off = s.address off := by unfold State.endCycle; split <;> rfl
  rw [h1, h2, settledRead_endCycle s h]

theorem address_inj (s : State) {a b : Nat} (h : s.address a = s.address b) : a = b := by
  unfold State.address at h; omega

theorem readOff_beginCycle (s : State) (hd : (s.posts.map (·.off)).Nodup) (off : Nat) :
    s.beginCycle.readOff off = s.readOff off := by
  unfold State.beginCycle
  split
  · rename_i p ps hs hp
    rw [hp] at hd
    simp only [List.map_cons, List.nodup_cons] at hd
    simp only [State.readOff, State.pendingAt_eq, hp, pendingIn_cons, State.settledRead, hs]
    by_cases h : p.off = off
    · have hn : pendingIn ps off = none := by
        cases hc : pendingIn ps off with
        | none => rfl
        | some v =>
          exfalso
          simp only [pendingIn, Option.map_eq_some_iff] at hc
          obtain ⟨q, hq, _⟩ := hc
          have h1 := List.mem_of_find?_eq_some hq
          have h2 := List.find?_some hq
          exact hd.1 (List.mem_map.2 ⟨q, h1, by simpa [h] using h2⟩)
      subst h
      simp only [hn, Option.getD_none, if_true, Option.getD_some]
    · have hne : ¬ s.address p.off = s.address off := fun hc => h (address_inj s hc)
      simp only [h, if_false]
      have : ({ s with posts := ps, side := .inserted p } : State).address = s.address := rfl
      rw [this, if_neg hne]
  · rfl

theorem settledRead_beginCycle (s : State) (a : Nat) (ha : a < s.address 0) : s.beginCycle.settledRead a = s.settledRead a := by
  unfold State.beginCycle
  split
  · rename_i p ps hs hp
    simp only [State.settledRead, hs]
    have : ({ s with posts := ps, side := .inserted p } : State).address = s.address := rfl
    rw [this, if_neg (by unfold State.address at *; omega)]
  · rfl

theorem length_beginCycle_le (s : State) : s.beginCycle.posts.length ≤ s.posts.length := by
  unfold State.beginCycle
  split
  · rename_i h; simp [h]
  · exact Nat.le_refl _

theorem nodup_beginCycle (s : State) (h : (s.posts.map (·.off)).Nodup) : (s.beginCycle.posts.map (·.off)).Nodup := by
  unfold State.beginCycle
  split
  · rename_i hp
    rw [hp] at h
    simp only [List.map_cons, List.nodup_cons] at h
    exact h.2
  · exact h

/-- What beginning a cycle changes besides the posts and the memory side: nothing. -/
theorem frame_beginCycle (s : State) : s.beginCycle = { s with posts := s.beginCycle.posts, side := s.beginCycle.side } := by
  unfold State.beginCycle
  split <;> rfl

theorem beginCycle_withEng (s : State) (e : Engine) : State.beginCycle { s with eng := e } = { s.beginCycle with eng := e } := by
  unfold State.beginCycle
  simp only
  split <;> rfl

/-! ### Posts -/

theorem length_push_le (s : State) (p : Post) : (s.push p).posts.length ≤ s.posts.length + 1 :=
  Nat.le_trans (length_beginCycle_le _) (length_pushPost_le p s.posts)

theorem nodup_push (s : State) (p : Post) (h : (s.posts.map (·.off)).Nodup) : ((s.push p).posts.map (·.off)).Nodup :=
  nodup_beginCycle _ (nodup_pushPost p s.posts h)

theorem frame_push (s : State) (p : Post) : s.push p = { s with posts := (s.push p).posts, side := (s.push p).side } := by
  unfold State.push
  rw [frame_beginCycle]

theorem push_withEng (s : State) (p : Post) (e : Engine) : State.push { s with eng := e } p = { s.push p with eng := e } :=
  beginCycle_withEng { s with posts := pushPost p s.posts } e

theorem readOff_push (s : State) (hd : (s.posts.map (·.off)).Nodup) (p : Post) (off : Nat) :
    (s.push p).readOff off = if p.off = off then p.val else s.readOff off := by
  unfold State.push
  rw [readOff_beginCycle _ (nodup_pushPost p s.posts hd)]
  simp only [State.readOff, State.pendingAt_eq, pendingIn_pushPost]
  by_cases h : p.off = off
  · simp [h]
  · simp only [h, if_false]; rfl

theorem settledRead_push (s : State) (p : Post) (a : Nat) (ha : a < s.address 0) : (s.push p).settledRead a = s.settledRead a :=
  settledRead_beginCycle { s with posts := pushPost p s.posts } a ha

theorem length_postAll_le (s : State) (ps : List Post) : (s.postAll ps).posts.length ≤ s.posts.length + ps.length := by
  induction ps generalizing s with
  | nil => exact Nat.le_refl _
  | cons p ps ih =>
    have h1 := ih (s.push p)
    have h2 := length_push_le s p
    rw [State.postAll_cons, List.length_cons]
    omega

theorem nodup_postAll (s : State) (ps : List Post) (h : (s.posts.map (·.off)).Nodup) :
    ((s.postAll ps).posts.map (·.off)).Nodup := by
  induction ps generalizing s with
  | nil => exact h
  | cons p ps ih => exact ih _ (nodup_push s p h)

theorem frame_postAll (s : State) (ps : List Post) :
    s.postAll ps = { s with posts := (s.postAll ps).posts, side := (s.postAll ps).side } := by
  induction ps generalizing s with
  | nil => rfl
  | cons p ps ih =>
    rw [State.postAll_cons, ih, frame_push]

theorem postAll_withEng (s : State) (ps : List Post) (e : Engine) :
    State.postAll { s with eng := e } ps = { s.postAll ps with eng := e } := by
  induction ps generalizing s with
  | nil => rfl
  | cons p ps ih => rw [State.postAll_cons, State.postAll_cons, push_withEng, ih]

/-- After an event's posts a read returns the last of them to its byte, and otherwise what it returned (R153, R155). -/
theorem readOff_postAll (s : State) (hd : (s.posts.map (·.off)).Nodup) (ps : List Post) (off : Nat) :
    (s.postAll ps).readOff off = (lastPost ps off).getD (s.readOff off) := by
  induction ps generalizing s with
  | nil => rfl
  | cons p ps ih =>
    rw [State.postAll_cons, ih _ (nodup_push s p hd), readOff_push s hd, lastPost]
    cases lastPost ps off with
    | some v => rfl
    | none => by_cases h : p.off = off <;> simp [h]

theorem settledRead_postAll (s : State) (ps : List Post) (a : Nat) (ha : a < s.address 0) :
    (s.postAll ps).settledRead a = s.settledRead a := by
  induction ps generalizing s with
  | nil => rfl
  | cons p ps ih =>
    rw [State.postAll_cons, ih _ (by simpa [State.address] using ha), settledRead_push s p a ha]

end Sys2Proof.Machine
end

