-- ==== Sys2Proof/Laws/Queue.lean ====
section
/-!
SUPPORT. The answer queue's order (R26, R28).
-/
namespace Sys2Proof.Machine

/-- The entries stand in rising rank (R26). -/
def rankSorted (q : List Entry) : Prop := q.Pairwise fun x y => x.rank ≤ y.rank

theorem mem_insertEntry (x y : Entry) (q : List Entry) : y ∈ insertEntry x q ↔ y = x ∨ y ∈ q := by
  induction q with
  | nil => simp [insertEntry]
  | cons z q ih =>
    simp only [insertEntry]
    split
    · simp
    · simp only [List.mem_cons, ih]; exact or_left_comm

theorem length_insertEntry (x : Entry) (q : List Entry) : (insertEntry x q).length = q.length + 1 := by
  induction q with
  | nil => rfl
  | cons z q ih => simp only [insertEntry]; split <;> simp [ih]

/-- An insertion keeps the order (R28). -/
theorem rankSorted_insertEntry (x : Entry) (q : List Entry) (h : rankSorted q) : rankSorted (insertEntry x q) := by
  induction q with
  | nil => simp [insertEntry, rankSorted]
  | cons z q ih =>
    simp only [rankSorted, List.pairwise_cons] at h
    simp only [insertEntry]
    split
    · rename_i hx
      simp only [rankSorted, List.pairwise_cons]
      refine ⟨?_, h⟩
      intro y hy
      rcases List.mem_cons.1 hy with rfl | hy
      · omega
      · have := h.1 y hy; omega
    · rename_i hx
      simp only [rankSorted, List.pairwise_cons]
      refine ⟨?_, ih h.2⟩
      intro y hy
      rcases (mem_insertEntry x y q).1 hy with rfl | hy
      · omega
      · exact h.1 y hy

/-- A removal keeps the order. -/
theorem rankSorted_filter (q : List Entry) (p : Entry → Bool) (h : rankSorted q) : rankSorted (q.filter p) :=
  List.Pairwise.filter p h

end Sys2Proof.Machine
end

