-- ==== Sys2Proof/Laws/Effects.lean ====
section
/-!
SUPPORT. What each act does, one lemma an act, true by `rfl`.
-/
namespace Sys2Proof.Machine

@[simp] theorem effect_slotState (i : SlotId) (st : SlotState) (e : Engine) :
    (Act.slotState i st).effect e =
      (e.onSlot i fun x => { x with state := st }, [{ off := slotOff i 0, val := st.code }]) := rfl

@[simp] theorem effect_flag (i : SlotId) (f : FlagName) (b : Bool) (e : Engine) :
    (Act.flag i f b).effect e =
      (e.putFlag i f b) := rfl

@[simp] theorem effect_timer (i : SlotId) (t : Timer) (e : Engine) :
    (Act.timer i t).effect e =
      (e.onSlot i fun x => { x with timer := t }, []) := rfl

@[simp] theorem effect_deadline (i : SlotId) (n : Nat) (e : Engine) :
    (Act.deadline i n).effect e =
      (e.onSlot i fun x => { x with deadline := n }, postsAt (slotOff i 16) (leBytes n 4)) := rfl

@[simp] theorem effect_dest (i : SlotId) (st : Byte) (e : Engine) :
    (Act.dest i st).effect e =
      (e.onSlot i fun x => { x with dest := st }, [{ off := slotOff i 20, val := st }]) := rfl

@[simp] theorem effect_leg (i : SlotId) (l : Leg) (e : Engine) :
    (Act.leg i l).effect e =
      (e.onSlot i fun x => { x with leg := l }, [{ off := slotOff i 21, val := l.code }]) := rfl

@[simp] theorem effect_outcome (i : SlotId) (o : ReqOutcome) (e : Engine) :
    (Act.outcome i o).effect e =
      (e.onSlot i fun x => { x with outcome := o }, [{ off := slotOff i 22, val := o.code }]) := rfl

@[simp] theorem effect_recalls (i : SlotId) (n : Nat) (e : Engine) :
    (Act.recalls i n).effect e =
      (e.onSlot i fun x => { x with recalls := n }, [{ off := slotOff i 23, val := byteOf n }]) := rfl

@[simp] theorem effect_entryFields (i : SlotId) (t : Nat) (r : Nat) (e : Engine) :
    (Act.entryFields i t r).effect e =
      (e.onSlot i fun x => { x with entryTime := t, rank := r }, postsAt (slotOff i 8) (leBytes t 4 ++ leBytes r 4)) := rfl

@[simp] theorem effect_request (i : SlotId) (r : Option Request) (e : Engine) :
    (Act.request i r).effect e =
      (e.onSlot i fun x => { x with request := r }, []) := rfl

@[simp] theorem effect_requestNone (i : SlotId) (e : Engine) :
    (Act.requestNone i).effect e =
      (e, [{ off := slotOff i 24, val := 0 }]) := rfl

@[simp] theorem effect_returnState (i : SlotId) (r : Option SlotState) (e : Engine) :
    (Act.returnState i r).effect e =
      (e.onSlot i fun x => { x with ret := r }, []) := rfl

@[simp] theorem effect_keep (i : SlotId) (k : Option Entry) (e : Engine) :
    (Act.keep i k).effect e =
      (e.onSlot i fun x => { x with kept := k }, []) := rfl

@[simp] theorem effect_allocate (i : SlotId) (ref : BitVec 16) (g : GroupId) (c : CallClass) (tag : BitVec 16) (t : Nat) (r : Nat) (e : Engine) :
    (Act.allocate i ref g c tag t r).effect e =
      ({ e.setSlot i (Slot.allocated ref g c tag t r) with refMap := (ref, i) :: e.refMap },
        postsAt (slotOff i 0) (Slot.allocated ref g c tag t r).record) := rfl

@[simp] theorem effect_free (i : SlotId) (e : Engine) :
    (Act.free i).effect e =
      (e.free i) := rfl

@[simp] theorem effect_talkPath (o : Option SlotId) (e : Engine) :
    (Act.talkPath o).effect e =
      ({ e with talkPath := o }, []) := rfl

@[simp] theorem effect_enqueue (x : Entry) (e : Engine) :
    (Act.enqueue x).effect e =
      ({ e with queue := insertEntry x e.queue }, []) := rfl

@[simp] theorem effect_dequeue (i : SlotId) (e : Engine) :
    (Act.dequeue i).effect e =
      ({ e with queue := e.queue.filter (·.slot != i) }, []) := rfl

@[simp] theorem effect_figures (e : Engine) :
    (Act.figures).effect e =
      ({ e with figures := figuresOf e.queue }, (figuresOf e.queue).posts.filter fun p => !e.figures.posts.contains p) := rfl

@[simp] theorem effect_allFigures (e : Engine) :
    (Act.allFigures).effect e =
      ({ e with figures := figuresOf e.queue }, (figuresOf e.queue).posts) := rfl

@[simp] theorem effect_sample (g : GroupId) (w : Nat) (e : Engine) :
    (Act.sample g w).effect e =
      (let n := updateEstimate (e.group g).estimate w (e.setup.group g).shift
      if n = (e.group g).estimate then (e, [])
      else (e.onGroup g fun m => { m with estimate := n }, postsAt (estimateOff g) (leBytes n 2))) := rfl

@[simp] theorem effect_mode (m : Mode) (e : Engine) :
    (Act.mode m).effect e =
      ({ e with mode := m }, [{ off := modeOff, val := m.code }]) := rfl

@[simp] theorem effect_consoleRequest (r : Option (ConsoleReq × Byte)) (e : Engine) :
    (Act.consoleRequest r).effect e =
      ({ e with console := e.console.mark r }, []) := rfl

@[simp] theorem effect_consoleOutcome (o : ReqOutcome) (e : Engine) :
    (Act.consoleOutcome o).effect e =
      ({ e with console := { e.console with outcome := o } }, [{ off := consoleOutcomeOff, val := o.code }]) := rfl

@[simp] theorem effect_answered (o : Option SlotId) (e : Engine) :
    (Act.answered o).effect e =
      ({ e with console := { e.console with answered := o } }, [{ off := answeredOff, val := slotByte o }]) := rfl

@[simp] theorem effect_consoleNone (e : Engine) :
    (Act.consoleNone).effect e =
      (e, [{ off := consoleReqOff, val := 0 }]) := rfl

@[simp] theorem effect_station (st : Byte) (c : Condition) (e : Engine) :
    (Act.station st c).effect e =
      (e.setCondition st c, [{ off := stationOff st, val := c.code }]) := rfl

@[simp] theorem effect_stationsUnknown (e : Engine) :
    (Act.stationsUnknown).effect e =
      ({ e with stations := Vector.replicate 256 .unknown },
        postsAt (stationOff 0) (List.replicate 256 Condition.unknown.code)) := rfl

@[simp] theorem effect_campJoin (st : Byte) (i : SlotId) (e : Engine) :
    (Act.campJoin st i).effect e =
      ({ e with camps := e.camps ++ [(st, i)] }, []) := rfl

@[simp] theorem effect_campLeave (i : SlotId) (e : Engine) :
    (Act.campLeave i).effect e =
      ({ e with camps := e.camps.filter (·.2 != i) }, []) := rfl

@[simp] theorem effect_advanceTime (e : Engine) :
    (Act.advanceTime).effect e =
      (let e1 := { e with tickPeriod := { prescaler := e.setup.prescaler, divider := e.setup.tickDivider } }
      if e.time < Config.timeLimit then
        ({ e1 with time := e.time + 1, ticks := e.ticks ++ [e.time + 1] }, postsAt timeOff (leBytes (e.time + 1) 4))
      else ({ e1 with ticks := e.ticks ++ [e.time] }, [])) := rfl

@[simp] theorem effect_testTimers (e : Engine) :
    (Act.testTimers).effect e =
      ({ e with due := e.due ++ e.expiring.filter fun i => !e.due.contains i }, []) := rfl

@[simp] theorem effect_dueTaken (e : Engine) :
    (Act.dueTaken).effect e =
      ({ e with due := e.due.tail }, []) := rfl

@[simp] theorem effect_tickTaken (e : Engine) :
    (Act.tickTaken).effect e =
      ({ e with ticks := e.ticks.tail }, []) := rfl

@[simp] theorem effect_estimate (g : GroupId) (n : Nat) (e : Engine) :
    (Act.estimate g n).effect e =
      (e.onGroup g fun m => { m with estimate := n }, postsAt (estimateOff g) (leBytes n 2)) := rfl

@[simp] theorem effect_count (g : GroupId) (n : Nat) (e : Engine) :
    (Act.count g n).effect e =
      (e.onGroup g fun m => { m with count := n }, [{ off := durationOff g, val := byteOf n }]) := rfl

@[simp] theorem effect_overflow (g : GroupId) (on : Bool) (e : Engine) :
    (Act.overflow g on).effect e =
      (e.onGroup g fun m => { m with overflow := on }, [{ off := overflowOff g, val := boolByte on }]) := rfl

@[simp] theorem effect_monitorReset (e : Engine) :
    (Act.monitorReset).effect e =
      (allGroups.foldl (fun e g => e.onGroup g fun m => { m with count := 0, overflow := false }) e,
        allGroups.flatMap fun g => monitorResetPosts (e.group g) g) := rfl

@[simp] theorem effect_append (i : SlotId) (k : OrderKind) (p : Purpose) (e : Engine) :
    (Act.append i k p).effect e =
      ({ e with orders := e.orders ++ [{ kind := k, slot := i, callRef := (e.slot i).callRef, purpose := p }] },
        [{ off := orderLengthOff, val := byteOf (e.orders.length + 1) }]) := rfl

@[simp] theorem effect_removeOrder (i : SlotId) (e : Engine) :
    (Act.removeOrder i).effect e =
      (e.removeOrder i) := rfl

@[simp] theorem effect_idleTest (e : Engine) :
    (Act.idleTest).effect e =
      (e.idleTest) := rfl

@[simp] theorem effect_linkState (l : LinkState) (e : Engine) :
    (Act.linkState l).effect e =
      (e.entersState (fun x => { x with state := l }) l) := rfl

@[simp] theorem effect_scc (b : Bool) (e : Engine) :
    (Act.scc b).effect e =
      (e.onLink fun x => { x with scc := b }, []) := rfl

@[simp] theorem effect_scs (b : Bool) (e : Engine) :
    (Act.scs b).effect e =
      (e.onLink fun x => { x with scs := b }, []) := rfl

@[simp] theorem effect_linkUnit (e : Engine) :
    (Act.linkUnit).effect e =
      ({ e with linkPeriod := { prescaler := e.setup.prescaler, divider := e.setup.linkDivider } }, []) := rfl

@[simp] theorem effect_beginSending (e : Engine) :
    (Act.beginSending).effect e =
      (e.entersState (fun x => Link.sends { x with state := .sending, inExchange := true } e.headFrame) .sending) := rfl

@[simp] theorem effect_awaitStatus (e : Engine) :
    (Act.awaitStatus).effect e =
      (e.entersState (fun x => Link.awaitsByte { x.rxEmpty with state := .awaitStatus, tx := [] }) .awaitStatus) := rfl

@[simp] theorem effect_line (m : LineMove) (e : Engine) :
    (Act.line m).effect e =
      (e.onLink fun x => (x.handles m).1, []) := rfl

@[simp] theorem effect_beginReceiving (e : Engine) :
    (Act.beginReceiving).effect e =
      (e.entersState Link.beginReceiving .receiving) := rfl

@[simp] theorem effect_txEnd (e : Engine) :
    (Act.txEnd).effect e =
      (e.onLink fun x => { x with tx := [], hand := .idle }, []) := rfl

@[simp] theorem effect_receive (fr : List LinkByte) (note : Bool) (e : Engine) :
    (Act.receive fr note).effect e =
      (e.onLink fun x => { x with rx := fr, rxNote := note, hand := .handling }, []) := rfl

@[simp] theorem effect_rxClear (e : Engine) :
    (Act.rxClear).effect e =
      (e.onLink Link.rxEmpty, []) := rfl

@[simp] theorem effect_abandon (e : Engine) :
    (Act.abandon).effect e =
      (e.onLink fun x => { x.rxEmpty with abandoned := true }, []) := rfl

@[simp] theorem effect_answering (st : Status) (e : Engine) :
    (Act.answering st).effect e =
      (e.onLink fun x => x.answering st,
        if e.link.strobe.isSome then [] else [{ off := linkStateOff, val := LinkState.answering.code }]) := rfl

@[simp] theorem effect_endExchange (e : Engine) :
    (Act.endExchange).effect e =
      ({ e with orders := e.orders.tail
                link := { e.link.rxEmpty with scc := false, tx := [], attempts := 0, inExchange := false } },
        [{ off := orderLengthOff, val := byteOf e.orders.tail.length }]) := rfl

@[simp] theorem effect_failAttempt (e : Engine) :
    (Act.failAttempt).effect e =
      (e.onLink fun x => { x.rxEmpty with scc := false, tx := [], inExchange := false, attempts := x.attempts + 1 }, []) := rfl

@[simp] theorem effect_srstDrive (c : ResetCause) (e : Engine) :
    (Act.srstDrive c).effect e =
      (e.onLink fun x => { x with srstDrive := true, resetDue := if x.srst then x.resetDue else some c }, []) := rfl

@[simp] theorem effect_srstRelease (e : Engine) :
    (Act.srstRelease).effect e =
      (e.onLink fun x => { x with srstDrive := false }, []) := rfl

@[simp] theorem effect_srstSwitch (b : Bool) (e : Engine) :
    (Act.srstSwitch b).effect e =
      (e.onLink fun x => { x with srstSwitch := b }, []) := rfl

@[simp] theorem effect_linkReset (e : Engine) :
    (Act.linkReset).effect e =
      (e.linkReset) := rfl

@[simp] theorem effect_journal (k : JournalKind) (sl : Byte) (a : Byte) (b : Byte) (e : Engine) :
    (Act.journal k sl a b).effect e =
      (e.append k sl a b) := rfl

@[simp] theorem effect_latch (c : Cause) (e : Engine) :
    (Act.latch c).effect e =
      (e.latch c) := rfl

@[simp] theorem effect_clearCauses (m : BitVec 16) (e : Engine) :
    (Act.clearCauses m).effect e =
      ({ e with causes := e.causes &&& ~~~m }, postsAt causeOff (leBytes (e.causes &&& ~~~m).toNat 2)) := rfl

@[simp] theorem effect_dropped (b : Byte) (e : Engine) :
    (Act.dropped b).effect e =
      ({ e with dropped := b }, [{ off := droppedOff, val := b }]) := rfl

@[simp] theorem effect_tailLow (b : Byte) (e : Engine) :
    (Act.tailLow b).effect e =
      (e.onJournal fun j => { j with lowCopy := b }, []) := rfl

@[simp] theorem effect_tailWrite (high : Byte) (e : Engine) :
    (Act.tailWrite high).effect e =
      (e.tailWrite high) := rfl

@[simp] theorem effect_setupCopy (off : Nat) (b : Byte) (e : Engine) :
    (Act.setupCopy off b).effect e =
      (e.setCopy off b, []) := rfl

@[simp] theorem effect_setupTake (f : SetupField) (v : Nat) (e : Engine) :
    (Act.setupTake f v).effect e =
      ({ e with setup := e.setup.take f v }, []) := rfl

@[simp] theorem effect_setupPost (f : SetupField) (v : Nat) (e : Engine) :
    (Act.setupPost f v).effect e =
      (e.setField f v, postsAt f.off (leBytes v f.width)) := rfl

@[simp] theorem effect_setupLoad (bytes : List Byte) (e : Engine) :
    (Act.setupLoad bytes).effect e =
      (e.setupLoad bytes) := rfl

@[simp] theorem effect_sweep (e : Engine) :
    (Act.sweep).effect e =
      (e.swept, sweepPosts e) := rfl

@[simp] theorem effect_startDividers (e : Engine) :
    (Act.startDividers).effect e =
      ({ e with tickPeriod := { prescaler := e.setup.prescaler, divider := e.setup.tickDivider }
                linkPeriod := { prescaler := e.setup.prescaler, divider := e.setup.linkDivider } }, []) := rfl

@[simp] theorem effect_clampLatched (e : Engine) :
    (Act.clampLatched).effect e =
      ({ e with clampNoted := false }, []) := rfl

end Sys2Proof.Machine
end

