-- ==== Sys2Proof/Laws/Events.lean ====
section
/-!
SUPPORT. What an event does when the posting queue has room for it, when a quiet part takes a command, and when the events that wait go
on.
-/
namespace Sys2Proof.Machine

theorem canPost_of_room (s : State) (off : Nat) (h : s.posts.length < Config.postingCapacity) (hw : s.waiting = []) :
    s.canPost off = true := by
  simp [State.canPost, h, hw]

/-- Bytes that find room are all posted. -/
theorem runBytes_room (ps : List Post) (s : State) (hw : s.waiting = [])
    (h : s.posts.length + ps.length ≤ Config.postingCapacity) : runBytes ps s = (s.postAll ps, []) := by
  induction ps generalizing s with
  | nil => rfl
  | cons p ps ih =>
    have hl : (p :: ps).length = ps.length + 1 := rfl
    unfold runBytes
    rw [if_pos (canPost_of_room s p.off (by omega) hw)]
    have := length_push_le s p
    exact ih (s.push p) (by simpa using hw) (by omega)

theorem busy_of_none (s : State) (a : Act) (hw : s.waiting = []) : s.busy a = false := by
  simp [State.busy, hw]

/-- Acts that find room run to their end: the engine and the posts are those of `applyActs`. -/
theorem runActs_room (as : List Act) (s : State) (hw : s.waiting = [])
    (h : s.posts.length + (applyActs as s.eng).2.length ≤ Config.postingCapacity) :
    runActs as s = (s.after (applyActs as s.eng), [], []) := by
  induction as generalizing s with
  | nil => rfl
  | cons a as ih =>
    have hlen : (applyActs (a :: as) s.eng).2.length
        = (a.effect s.eng).2.length + (applyActs as (a.effect s.eng).1).2.length := by simp [applyActs]
    have hall := length_postAll_le s (a.effect s.eng).2
    unfold runActs
    rw [busy_of_none s a hw, if_neg Bool.false_ne_true, runBytes_room _ s hw (by omega)]
    simp only [State.postAll_eng]
    refine (ih { s.postAll (a.effect s.eng).2 with eng := (a.effect s.eng).1 } (by simpa using hw) (by simp only; omega)).trans ?_
    simp only [State.after, applyActs, postAll_withEng, State.postAll_append]

/-! ### What an event needs -/

/-- Nothing is due at a quiet part. -/
theorem dueJob_quiet (s : State) (h : Quiet s) : s.dueJob = none := by
  obtain ⟨hp, _, hd, hr, hl, _, _⟩ := h
  unfold State.dueJob
  rw [hp, hr]
  simp only [hd]
  rw [if_neg (by simp), if_neg, if_neg (by simp)]
  rintro ⟨h1, h2⟩
  rw [hl h1] at h2
  cases h2

theorem overdue_none (s : State) (j : Job) (h : s.dueJob = none) : j.overdue s = false := by
  unfold Job.overdue
  rw [h]

/-- With nothing waiting no field is half posted. -/
theorem splits_alone (s : State) (a : Access) (hw : s.waiting = []) : s.splits a = false := by
  unfold State.splits State.halfPosted
  rw [hw]
  split
  · rfl
  · split
    · rfl
    · split <;> simp

/-- With nothing waiting, a piece of an event is ready, if an access finds the memory side. -/
theorem ready_alone (s : State) (j : Job) (at_ : List Block) (hw : s.waiting = [])
    (ha : ∀ a, j = .access a → s.sideTaken a = false) : j.ready s [] at_ = true := by
  unfold Job.ready
  cases j with
  | access a => simp [ha a rfl, splits_alone s a hw, hw]
  | _ => simp [hw]

/-- An event that has nothing before it runs at once. -/
theorem arrive_alone (j : Job) (js : List Job) (s : State) (hw : s.waiting = []) (ha : ∀ a, j = .access a → s.sideTaken a = false)
    (ho : j.overdue s = false) : arrive j js s = park [] [] (arrival s j js) (runJobs (j :: js) [] [] s) := by
  unfold arrive
  rw [hw, if_pos]
  unfold Job.free
  rw [ready_alone s j [] hw ha, ho]
  rfl

/-- A piece of an event whose acts find room runs to its end. -/
theorem runJobs_cons_room (j : Job) (js : List Job) (at_ : List Block) (s s' : State) (as : List Act) (hw : s.waiting = [])
    (ha : ∀ a, j = .access a → s.sideTaken a = false) (ho : j.overdue s = false) (hb : j.begin s = (s', as))
    (hw' : s'.waiting = []) (hr : s'.posts.length + (applyActs as s'.eng).2.length ≤ Config.postingCapacity) :
    runJobs (j :: js) [] at_ s = runJobs js [] (j.arrivesAt s) (s'.after (applyActs as s'.eng)) := by
  have hf : j.free s [] at_ = true := by
    unfold Job.free
    rw [ready_alone s j at_ hw ha, ho]
    rfl
  rw [runJobs, if_pos hf, hb, runActs_room as s' hw' hr]

/-- An event of one piece that finds room happens at once. -/
theorem arrive_room (j : Job) (s s' : State) (as : List Act) (hw : s.waiting = [])
    (ha : ∀ a, j = .access a → s.sideTaken a = false) (ho : j.overdue s = false) (hb : j.begin s = (s', as))
    (hw' : s'.waiting = []) (hr : s'.posts.length + (applyActs as s'.eng).2.length ≤ Config.postingCapacity) :
    arrive j [] s = s'.after (applyActs as s'.eng) := by
  rw [arrive_alone j [] s hw ha ho, runJobs_cons_room j [] [] s s' as hw ha ho hb hw' hr]
  show ({ s'.after (applyActs as s'.eng) with waiting := [] } : State) = _
  rw [← hw', ← State.after_waiting s' (applyActs as s'.eng)]

/-- A link event at a quiet part with room. -/
theorem linkEvent_quiet (c : Instr) (s : State) (h : Quiet s)
    (hr : s.posts.length + (applyActs (rowActs c s.eng) s.eng).2.length ≤ Config.postingCapacity) :
    linkEvent c s = s.after (applyActs (rowActs c s.eng) s.eng) := by
  unfold linkEvent
  rw [h.1]
  exact arrive_room (.command c) s s _ h.2.1 (by rintro a ⟨⟩) (overdue_none s _ (dueJob_quiet s h)) rfl h.2.1 hr

theorem holdsAccess_running (s : State) (addr : BitVec 16) (h : s.phase = .running) : s.holdsAccess addr = false := by
  simp [State.holdsAccess, h]

theorem sideTaken_free (s : State) (a : Access) (h : s.side = .free) : s.sideTaken a = false := by
  simp [State.sideTaken, h]

/-- A processor access at a quiet part, when it does not wait for the memory side. -/
theorem processorAccess_quiet (a : Access) (addr : BitVec 16) (s s' : State) (as : List Act) (h : Quiet s)
    (ha : s.sideTaken a = false) (hb : beginAccess s a = (s', as)) (hw' : s'.waiting = [])
    (hr : s'.posts.length + (applyActs as s'.eng).2.length ≤ Config.postingCapacity) :
    processorAccess a addr s = s'.after (applyActs as s'.eng) := by
  unfold processorAccess
  rw [holdsAccess_running s addr h.1, if_neg Bool.false_ne_true]
  exact arrive_room (.access a) s s' as h.2.1 (by rintro b ⟨⟩; exact ha) (overdue_none s _ (dueJob_quiet s h)) hb hw' hr

/-! ### Events that wait -/

theorem firstAble_none (s : State) (ahead ws : List Waiting) (h : ∀ w ∈ ws, w.bytes ≠ []) : firstAble s ahead ws = none := by
  induction ws generalizing ahead with
  | nil => rfl
  | cons w ws ih =>
    have hb : w.able s ahead = false := by
      unfold Waiting.able
      rw [List.isEmpty_eq_false_iff.2 (h w (List.mem_cons_self ..)), Bool.false_and]
    rw [firstAble, hb, if_neg Bool.false_ne_true]
    exact ih _ fun x hx => h x (List.mem_cons_of_mem _ hx)

/-- Where every waiting event waits for room, none goes on. -/
theorem wake_only (s : State) (h : OnlyForRoom s) (n : Nat) : wake n s = s := by
  cases n with
  | zero => rfl
  | succ n =>
    have h1 : ¬ (s.phase = .running ∧ s.held ≠ []) := fun hc => hc.2 (h.1 hc.1)
    have h2 : doDue s = none := by
      unfold doDue
      cases s.dueJob with
      | none => rfl
      | some d =>
        have hany : (s.waiting.any fun w => w.acts.isEmpty) = false := by
          rw [List.any_eq_false]
          intro w hw hc
          exact (h.2 w hw).2 (List.isEmpty_iff.1 hc)
        simp only [hany, Bool.false_and, Bool.false_eq_true, if_false]
    unfold wake wakeOne
    rw [if_neg h1, firstAble_none s [] s.waiting fun w hw => (h.2 w hw).1, h2]

theorem endInserted_only (s : State) (h : OnlyForRoom s) : endInserted s = s.endCycle.beginCycle := by
  have : OnlyForRoom s.endCycle := by unfold State.endCycle; split <;> exact h
  unfold endInserted
  rw [wake_only _ this]

/-! ### Addresses -/

theorem decoded_processorAddress (s : State) (off : Nat) (h : s.phase ≠ .inReset) (ho : off < 8192) :
    s.decoded (s.processorAddress off) = some off := by
  have hb := s.base.isLt
  have h1 : (s.processorAddress off).toNat = s.base.toNat * 8192 + off := by
    simp only [State.processorAddress, State.address, BitVec.toNat_ofNat]
    apply Nat.mod_eq_of_lt; omega
  have h2 : s.regionOff (s.processorAddress off) = some off := by
    unfold State.regionOff
    rw [h1]
    have e1 : (s.base.toNat * 8192 + off) / 8192 = s.base.toNat := by omega
    have e2 : (s.base.toNat * 8192 + off) % 8192 = off := by omega
    rw [e1, e2, if_pos rfl]
  unfold State.decoded
  split
  · exact absurd ‹_› h
  · exact h2

end Sys2Proof.Machine
end

