-- ==== Sys2Proof/Laws/Acts.lean ====
section
/-!
SUPPORT. How many bytes an act can post, so that room for an event can be counted without running it.
-/
namespace Sys2Proof.Machine

/-- The most bytes that an act posts. -/
def Act.bound : Act → Nat
  | .slotState _ _ => 1
  | .flag _ _ _ => 1
  | .timer _ _ => 0
  | .deadline _ _ => 4
  | .dest _ _ => 1
  | .leg _ _ => 1
  | .outcome _ _ => 1
  | .recalls _ _ => 1
  | .entryFields _ _ _ => 8
  | .request _ _ => 0
  | .requestNone _ => 1
  | .returnState _ _ => 0
  | .keep _ _ => 0
  | .allocate _ _ _ _ _ _ _ => 24
  | .free _ => 10
  | .talkPath _ => 0
  | .enqueue _ => 0
  | .dequeue _ => 0
  | .figures => 18
  | .allFigures => 18
  | .sample _ _ => 2
  | .mode _ => 1
  | .consoleRequest _ => 0
  | .consoleOutcome _ => 1
  | .answered _ => 1
  | .consoleNone => 1
  | .station _ _ => 1
  | .stationsUnknown => 256
  | .campJoin _ _ => 0
  | .campLeave _ => 0
  | .advanceTime => 4
  | .testTimers => 0
  | .dueTaken => 0
  | .tickTaken => 0
  | .estimate _ _ => 2
  | .count _ _ => 1
  | .overflow _ _ => 1
  | .monitorReset => 16
  | .append _ _ _ => 1
  | .removeOrder _ => 1
  | .idleTest => 1
  | .linkState _ => 1
  | .scc _ => 0
  | .scs _ => 0
  | .linkUnit => 0
  | .beginSending => 1
  | .awaitStatus => 1
  | .line _ => 0
  | .beginReceiving => 1
  | .txEnd => 0
  | .receive _ _ => 0
  | .rxClear => 0
  | .abandon => 0
  | .answering _ => 1
  | .endExchange => 1
  | .failAttempt => 0
  | .srstDrive _ => 0
  | .srstRelease => 0
  | .srstSwitch _ => 0
  | .linkReset => 2
  | .journal _ _ _ _ => 11
  | .latch _ => 1
  | .clearCauses _ => 2
  | .dropped _ => 1
  | .tailLow _ => 0
  | .tailWrite _ => 3
  | .setupCopy _ _ => 0
  | .setupTake _ _ => 0
  | .setupPost _ _ => 2
  | .setupLoad _ => 200
  | .sweep => 2000
  | .startDividers => 0
  | .clampLatched => 0

@[simp] theorem bound_slotState (i : SlotId) (st : SlotState) : (Act.slotState i st).bound = 1 := rfl
@[simp] theorem bound_flag (i : SlotId) (f : FlagName) (b : Bool) : (Act.flag i f b).bound = 1 := rfl
@[simp] theorem bound_timer (i : SlotId) (t : Timer) : (Act.timer i t).bound = 0 := rfl
@[simp] theorem bound_deadline (i : SlotId) (n : Nat) : (Act.deadline i n).bound = 4 := rfl
@[simp] theorem bound_dest (i : SlotId) (st : Byte) : (Act.dest i st).bound = 1 := rfl
@[simp] theorem bound_leg (i : SlotId) (l : Leg) : (Act.leg i l).bound = 1 := rfl
@[simp] theorem bound_outcome (i : SlotId) (o : ReqOutcome) : (Act.outcome i o).bound = 1 := rfl
@[simp] theorem bound_recalls (i : SlotId) (n : Nat) : (Act.recalls i n).bound = 1 := rfl
@[simp] theorem bound_entryFields (i : SlotId) (t : Nat) (r : Nat) : (Act.entryFields i t r).bound = 8 := rfl
@[simp] theorem bound_request (i : SlotId) (r : Option Request) : (Act.request i r).bound = 0 := rfl
@[simp] theorem bound_requestNone (i : SlotId) : (Act.requestNone i).bound = 1 := rfl
@[simp] theorem bound_returnState (i : SlotId) (r : Option SlotState) : (Act.returnState i r).bound = 0 := rfl
@[simp] theorem bound_keep (i : SlotId) (k : Option Entry) : (Act.keep i k).bound = 0 := rfl
@[simp] theorem bound_allocate (i : SlotId) (ref : BitVec 16) (g : GroupId) (c : CallClass) (tag : BitVec 16) (t : Nat) (r : Nat) : (Act.allocate i ref g c tag t r).bound = 24 := rfl
@[simp] theorem bound_free (i : SlotId) : (Act.free i).bound = 10 := rfl
@[simp] theorem bound_talkPath (o : Option SlotId) : (Act.talkPath o).bound = 0 := rfl
@[simp] theorem bound_enqueue (x : Entry) : (Act.enqueue x).bound = 0 := rfl
@[simp] theorem bound_dequeue (i : SlotId) : (Act.dequeue i).bound = 0 := rfl
@[simp] theorem bound_figures : (Act.figures).bound = 18 := rfl
@[simp] theorem bound_allFigures : (Act.allFigures).bound = 18 := rfl
@[simp] theorem bound_sample (g : GroupId) (w : Nat) : (Act.sample g w).bound = 2 := rfl
@[simp] theorem bound_mode (m : Mode) : (Act.mode m).bound = 1 := rfl
@[simp] theorem bound_consoleRequest (r : Option (ConsoleReq × Byte)) : (Act.consoleRequest r).bound = 0 := rfl
@[simp] theorem bound_consoleOutcome (o : ReqOutcome) : (Act.consoleOutcome o).bound = 1 := rfl
@[simp] theorem bound_answered (o : Option SlotId) : (Act.answered o).bound = 1 := rfl
@[simp] theorem bound_consoleNone : (Act.consoleNone).bound = 1 := rfl
@[simp] theorem bound_station (st : Byte) (c : Condition) : (Act.station st c).bound = 1 := rfl
@[simp] theorem bound_stationsUnknown : (Act.stationsUnknown).bound = 256 := rfl
@[simp] theorem bound_campJoin (st : Byte) (i : SlotId) : (Act.campJoin st i).bound = 0 := rfl
@[simp] theorem bound_campLeave (i : SlotId) : (Act.campLeave i).bound = 0 := rfl
@[simp] theorem bound_advanceTime : (Act.advanceTime).bound = 4 := rfl
@[simp] theorem bound_testTimers : (Act.testTimers).bound = 0 := rfl
@[simp] theorem bound_dueTaken : (Act.dueTaken).bound = 0 := rfl
@[simp] theorem bound_tickTaken : (Act.tickTaken).bound = 0 := rfl
@[simp] theorem bound_estimate (g : GroupId) (n : Nat) : (Act.estimate g n).bound = 2 := rfl
@[simp] theorem bound_count (g : GroupId) (n : Nat) : (Act.count g n).bound = 1 := rfl
@[simp] theorem bound_overflow (g : GroupId) (on : Bool) : (Act.overflow g on).bound = 1 := rfl
@[simp] theorem bound_monitorReset : (Act.monitorReset).bound = 16 := rfl
@[simp] theorem bound_append (i : SlotId) (k : OrderKind) (p : Purpose) : (Act.append i k p).bound = 1 := rfl
@[simp] theorem bound_removeOrder (i : SlotId) : (Act.removeOrder i).bound = 1 := rfl
@[simp] theorem bound_idleTest : (Act.idleTest).bound = 1 := rfl
@[simp] theorem bound_linkState (l : LinkState) : (Act.linkState l).bound = 1 := rfl
@[simp] theorem bound_scc (b : Bool) : (Act.scc b).bound = 0 := rfl
@[simp] theorem bound_scs (b : Bool) : (Act.scs b).bound = 0 := rfl
@[simp] theorem bound_linkUnit : (Act.linkUnit).bound = 0 := rfl
@[simp] theorem bound_beginSending : (Act.beginSending).bound = 1 := rfl
@[simp] theorem bound_awaitStatus : (Act.awaitStatus).bound = 1 := rfl
@[simp] theorem bound_line (m : LineMove) : (Act.line m).bound = 0 := rfl
@[simp] theorem bound_beginReceiving : (Act.beginReceiving).bound = 1 := rfl
@[simp] theorem bound_txEnd : (Act.txEnd).bound = 0 := rfl
@[simp] theorem bound_receive (fr : List LinkByte) (note : Bool) : (Act.receive fr note).bound = 0 := rfl
@[simp] theorem bound_rxClear : (Act.rxClear).bound = 0 := rfl
@[simp] theorem bound_abandon : (Act.abandon).bound = 0 := rfl
@[simp] theorem bound_answering (st : Status) : (Act.answering st).bound = 1 := rfl
@[simp] theorem bound_endExchange : (Act.endExchange).bound = 1 := rfl
@[simp] theorem bound_failAttempt : (Act.failAttempt).bound = 0 := rfl
@[simp] theorem bound_srstDrive (c : ResetCause) : (Act.srstDrive c).bound = 0 := rfl
@[simp] theorem bound_srstRelease : (Act.srstRelease).bound = 0 := rfl
@[simp] theorem bound_srstSwitch (b : Bool) : (Act.srstSwitch b).bound = 0 := rfl
@[simp] theorem bound_linkReset : (Act.linkReset).bound = 2 := rfl
@[simp] theorem bound_journal (k : JournalKind) (sl : Byte) (a : Byte) (b : Byte) : (Act.journal k sl a b).bound = 11 := rfl
@[simp] theorem bound_latch (c : Cause) : (Act.latch c).bound = 1 := rfl
@[simp] theorem bound_clearCauses (m : BitVec 16) : (Act.clearCauses m).bound = 2 := rfl
@[simp] theorem bound_dropped (b : Byte) : (Act.dropped b).bound = 1 := rfl
@[simp] theorem bound_tailLow (b : Byte) : (Act.tailLow b).bound = 0 := rfl
@[simp] theorem bound_tailWrite (high : Byte) : (Act.tailWrite high).bound = 3 := rfl
@[simp] theorem bound_setupCopy (off : Nat) (b : Byte) : (Act.setupCopy off b).bound = 0 := rfl
@[simp] theorem bound_setupTake (f : SetupField) (v : Nat) : (Act.setupTake f v).bound = 0 := rfl
@[simp] theorem bound_setupPost (f : SetupField) (v : Nat) : (Act.setupPost f v).bound = 2 := rfl
@[simp] theorem bound_setupLoad (bytes : List Byte) : (Act.setupLoad bytes).bound = 200 := rfl
@[simp] theorem bound_sweep : (Act.sweep).bound = 2000 := rfl
@[simp] theorem bound_startDividers : (Act.startDividers).bound = 0 := rfl
@[simp] theorem bound_clampLatched : (Act.clampLatched).bound = 0 := rfl

theorem length_latch_le (e : Engine) (c : Cause) : (e.latch c).2.length ≤ 1 := by
  unfold Engine.latch
  split
  · simp only; split <;> simp
  · simp

theorem length_append_le (e : Engine) (k : JournalKind) (sl a b : Byte) : (e.append k sl a b).2.length ≤ 11 := by
  unfold Engine.append
  split
  · simp only
    split
    · have := length_latch_le (e.onJournal fun j => { j with head := (e.journal.head + 1) % Config.ringSize }) .journalWatermark
      simp only [List.length_append, postsAt_length, leBytes_length, List.length_cons, List.length_nil]; omega
    · simp [postsAt_length, leBytes_length]
  · have := length_latch_le (e.onJournal fun j => { j with overrun := true }) .journalOverrun
    simp only
    split <;> simp only [List.length_append, List.length_cons, List.length_nil] <;> omega

theorem length_removeOrder_le (e : Engine) (i : SlotId) : (e.removeOrder i).2.length ≤ 1 := by
  unfold Engine.removeOrder
  simp only
  split <;> simp

theorem length_free_le (e : Engine) (i : SlotId) : (e.free i).2.length ≤ 10 := by
  have := length_removeOrder_le e i
  simp [Engine.free, postsAt]; omega

theorem length_putFlag_le (e : Engine) (i : SlotId) (f : FlagName) (b : Bool) : (e.putFlag i f b).2.length ≤ 1 := by
  unfold Engine.putFlag
  simp only
  split <;> simp

theorem length_idleTest_le (e : Engine) : e.idleTest.2.length ≤ 1 := by
  unfold Engine.idleTest
  split
  · split
    · simp [Engine.entersState]
    · split <;> simp [Engine.entersState]
  · simp

theorem length_figures (q : List Entry) : (figuresOf q).posts.length = 18 := by
  simp [Figures.posts, postsAt_length]

theorem length_tailWrite_le (e : Engine) (h : Byte) : (e.tailWrite h).2.length ≤ 3 := by
  unfold Engine.tailWrite
  simp only
  split <;> split <;> simp [postsAt_length, leBytes_length]

theorem SetupField.width_le (f : SetupField) : f.width ≤ 2 := by cases f <;> simp [SetupField.width]

theorem length_loadStored_le (fs : List SetupField) (r : Engine × List Post) :
    (fs.foldl loadStored r).2.length ≤ r.2.length + 2 * fs.length := by
  induction fs generalizing r with
  | nil => simp
  | cons f fs ih =>
    have h1 := ih (loadStored r f)
    have h2 : (loadStored r f).2.length ≤ r.2.length + 2 := by
      unfold loadStored
      simp only
      split
      · simp
      · have := f.width_le
        simp [postsAt_length, leBytes_length]; omega
    simp only [List.foldl_cons, List.length_cons]; omega

theorem length_loadDefault_le (fs : List SetupField) (r : Engine × List Post) :
    (fs.foldl loadDefault r).2.length ≤ r.2.length + 2 * fs.length := by
  induction fs generalizing r with
  | nil => simp
  | cons f fs ih =>
    have h1 := ih (loadDefault r f)
    have h2 : (loadDefault r f).2.length ≤ r.2.length + 2 := by
      unfold loadDefault
      have := f.width_le
      simp [postsAt_length, leBytes_length]; omega
    simp only [List.foldl_cons, List.length_cons]; omega

theorem length_valueFields : valueFields.length = 87 := by decide

theorem length_setupLoad_le (e : Engine) (bytes : List Byte) : (e.setupLoad bytes).2.length ≤ 200 := by
  have hv := length_valueFields
  unfold Engine.setupLoad
  simp only
  split
  · have := length_loadStored_le valueFields ({ e with copies := fillCopies bytes }, [])
    simp only [List.length_nil] at this; omega
  · have := length_loadDefault_le valueFields ({ e with copies := fillCopies bytes }, [])
    simp only [List.length_nil] at this
    simp only [List.length_append, List.length_cons, List.length_nil]; omega

theorem length_flatMap_const {α β : Type} (l : List α) (f : α → List β) (n : Nat) (h : ∀ a, (f a).length = n) :
    (l.flatMap f).length = l.length * n := by
  induction l with
  | nil => simp
  | cons a l ih => simp [h, ih, Nat.succ_mul, Nat.add_comm]

theorem length_sweepPosts_le (e : Engine) : (sweepPosts e).length ≤ 2000 := by
  have h1 : (allSlots.flatMap fun i => postsAt (slotOff i 0) Slot.initial.record ++ [{ off := slotOff i 24, val := 0 }]).length
      = allSlots.length * 25 :=
    length_flatMap_const _ _ _ fun i => by simp [postsAt_length, Slot.record, leBytes_length]
  have h2 : (allGroups.flatMap fun g => postsAt (estimateOff g) (leBytes (e.setup.group g).reference 2)
      ++ [{ off := durationOff g, val := 0 }, { off := overflowOff g, val := 0 }]).length = allGroups.length * 4 :=
    length_flatMap_const _ _ _ fun g => by simp [postsAt_length, leBytes_length]
  have h3 : allSlots.length = 64 := by simp [allSlots]
  have h4 : allGroups.length = 8 := rfl
  have h5 : Figures.empty.posts.length = 18 := by simp [Figures.posts, Figures.empty, postsAt_length]
  unfold sweepPosts
  simp only [List.length_append, h1, h2, h3, h4, h5, postsAt_length, leBytes_length, List.length_replicate, List.length_cons,
    List.length_nil]
  omega

theorem length_monitorReset_le (e : Engine) :
    (allGroups.flatMap fun g => monitorResetPosts (e.group g) g).length ≤ 16 := by
  have h : ∀ (l : List GroupId), (l.flatMap fun g => monitorResetPosts (e.group g) g).length ≤ 2 * l.length := by
    intro l
    induction l with
    | nil => simp
    | cons g l ih =>
      have : (monitorResetPosts (e.group g) g).length ≤ 2 := by unfold monitorResetPosts; split <;> simp
      simp only [List.flatMap_cons, List.length_append, List.length_cons]; omega
  exact h allGroups

/-- An act posts at most its bound. -/
theorem length_effect_le (a : Act) (e : Engine) : (a.effect e).2.length ≤ a.bound := by
  cases a with
  | flag i f b => exact length_putFlag_le e i f b
  | free i => exact length_free_le e i
  | figures =>
    have := List.length_filter_le (fun p => !e.figures.posts.contains p) (figuresOf e.queue).posts
    rw [length_figures] at this
    exact this
  | allFigures => exact Nat.le_of_eq (length_figures _)
  | sample g w => rw [effect_sample, bound_sample]; simp only; split <;> simp [postsAt_length, leBytes_length]
  | advanceTime => rw [effect_advanceTime, bound_advanceTime]; simp only; split <;> simp [postsAt_length, leBytes_length]
  | monitorReset => exact length_monitorReset_le e
  | removeOrder i => exact length_removeOrder_le e i
  | idleTest => exact length_idleTest_le e
  | journal k sl a b => exact length_append_le e k sl a b
  | latch c => exact length_latch_le e c
  | tailWrite h => exact length_tailWrite_le e h
  | setupPost f v => rw [effect_setupPost, bound_setupPost]; simp only [postsAt_length, leBytes_length]; exact f.width_le
  | setupLoad bytes => exact length_setupLoad_le e bytes
  | sweep => exact length_sweepPosts_le _
  | linkReset => exact Nat.le_refl 2
  | linkState l => exact Nat.le_refl 1
  | beginSending => exact Nat.le_refl 1
  | awaitStatus => exact Nat.le_refl 1
  | beginReceiving => exact Nat.le_refl 1
  | answering st => rw [effect_answering, bound_answering]; simp only; split <;> simp
  | stationsUnknown =>
    rw [effect_stationsUnknown, bound_stationsUnknown]; simp only [postsAt_length, List.length_replicate]; exact Nat.le_refl _
  | allocate i ref g c tag t r => rw [effect_allocate, bound_allocate]; simp [postsAt_length, Slot.record, leBytes_length]
  | _ => simp [postsAt_length, leBytes_length]

/-- The most bytes that acts post. -/
def boundOf : List Act → Nat
  | [] => 0
  | a :: as => a.bound + boundOf as

theorem length_applyActs_le (as : List Act) (e : Engine) : (applyActs as e).2.length ≤ boundOf as := by
  induction as generalizing e with
  | nil => simp [applyActs, boundOf]
  | cons a as ih =>
    have := length_effect_le a e
    have := ih (a.effect e).1
    simp [applyActs, boundOf]; omega

theorem boundOf_append (as bs : List Act) : boundOf (as ++ bs) = boundOf as + boundOf bs := by
  induction as with
  | nil => simp [boundOf]
  | cons a as ih => simp [boundOf, ih]; omega

/-- Acts in a row, in two parts. -/
theorem applyActs_append (as bs : List Act) (e : Engine) :
    applyActs (as ++ bs) e = ((applyActs bs (applyActs as e).1).1, (applyActs as e).2 ++ (applyActs bs (applyActs as e).1).2) := by
  induction as generalizing e with
  | nil => simp [applyActs]
  | cons a as ih => simp [applyActs, ih]

@[simp] theorem applyActs_nil (e : Engine) : applyActs [] e = (e, []) := rfl

theorem applyActs_cons (a : Act) (as : List Act) (e : Engine) :
    applyActs (a :: as) e = ((applyActs as (a.effect e).1).1, (a.effect e).2 ++ (applyActs as (a.effect e).1).2) := rfl

end Sys2Proof.Machine
end

