-- ==== Sys2Proof/Laws/Link.lean ====
section
/-!
SUPPORT. What the operations of the handshake leave of the link (R127, R128): the link state, and the whole link where the part
begins to send, to take a byte or to answer.
-/
namespace Sys2Proof.Machine

/-! ### The link state -/

@[simp] theorem Link.sends_state (l : Link) (bytes : List LinkByte) : (l.sends bytes).state = l.state := rfl

@[simp] theorem Link.takes_state (l : Link) (b : LinkByte) : (l.takes b).state = l.state := rfl

@[simp] theorem Link.awaitsByte_state (l : Link) : l.awaitsByte.state = l.state := by
  unfold Link.awaitsByte
  split <;> rfl

@[simp] theorem Link.beginReceiving_state (l : Link) : l.beginReceiving.state = .receiving := Link.awaitsByte_state _

@[simp] theorem Link.moved_state (l : Link) (m : LineMove) : (l.moved m).state = l.state := by
  unfold Link.moved
  split <;> rfl

/-- The handshake of a byte leaves the link state as it is. -/
@[simp] theorem Link.progress_state (l : Link) : l.progress.1.state = l.state := by
  have h1 : l.byteSent.1.state = l.state := by unfold Link.byteSent; split <;> rfl
  have h2 : l.byteTaken.1.state = l.state := by
    unfold Link.byteTaken
    split
    · rfl
    · split <;> rfl
  unfold Link.progress
  split
  · show (if l.sackIn = true then l else { l with hand := .sackRise }).state = l.state
    split <;> rfl
  · show (if l.sackIn = true then { l with hand := .sackFall } else l).state = l.state
    split <;> rfl
  · split
    · rfl
    · exact h1
  · rfl
  · exact h2
  · rfl

/-- A change of a line leaves the link state as it is. -/
@[simp] theorem Link.handles_state (l : Link) (m : LineMove) : (l.handles m).1.state = l.state := by
  unfold Link.handles
  rw [Link.progress_state, Link.moved_state]

theorem Link.answering_state (l : Link) (st : Status) :
    (l.answering st).state = if l.strobe.isSome then l.state else .answering := by
  unfold Link.answering
  split <;> rfl

/-! ### The whole link -/

theorem Link.sends_eq (l : Link) (bytes : List LinkByte) : l.sends bytes = l.sending bytes := rfl

/-- A frame begins. -/
theorem Link.beginReceiving_eq (l : Link) : l.beginReceiving = l.receiving := by
  unfold Link.beginReceiving Link.awaitsByte Link.receiving Link.takes
  cases h : l.strobe with
  | none => simp [Link.rxEmpty, h]
  | some b => simp [Link.rxEmpty, h, frameComplete, frameLength]; split <;> first | omega | (split <;> omega)

/-- The frame of an order has been sent. -/
theorem Link.awaitStatus_eq (l : Link) :
    Link.awaitsByte { l.rxEmpty with state := .awaitStatus, tx := [] } = { l.receiving with state := .awaitStatus, tx := [] } := by
  unfold Link.awaitsByte Link.receiving Link.takes
  cases h : l.strobe with
  | none => simp [Link.rxEmpty, h]
  | some b => simp [Link.rxEmpty, h]

/-- A report is answered. -/
theorem Link.answering_eq (l : Link) (frame : List LinkByte) (note : Bool) (st : Status) :
    Link.answering { l with rx := frame, rxNote := note, hand := .handling } st = l.answered frame note st := by
  unfold Link.answering Link.answered
  cases h : l.strobe with
  | none => rfl
  | some b => rfl

end Sys2Proof.Machine
end

