-- ==== Sys2Proof/Laws/Shows.lean ====
section
/-!
SUPPORT. Every change of an engine-owned byte outside the journal ring is posted, and nothing else is posted there: act by act
(`shows_effect`), and for an event that finds room (`ran_applyActs`). The one exception is the sweep, which posts initial
values whatever the engine holds.
-/
namespace Sys2Proof.Machine

/-- The posts `ps` are the changes of the engine's bytes from `e` to `e'`. -/
def Shows (e : Engine) (ps : List Post) (e' : Engine) : Prop :=
  ∀ off, engineByte e' off = (engineByte e off).map fun b => (lastPost ps off).getD b

theorem Shows.refl (e : Engine) : Shows e [] e := by
  intro off; cases engineByte e off <;> simp [lastPost]

theorem Shows.trans {e e' e'' : Engine} {ps qs : List Post} (h1 : Shows e ps e') (h2 : Shows e' qs e'') :
    Shows e (ps ++ qs) e'' := by
  intro off
  rw [h2 off, h1 off, lastPost_append]
  cases engineByte e off with
  | none => rfl
  | some b => cases lastPost qs off <;> simp

theorem Shows.of_eq {e e' : Engine} (h : engineByte e' = engineByte e) : Shows e [] e' := by
  intro off; rw [h]; exact Shows.refl e off

@[simp] theorem lastPost_nil (off : Nat) : lastPost [] off = none := rfl

theorem lastPost_cons (p : Post) (ps : List Post) (off : Nat) :
    lastPost (p :: ps) off = (lastPost ps off).or (if p.off = off then some p.val else none) := rfl

theorem lastPost_postsAt (base : Nat) (bs : List Byte) (off : Nat) :
    lastPost (postsAt base bs) off = if base ≤ off then bs[off - base]? else none := by
  induction bs generalizing base with
  | nil => simp [postsAt]
  | cons b bs ih =>
    simp only [postsAt, lastPost_cons, ih]
    by_cases h : base + 1 ≤ off
    · have e1 : off - base = (off - (base + 1)) + 1 := by omega
      have h2 : base ≤ off := by omega
      have h3 : ¬ base = off := by omega
      simp [h, h2, h3, e1]
    · by_cases hb : base = off
      · subst hb; simp [show ¬ base + 1 ≤ base by omega]
      · have h2 : ¬ base ≤ off := by omega
        simp [h, h2, hb]

theorem getElem?_leBytes (n w k : Nat) : (leBytes n w)[k]? = if k < w then some (leByte n k) else none := by
  induction w generalizing n k with
  | zero => simp [leBytes]
  | succ w ih =>
    cases k with
    | zero => simp [leBytes, leByte, byteOf]
    | succ k =>
      simp only [leBytes, List.getElem?_cons_succ, ih]
      by_cases h : k < w
      · rw [if_pos h, if_pos (by omega)]
        simp only [leByte, Nat.div_div_eq_div_mul, Nat.pow_succ]
        rw [Nat.mul_comm]
      · rw [if_neg h, if_neg (by omega)]

theorem lastPost_leBytes (base n w off : Nat) :
    lastPost (postsAt base (leBytes n w)) off = if base ≤ off ∧ off < base + w then some (leByte n (off - base)) else none := by
  rw [lastPost_postsAt]
  by_cases h : base ≤ off
  · rw [if_pos h, getElem?_leBytes]
    by_cases h2 : off < base + w
    · rw [if_pos (by omega), if_pos ⟨h, h2⟩]
    · rw [if_neg (by omega), if_neg (by omega)]
  · rw [if_neg h, if_neg (by omega)]

theorem lastPost_none (ps : List Post) (off : Nat) (h : ∀ p ∈ ps, p.off ≠ off) : lastPost ps off = none := by
  induction ps with
  | nil => rfl
  | cons p ps ih =>
    rw [lastPost_cons, ih fun q hq => h q (List.mem_cons_of_mem _ hq), if_neg (h p (List.mem_cons_self ..))]; rfl

/-! ### Status bytes -/

/-- A status byte changes. -/
theorem shows_status {e e' : Engine} {ps : List Post}
    (hs : ∀ off, 0x100 ≤ off → off < 0x200 → statusByte e' off = (statusByte e off).map fun b => (lastPost ps off).getD b)
    (hp : ∀ p ∈ ps, 0x100 ≤ p.off ∧ p.off < 0x200)
    (h1 : e'.slots = e.slots) (h2 : e'.stations = e.stations) : Shows e ps e' := by
  intro off
  have hc : ∀ b, e'.condition b = e.condition b := by intro b; simp [Engine.condition, h2]
  have hsl : ∀ i, e'.slot i = e.slot i := by intro i; simp [Engine.slot, h1]
  by_cases hr : 0x100 ≤ off ∧ off < 0x200
  · unfold engineByte
    rw [if_neg (by omega), if_pos hr.2, if_neg (by omega), if_pos hr.2]
    exact hs off hr.1 hr.2
  · have hn : lastPost ps off = none := lastPost_none _ _ fun p hp' hc => hr (hc ▸ hp p hp')
    have : engineByte e' off = engineByte e off := by
      unfold engineByte
      by_cases ha : off < 0x100
      · simp [ha]
      · have hb : ¬ off < 0x200 := by omega
        simp only [ha, hb, if_false, hc, hsl]
    rw [this, hn]
    cases engineByte e off <;> simp

@[simp] theorem map_getD_none (o : Option Byte) : (o.map fun b => (none : Option Byte).getD b) = o := by cases o <;> rfl

/-- What the region shows of the engine depends on these fields alone. -/
theorem engineByte_congr {e e' : Engine} (h1 : e'.slots = e.slots) (h2 : e'.stations = e.stations) (h3 : e'.time = e.time)
    (h4 : e'.causes = e.causes) (h5 : e'.journal.head = e.journal.head) (h6 : e'.journal.overrun = e.journal.overrun)
    (h7 : e'.dropped = e.dropped) (h8 : e'.console.outcome = e.console.outcome)
    (h9 : e'.console.answered = e.console.answered) (h10 : e'.mode = e.mode) (h11 : e'.link.state = e.link.state)
    (h12 : e'.orders.length = e.orders.length) (h13 : e'.figures = e.figures) (h14 : e'.monitor = e.monitor) :
    engineByte e' = engineByte e := by
  funext off
  simp only [engineByte, statusByte, Engine.slot, Engine.condition, Engine.group, h1, h2, h3, h4, h5, h6, h7, h8, h9, h10,
    h11, h12, h13, h14]

/-- A change that the region does not show. -/
theorem shows_hidden {e e' : Engine} (h1 : e'.slots = e.slots) (h2 : e'.stations = e.stations) (h3 : e'.time = e.time)
    (h4 : e'.causes = e.causes) (h5 : e'.journal.head = e.journal.head) (h6 : e'.journal.overrun = e.journal.overrun)
    (h7 : e'.dropped = e.dropped) (h8 : e'.console.outcome = e.console.outcome)
    (h9 : e'.console.answered = e.console.answered) (h10 : e'.mode = e.mode) (h11 : e'.link.state = e.link.state)
    (h12 : e'.orders.length = e.orders.length) (h13 : e'.figures = e.figures) (h14 : e'.monitor = e.monitor) :
    Shows e [] e' :=
  Shows.of_eq (engineByte_congr h1 h2 h3 h4 h5 h6 h7 h8 h9 h10 h11 h12 h13 h14)

/-- Posts into bytes that are not the engine's. -/
theorem shows_foreign (e : Engine) (ps : List Post) (h : ∀ p ∈ ps, engineByte e p.off = none) : Shows e ps e := by
  intro off
  cases hb : engineByte e off with
  | none => rfl
  | some b =>
    rw [lastPost_none ps off]
    · rfl
    · intro p hp hc; rw [← hc, h p hp] at hb; cases hb

/-- One status byte changes. -/
theorem shows_one {e e' : Engine} {o : Nat} {v : Byte} (h1 : e'.slots = e.slots) (h2 : e'.stations = e.stations)
    (hr : 0x100 ≤ o ∧ o < 0x200) (hv : statusByte e' o = (statusByte e o).map fun _ => v)
    (ho : ∀ off, off ≠ o → statusByte e' off = statusByte e off) : Shows e [{ off := o, val := v }] e' := by
  refine shows_status ?_ (by simpa using hr) h1 h2
  intro off _ _
  by_cases h : off = o
  · subst h; simp [hv, lastPost_cons]
  · simp [lastPost_cons, Ne.symm h, ho off h]

theorem mem_postsAt (b : Nat) (bs : List Byte) (p : Post) (hp : p ∈ postsAt b bs) : b ≤ p.off ∧ p.off < b + bs.length := by
  induction bs generalizing b with
  | nil => cases hp
  | cons x xs ih =>
    rcases List.mem_cons.1 hp with rfl | hp
    · simp
    · have := ih (b + 1) hp; simp; omega

/-- One status field of several bytes changes. -/
theorem shows_field {e e' : Engine} {o w n : Nat} (h1 : e'.slots = e.slots) (h2 : e'.stations = e.stations)
    (hr : 0x100 ≤ o ∧ o + w ≤ 0x200)
    (hv : ∀ off, o ≤ off → off < o + w → statusByte e' off = (statusByte e off).map fun _ => leByte n (off - o))
    (ho : ∀ off, 0x100 ≤ off → (off < o ∨ o + w ≤ off) → statusByte e' off = statusByte e off) :
    Shows e (postsAt o (leBytes n w)) e' := by
  refine shows_status ?_ ?_ h1 h2
  · intro off h _
    rw [lastPost_leBytes]
    by_cases hin : o ≤ off ∧ off < o + w
    · rw [if_pos hin, hv off hin.1 hin.2]; cases statusByte e off <;> rfl
    · rw [if_neg hin, map_getD_none]; exact ho off h (by omega)
  · intro p hpm
    have := mem_postsAt _ _ p hpm
    rw [leBytes_length] at this; omega

/-! ### Slot records -/

/-- A slot record changes: the posts stand in the record, and each byte is what they say or as it was. -/
theorem shows_slot (e : Engine) (i : SlotId) (x : Slot) (ps : List Post)
    (hp : ∀ p ∈ ps, slotOff i 0 ≤ p.off ∧ p.off < slotOff i 24)
    (hb : ∀ k, k < 24 → x.byteAt k = (lastPost ps (slotOff i k)).getD ((e.slot i).byteAt k)) :
    Shows e ps (e.setSlot i x) := by
  intro off
  have hi := i.isLt
  by_cases hin : slotOff i 0 ≤ off ∧ off < slotOff i 24
  · have hoff : off = slotOff i (off - slotOff i 0) := by simp only [slotOff] at hin ⊢; omega
    generalize hk : off - slotOff i 0 = k at hoff
    have hk24 : k < 24 := by simp only [slotOff] at hin hk; omega
    subst hoff
    have hslot : slotAt (slotOff i k) = i := by
      apply Fin.ext
      simp only [slotAt, slotOff]; omega
    have hmod : (slotOff i k - 0x800) % 32 = k := by simp only [slotOff]; omega
    have hr : ∀ e : Engine, engineByte e (slotOff i k) = some ((e.slot i).byteAt k) := by
      intro e
      have h0 : 0x800 ≤ slotOff i k ∧ slotOff i k < 0x1000 := by simp only [slotOff]; omega
      unfold engineByte
      have low : ∀ a, a ≤ 0x800 → ¬ slotOff i k < a := fun a ha hc => by omega
      simp only [low, h0.2, hmod, hslot, hk24, Nat.reduceLeDiff, if_true, if_false]
    rw [hr, hr, Engine.slot_setSlot_self, hb k hk24]
    rfl
  · rw [lastPost_none ps off fun p hpm hc => hin (hc ▸ hp p hpm), map_getD_none]
    unfold engineByte
    by_cases hs : 0x800 ≤ off ∧ off < 0x1000
    · have h1 : ¬ off < 0x100 := by omega
      have h2 : ¬ off < 0x200 := by omega
      have h3 : ¬ off < 0x300 := by omega
      have h4 : ¬ off < 0x800 := by omega
      simp only [h1, h2, h3, h4, hs.2, if_true, if_false]
      by_cases hm : (off - 0x800) % 32 < 24
      · have hne : slotAt off ≠ i := by
          intro hc
          have := congrArg Fin.val hc
          simp only [slotAt] at this
          apply hin
          simp only [slotOff]; omega
        rw [Engine.slot_setSlot_ne e x hne]
      · simp [hm]
    · by_cases h1 : off < 0x800
      · simp only [h1, if_true]; rfl
      · have h2 : ¬ off < 0x1000 := by omega
        have h3 : ¬ off < 0x100 := by omega
        have h4 : ¬ off < 0x200 := by omega
        have h5 : ¬ off < 0x300 := by omega
        simp [h1, h2, h3, h4, h5]

theorem Slot.byteAt_record (x : Slot) (k : Nat) (h : k < 24) : x.record[k]? = some (x.byteAt k) := by
  interval_cases k <;> simp [Slot.record, Slot.byteAt, leBytes, leByte, byteOf, Nat.div_div_eq_div_mul]

/-! ### Act by act -/

theorem shows_putFlag (e : Engine) (i : SlotId) (f : FlagName) (b : Bool) : Shows e (e.putFlag i f b).2 (e.putFlag i f b).1 := by
  unfold Engine.putFlag
  simp only
  split
  · exact Shows.refl e
  · refine shows_slot e i _ _ (by simp [slotOff]) ?_
    intro k hk
    by_cases h : k = 1
    · subst h; simp [Slot.byteAt, lastPost_cons]
    · have : ¬ slotOff i 1 = slotOff i k := by simp only [slotOff]; omega
      simp [Slot.byteAt, lastPost_cons, this, h]

theorem byteOf_low (x : BitVec 16) : byteOf x.toNat = x.extractLsb' 0 8 := by
  apply BitVec.eq_of_toNat_eq; simp [byteOf]

theorem byteOf_high (x : BitVec 16) : byteOf (x.toNat / 256) = x.extractLsb' 8 8 := by
  apply BitVec.eq_of_toNat_eq; simp [byteOf, Nat.shiftRight_eq_div_pow]

theorem byteOf_high_latch (x : BitVec 16) (c : Cause) (h : c.bit < 8) :
    byteOf ((x ||| c.mask).toNat / 256) = byteOf (x.toNat / 256) := by
  rw [byteOf_high, byteOf_high, BitVec.extractLsb'_or]
  have : c.mask.extractLsb' 8 8 = 0#8 := by cases c <;> first | rfl | (simp [Cause.bit] at h)
  rw [this]; simp

theorem byteOf_low_latch (x : BitVec 16) (c : Cause) (h : ¬ c.bit < 8) :
    byteOf (x ||| c.mask).toNat = byteOf x.toNat := by
  rw [byteOf_low, byteOf_low, BitVec.extractLsb'_or]
  have : c.mask.extractLsb' 0 8 = 0#8 := by cases c <;> first | rfl | (simp [Cause.bit] at h)
  rw [this]; simp

theorem statusByte_causes (e e' : Engine) (off : Nat) (h : e' = { e with causes := e'.causes })
    (ho : ¬ (0x104 ≤ off ∧ off < 0x106)) : statusByte e' off = statusByte e off := by
  rw [h]
  unfold statusByte
  by_cases h2 : off < 0x104
  · simp [h2]
  · have h3 : ¬ off < 0x106 := by omega
    simp [h2, h3, Engine.group]

theorem shows_latch (e : Engine) (c : Cause) : Shows e (e.latch c).2 (e.latch c).1 := by
  unfold Engine.latch
  split
  · simp only
    split
    · rename_i hc
      refine shows_status ?_ (by simp [causeOff]) rfl rfl
      intro off h1 h2
      by_cases ho : 0x104 ≤ off ∧ off < 0x106
      · rcases (show off = 0x104 ∨ off = 0x105 by omega) with rfl | rfl
        · simp [statusByte, lastPost_cons, causeOff, leByte]
        · simp [-BitVec.toNat_or, statusByte, lastPost_cons, causeOff, leByte, byteOf_high_latch _ _ hc]
      · rw [statusByte_causes e _ off rfl ho, lastPost_none _ _ (by simp [causeOff]; omega), map_getD_none]
    · rename_i hc
      refine shows_status ?_ (by simp [causeOff]) rfl rfl
      intro off h1 h2
      by_cases ho : 0x104 ≤ off ∧ off < 0x106
      · rcases (show off = 0x104 ∨ off = 0x105 by omega) with rfl | rfl
        · simp [-BitVec.toNat_or, statusByte, lastPost_cons, causeOff, leByte, byteOf_low_latch _ _ hc]
        · simp [statusByte, lastPost_cons, causeOff, leByte]
      · rw [statusByte_causes e _ off rfl ho, lastPost_none _ _ (by simp [causeOff]; omega), map_getD_none]
  · exact Shows.refl e

theorem shows_removeOrder (e : Engine) (i : SlotId) : Shows e (e.removeOrder i).2 (e.removeOrder i).1 := by
  unfold Engine.removeOrder
  simp only
  split
  · exact Shows.refl e
  · refine shows_one rfl rfl (by simp [orderLengthOff]) rfl ?_
    intro off h
    simp only [orderLengthOff] at h
    simp [statusByte, h, Engine.group]

theorem shows_linkState (e : Engine) (f : Link → Link) (l : LinkState) (hf : (f e.link).state = l) :
    Shows e [{ off := linkStateOff, val := l.code }] (e.onLink f) := by
  refine shows_one rfl rfl (by simp [linkStateOff]) ?_ ?_
  · simp [statusByte, linkStateOff, hf]
  · intro off h
    simp only [linkStateOff] at h
    simp [statusByte, h, Engine.group]

/-- A change of the link controller that leaves the link state as it is shows nothing. -/
theorem shows_link (e : Engine) (f : Link → Link) (hf : (f e.link).state = e.link.state) : Shows e [] (e.onLink f) :=
  shows_hidden rfl rfl rfl rfl rfl rfl rfl rfl rfl rfl hf rfl rfl rfl

theorem shows_idleTest (e : Engine) : Shows e e.idleTest.2 e.idleTest.1 := by
  unfold Engine.idleTest
  split
  · split
    · exact shows_linkState e _ _ (Link.beginReceiving_state _)
    · split
      · exact shows_linkState e _ _ rfl
      · exact Shows.refl e
  · exact Shows.refl e

theorem engineByte_ring (e : Engine) (off : Nat) (h : 0x1000 ≤ off) : engineByte e off = none := by
  have low : ∀ a, a ≤ 0x1000 → ¬ off < a := fun a ha hc => by omega
  simp only [engineByte, low, Nat.reduceLeDiff, if_false]

theorem engineByte_setup (e : Engine) (off : Nat) (h : off < 0x100) : engineByte e off = none := by
  unfold engineByte
  rw [if_pos h]

theorem shows_append (e : Engine) (k : JournalKind) (sl a b : Byte) :
    Shows e (e.append k sl a b).2 (e.append k sl a b).1 := by
  unfold Engine.append
  split
  · have hw : Shows e (postsAt (recordOff e.journal.head) ([k.code, sl, a, b] ++ leBytes e.time 4)
        ++ postsAt headOff (leBytes ((e.journal.head + 1) % Config.ringSize) 2))
        (e.onJournal fun j => { j with head := (e.journal.head + 1) % Config.ringSize }) := by
      refine (shows_foreign e _ ?_).trans ?_
      · intro p hp
        refine engineByte_ring e _ ?_
        have := (mem_postsAt _ _ p hp).1
        simp only [recordOff] at this; omega
      · refine shows_field rfl rfl (by simp [headOff]) ?_ ?_
        · intro off h1 h2
          simp only [headOff] at h1 h2
          have g1 : ¬ off < 0x104 := by omega
          have g2 : ¬ off < 0x106 := by omega
          have g3 : off < 0x108 := by omega
          simp [statusByte, g1, g2, g3, headOff, Engine.onJournal]
        · intro off h1 h2
          simp only [headOff] at h2
          by_cases g1 : off < 0x104
          · simp [statusByte, g1, Engine.onJournal]
          · by_cases g2 : off < 0x106
            · simp [statusByte, g1, g2, Engine.onJournal]
            · have g3 : ¬ off < 0x108 := by omega
              simp [statusByte, g1, g2, g3, Engine.onJournal, Engine.group]
    simp only
    split
    · exact hw.trans (shows_latch _ _)
    · exact hw
  · simp only
    refine Shows.trans (e' := e.onJournal fun j => { j with overrun := true }) ?_ (shows_latch _ _)
    by_cases ho : e.journal.overrun = true
    · rw [if_pos ho]
      exact shows_hidden rfl rfl rfl rfl rfl ho.symm rfl rfl rfl rfl rfl rfl rfl rfl
    · rw [if_neg ho]
      refine shows_one rfl rfl (by simp [overrunOff]) rfl ?_
      intro off h
      simp only [overrunOff] at h
      simp [statusByte, h, Engine.onJournal, Engine.group]

theorem Shows.hidden {e e' e'' : Engine} {ps : List Post} (h : Shows e ps e') (h2 : engineByte e'' = engineByte e') :
    Shows e ps e'' := by
  intro off; rw [h2]; exact h off

theorem shows_free (e : Engine) (i : SlotId) : Shows e (e.free i).2 (e.free i).1 := by
  unfold Engine.free
  simp only [List.append_assoc]
  refine (shows_removeOrder e i).trans ?_
  have hs : (e.removeOrder i).1.slot i = e.slot i := by
    unfold Engine.removeOrder; simp only; split <;> rfl
  refine Shows.hidden (e' := (e.removeOrder i).1.setSlot i (e.slot i).freed) ?_
    (engineByte_congr rfl rfl rfl rfl rfl rfl rfl rfl rfl rfl rfl rfl rfl rfl)
  refine shows_slot _ _ _ _ ?_ ?_
  · simp [slotOff, postsAt]; omega
  · intro k hk
    rw [hs]
    have hl : ∀ a b : Nat, (slotOff i a = slotOff i b) = (a = b) := by intro a b; simp only [slotOff]; apply propext; omega
    have h4 : postsAt (slotOff i 4) [0, 0] = [{ off := slotOff i 4, val := 0 }, { off := slotOff i 5, val := 0 }] := rfl
    have h16 : postsAt (slotOff i 16) [0, 0, 0, 0] = [{ off := slotOff i 16, val := 0 }, { off := slotOff i 17, val := 0 },
      { off := slotOff i 18, val := 0 }, { off := slotOff i 19, val := 0 }] := rfl
    rw [h4, h16]
    interval_cases k <;> simp [Slot.byteAt, Slot.freed, lastPost_cons, hl, SlotFlags.clear, SlotFlags.byte, leByte, byteOf]

/-- One byte of a slot record changes. -/
theorem shows_slotOne (e : Engine) (i : SlotId) (f : Slot → Slot) (k : Nat) (v : Byte) (hk : k < 24)
    (hv : (f (e.slot i)).byteAt k = v) (ho : ∀ j, j < 24 → j ≠ k → (f (e.slot i)).byteAt j = (e.slot i).byteAt j) :
    Shows e [{ off := slotOff i k, val := v }] (e.onSlot i f) := by
  refine shows_slot e i _ _ ?_ ?_
  · simp [slotOff]; omega
  · intro j hj
    by_cases h : j = k
    · subst h; simp [lastPost_cons, hv]
    · have : ¬ slotOff i k = slotOff i j := by simp only [slotOff]; omega
      simp [lastPost_cons, this, ho j hj h]

/-- A slot change that the record does not show. -/
theorem shows_slotHidden (e : Engine) (i : SlotId) (f : Slot → Slot)
    (h : ∀ j, j < 24 → (f (e.slot i)).byteAt j = (e.slot i).byteAt j) : Shows e [] (e.onSlot i f) :=
  shows_slot e i _ [] (by simp) (by intro j hj; simp [h j hj])

/-- One field of four bytes of a slot record changes. -/
theorem shows_slotField (e : Engine) (i : SlotId) (f : Slot → Slot) (k w n : Nat) (hk : k + w ≤ 24)
    (hv : ∀ j, k ≤ j → j < k + w → (f (e.slot i)).byteAt j = leByte n (j - k))
    (ho : ∀ j, j < 24 → (j < k ∨ k + w ≤ j) → (f (e.slot i)).byteAt j = (e.slot i).byteAt j) :
    Shows e (postsAt (slotOff i k) (leBytes n w)) (e.onSlot i f) := by
  refine shows_slot e i _ _ ?_ ?_
  · intro p hp
    have := mem_postsAt _ _ p hp
    rw [leBytes_length] at this
    simp only [slotOff] at this ⊢; omega
  · intro j hj
    rw [lastPost_leBytes]
    by_cases h : k ≤ j ∧ j < k + w
    · have hs : slotOff i k ≤ slotOff i j ∧ slotOff i j < slotOff i k + w := by simp only [slotOff]; omega
      have he : slotOff i j - slotOff i k = j - k := by simp only [slotOff]; omega
      rw [if_pos hs, he, hv j h.1 h.2]; rfl
    · have hs : ¬ (slotOff i k ≤ slotOff i j ∧ slotOff i j < slotOff i k + w) := by simp only [slotOff]; omega
      rw [if_neg hs, ho j hj (by omega)]; rfl

/-! ### Group figures -/

theorem mem_postsAt_iff (b : Nat) (bs : List Byte) (p : Post) :
    p ∈ postsAt b bs ↔ b ≤ p.off ∧ bs[p.off - b]? = some p.val := by
  induction bs generalizing b with
  | nil => simp [postsAt]
  | cons x xs ih =>
    simp only [postsAt, List.mem_cons, ih]
    by_cases h : p.off = b
    · subst h
      have : ¬ p.off + 1 ≤ p.off := by omega
      simp only [this, false_and, or_false, Nat.le_refl, true_and, Nat.sub_self, List.getElem?_cons_zero, Option.some.injEq]
      constructor
      · intro hp; rw [hp]
      · intro hx; cases p; simp_all
    · have hp : p ≠ { off := b, val := x } := by intro hc; rw [hc] at h; exact h rfl
      simp only [hp, false_or]
      by_cases hb : b ≤ p.off
      · have e1 : p.off - b = (p.off - (b + 1)) + 1 := by omega
        have hb1 : b + 1 ≤ p.off := by omega
        simp [hb, hb1, e1]
      · have hb1 : ¬ b + 1 ≤ p.off := by omega
        simp [hb, hb1]

theorem lastPost_unique (ps : List Post) (off : Nat) (v : Byte) (h : ∀ p ∈ ps, p.off = off → p.val = v)
    (hm : ∃ p ∈ ps, p.off = off) : lastPost ps off = some v := by
  induction ps with
  | nil => obtain ⟨p, hp, _⟩ := hm; cases hp
  | cons q ps ih =>
    rw [lastPost_cons]
    by_cases hr : ∃ p ∈ ps, p.off = off
    · rw [ih (fun p hp => h p (List.mem_cons_of_mem _ hp)) hr]; rfl
    · have hn : lastPost ps off = none := lastPost_none _ _ fun p hp hc => hr ⟨p, hp, hc⟩
      obtain ⟨p, hp, hpo⟩ := hm
      rcases List.mem_cons.1 hp with rfl | hp
      · rw [hn, if_pos hpo, h p (List.mem_cons_self ..) hpo]; rfl
      · exact absurd ⟨p, hp, hpo⟩ hr

/-- The value of a figure's byte. -/
def figureByte (f : Figures) (off : Nat) : Option Byte :=
  if off = 0x113 then some (byteOf f.length)
  else if off = 0x114 then some (slotByte f.head)
  else if 0x120 ≤ off ∧ off < 0x128 then some (byteOf (f.counts[groupAt (off - 0x120)]))
  else if 0x128 ≤ off ∧ off < 0x130 then some (slotByte (f.heads[groupAt (off - 0x128)]))
  else none

theorem mem_figures (f : Figures) (p : Post) : p ∈ f.posts ↔ figureByte f p.off = some p.val := by
  obtain ⟨off, v⟩ := p
  simp only [Figures.posts, List.mem_append, List.mem_cons, List.not_mem_nil, or_false, mem_postsAt_iff, Post.mk.injEq,
    queueLengthOff, queueHeadOff, countOff, groupHeadOff, figureByte]
  by_cases h1 : off = 0x113
  · subst h1; simp [eq_comm]
  by_cases h2 : off = 0x114
  · subst h2; simp [eq_comm]
  by_cases h3 : 0x120 ≤ off ∧ off < 0x128
  · have : ¬ 0x128 ≤ off := by omega
    have hm : (groupAt (off - 288)).val = off - 288 := Nat.mod_eq_of_lt (by omega)
    have hl : off - 288 < 8 := by omega
    simp [h1, h2, h3, this, Vector.getElem?_toList, hl, hm]
  by_cases h4 : 0x128 ≤ off ∧ off < 0x130
  · have hl : off - 296 < 8 := by omega
    have hg : ¬ off - 288 < 8 := by omega
    have hm : (groupAt (off - 296)).val = off - 296 := Nat.mod_eq_of_lt hl
    simp [h1, h2, h3, h4, hl, hg, hm]
  · simp only [h1, h2, h3, h4, false_and, false_or, if_false]
    constructor
    · rintro (⟨ha, hb⟩ | ⟨ha, hb⟩)
      · have : ¬ off - 288 < 8 := by omega
        simp [this] at hb
      · have : ¬ off - 296 < 8 := by omega
        simp [this] at hb
    · intro h; cases h

theorem statusByte_figures (e : Engine) (f : Figures) (off : Nat) :
    statusByte { e with figures := f } off = (figureByte f off).or (if (figureByte e.figures off).isSome then none else statusByte e off) := by
  by_cases h1 : off = 0x113
  · subst h1; simp [statusByte, figureByte]
  by_cases h2 : off = 0x114
  · subst h2; simp [statusByte, figureByte]
  by_cases h3 : 0x120 ≤ off ∧ off < 0x128
  · have g : ¬ off < 0x120 := by omega
    have : ¬ off < 0x104 ∧ ¬ off < 0x106 ∧ ¬ off < 0x108 ∧ ¬ off < 0x10A ∧ ¬ off = 0x10A ∧ ¬ off = 0x10B ∧ ¬ off < 0x10E
      ∧ ¬ off = 0x10E ∧ ¬ off = 0x10F ∧ ¬ off = 0x110 ∧ ¬ off = 0x111 ∧ ¬ off = 0x112 := by omega
    simp [statusByte, figureByte, this, h1, h2, h3, g]
  by_cases h4 : 0x128 ≤ off ∧ off < 0x130
  · have : ¬ off < 0x104 ∧ ¬ off < 0x106 ∧ ¬ off < 0x108 ∧ ¬ off < 0x10A ∧ ¬ off = 0x10A ∧ ¬ off = 0x10B ∧ ¬ off < 0x10E
      ∧ ¬ off = 0x10E ∧ ¬ off = 0x10F ∧ ¬ off = 0x110 ∧ ¬ off = 0x111 ∧ ¬ off = 0x112 ∧ ¬ off < 0x120 ∧ ¬ off < 0x128 := by omega
    simp [statusByte, figureByte, this, h1, h2, h4]
  · have hf : ∀ f, figureByte f off = none := by intro f; simp [figureByte, h1, h2, h3, h4]
    rw [hf, hf]
    unfold statusByte
    by_cases g : off < 0x120
    · simp [h1, h2, g]
    · have g1 : ¬ off < 0x128 := by omega
      have g2 : ¬ off < 0x130 := by omega
      simp [h1, h2, g, g1, g2, Engine.group]

theorem figureByte_isSome (f f' : Figures) (off : Nat) : (figureByte f off).isSome = (figureByte f' off).isSome := by
  unfold figureByte
  repeat' split
  all_goals rfl

theorem statusByte_of_figure (e : Engine) (off : Nat) (v : Byte) (h : figureByte e.figures off = some v) :
    statusByte e off = some v := by
  have := statusByte_figures e e.figures off
  rw [h] at this
  exact this

/-- The figures change, and at least the changed ones are posted, each with its new value. -/
theorem shows_figures (e : Engine) (f : Figures) (ps : List Post) (h1 : ∀ p ∈ ps, p ∈ f.posts)
    (h2 : ∀ p ∈ f.posts, p ∈ ps ∨ p ∈ e.figures.posts) : Shows e ps { e with figures := f } := by
  refine shows_status ?_ ?_ rfl rfl
  · intro off _ _
    rw [statusByte_figures]
    cases hv : figureByte f off with
    | none =>
      have hs : (figureByte e.figures off).isSome = false := by rw [figureByte_isSome _ f, hv]; rfl
      have hn : lastPost ps off = none := lastPost_none _ _ fun p hp hc => by
        have := (mem_figures f p).1 (h1 p hp)
        rw [hc, hv] at this; cases this
      simp [hs, hn]
    | some v =>
      have hmem : ({ off := off, val := v } : Post) ∈ f.posts := (mem_figures f _).2 hv
      have hu : ∀ p ∈ ps, p.off = off → p.val = v := by
        intro p hp hc
        have := (mem_figures f p).1 (h1 p hp)
        rw [hc, hv] at this; cases this; rfl
      obtain ⟨w, hw⟩ : ∃ w, figureByte e.figures off = some w := by
        have := figureByte_isSome f e.figures off
        rw [hv] at this
        exact Option.isSome_iff_exists.1 this.symm
      rw [statusByte_of_figure e off w hw]
      rcases h2 _ hmem with hp | hp
      · rw [lastPost_unique ps off v hu ⟨_, hp, rfl⟩]; rfl
      · have hwv : w = v := by
          have := (mem_figures e.figures _).1 hp
          rw [hw] at this; cases this; rfl
        subst hwv
        by_cases hex : ∃ p ∈ ps, p.off = off
        · rw [lastPost_unique ps off w hu hex]; rfl
        · rw [lastPost_none ps off fun p hp hc => hex ⟨p, hp, hc⟩]; rfl
  · intro p hp
    have := (mem_figures f p).1 (h1 p hp)
    unfold figureByte at this
    repeat' split at this
    all_goals first | omega | cases this

/-! ### Group monitor bytes -/

theorem statusByte_group (e : Engine) (m : Vector GroupMonitor 8) (off : Nat) (h : off < 0x130 ∨ 0x150 ≤ off) :
    statusByte { e with monitor := m } off = statusByte e off := by
  unfold statusByte
  by_cases g : off < 0x130
  · simp [g]
  · have g1 : ¬ off < 0x140 := by omega
    have g2 : ¬ off < 0x148 := by omega
    have g3 : ¬ off < 0x150 := by omega
    simp [g, g1, g2, g3]

/-- The status area from the estimates on: what comes before them is out of reach of the offset. -/
theorem statusByte_monitor (e : Engine) (off : Nat) (h : 0x130 ≤ off) :
    statusByte e off =
      if off < 0x140 then some (leByte (e.group (groupAt ((off - 0x130) / 2))).estimate ((off - 0x130) % 2))
      else if off < 0x148 then some (byteOf (e.group (groupAt (off - 0x140))).count)
      else if off < 0x150 then some (boolByte (e.group (groupAt (off - 0x148))).overflow)
      else none := by
  have low : ∀ a, a ≤ 0x130 → (off < a ↔ False) := fun a ha => ⟨fun hc => absurd hc (by omega), False.elim⟩
  have one : ∀ a, a < 0x130 → (off = a ↔ False) := fun a ha => ⟨fun hc => absurd hc (by omega), False.elim⟩
  simp only [statusByte, low, one, Nat.reduceLeDiff, Nat.reduceLT, if_false]

theorem statusByte_estimate (e : Engine) (off : Nat) (h1 : 0x130 ≤ off) (h2 : off < 0x140) :
    statusByte e off = some (leByte (e.group (groupAt ((off - 0x130) / 2))).estimate ((off - 0x130) % 2)) :=
  (statusByte_monitor e off h1).trans (if_pos h2)

theorem statusByte_count (e : Engine) (off : Nat) (h1 : 0x140 ≤ off) (h2 : off < 0x148) :
    statusByte e off = some (byteOf (e.group (groupAt (off - 0x140))).count) := by
  have h3 : ¬ off < 0x140 := by omega
  rw [statusByte_monitor e off (by omega), if_neg h3, if_pos h2]

theorem statusByte_overflow (e : Engine) (off : Nat) (h1 : 0x148 ≤ off) (h2 : off < 0x150) :
    statusByte e off = some (boolByte (e.group (groupAt (off - 0x148))).overflow) := by
  have h3 : ¬ off < 0x140 := by omega
  have h4 : ¬ off < 0x148 := by omega
  rw [statusByte_monitor e off (by omega), if_neg h3, if_neg h4, if_pos h2]

theorem ofNat8_ne (g : GroupId) (k : Nat) (hk : k < 8) (h : k ≠ g.val) : groupAt k ≠ g := by
  intro hc
  have := congrArg Fin.val hc
  simp only [groupAt] at this; omega

theorem ofNat8_eq (g : GroupId) (k : Nat) (h : k = g.val) : groupAt k = g := by
  subst h; apply Fin.ext; simp only [groupAt]; omega

/-- A group's monitor changes: its five bytes are posted or as they were. -/
theorem shows_group (e : Engine) (g : GroupId) (f : GroupMonitor → GroupMonitor) (ps : List Post)
    (hp : ∀ p ∈ ps, p.off = estimateOff g ∨ p.off = estimateOff g + 1 ∨ p.off = durationOff g ∨ p.off = overflowOff g)
    (h0 : leByte (f (e.group g)).estimate 0 = (lastPost ps (estimateOff g)).getD (leByte (e.group g).estimate 0))
    (h1 : leByte (f (e.group g)).estimate 1 = (lastPost ps (estimateOff g + 1)).getD (leByte (e.group g).estimate 1))
    (h2 : byteOf (f (e.group g)).count = (lastPost ps (durationOff g)).getD (byteOf (e.group g).count))
    (h3 : boolByte (f (e.group g)).overflow = (lastPost ps (overflowOff g)).getD (boolByte (e.group g).overflow)) :
    Shows e ps (e.onGroup g f) := by
  have hg := g.isLt
  simp only [estimateOff, durationOff, overflowOff] at *
  refine shows_status ?_ (fun p hpm => by have := hp p hpm; omega) rfl rfl
  intro off ha hb
  by_cases hr : off < 0x130 ∨ 0x150 ≤ off
  · rw [lastPost_none ps off fun p hpm hc => by have := hp p hpm; omega, map_getD_none]
    exact statusByte_group e _ off hr
  by_cases c1 : off < 0x140
  · rw [statusByte_estimate _ off (by omega) c1, statusByte_estimate _ off (by omega) c1]
    by_cases c : (off - 0x130) / 2 = g.val
    · rw [ofNat8_eq g _ c, Engine.group_onGroup_self]
      rcases (show off = 0x130 + 2 * g.val ∨ off = 0x130 + 2 * g.val + 1 by omega) with hoff | hoff
      · subst hoff
        have : (0x130 + 2 * g.val - 0x130) % 2 = 0 := by omega
        rw [this, h0]; rfl
      · subst hoff
        have : (0x130 + 2 * g.val + 1 - 0x130) % 2 = 1 := by omega
        rw [this, h1]; rfl
    · rw [Engine.group_onGroup_ne e f (ofNat8_ne g _ (by omega) c), lastPost_none ps off fun p hpm hc => by have := hp p hpm; omega]; rfl
  by_cases c2 : off < 0x148
  · rw [statusByte_count _ off (by omega) c2, statusByte_count _ off (by omega) c2]
    by_cases c : off - 0x140 = g.val
    · rw [ofNat8_eq g _ c, Engine.group_onGroup_self, show off = 0x140 + g.val by omega, h2]; rfl
    · rw [Engine.group_onGroup_ne e f (ofNat8_ne g _ (by omega) c), lastPost_none ps off fun p hpm hc => by have := hp p hpm; omega]; rfl
  · rw [statusByte_overflow _ off (by omega) (by omega), statusByte_overflow _ off (by omega) (by omega)]
    by_cases c : off - 0x148 = g.val
    · rw [ofNat8_eq g _ c, Engine.group_onGroup_self, show off = 0x148 + g.val by omega, h3]; rfl
    · rw [Engine.group_onGroup_ne e f (ofNat8_ne g _ (by omega) c), lastPost_none ps off fun p hpm hc => by have := hp p hpm; omega]; rfl

theorem shows_estimate (e : Engine) (g : GroupId) (n : Nat) :
    Shows e (postsAt (estimateOff g) (leBytes n 2)) (e.onGroup g fun m => { m with estimate := n }) := by
  have hg := g.isLt
  refine shows_group e g _ _ ?_ ?_ ?_ ?_ ?_
  · intro p hp
    have := mem_postsAt _ _ p hp
    rw [leBytes_length] at this; omega
  · rw [lastPost_leBytes, if_pos (by omega)]; simp
  · rw [lastPost_leBytes, if_pos (by omega)]; simp
  · rw [lastPost_leBytes, if_neg (by simp only [estimateOff, durationOff]; omega)]; rfl
  · rw [lastPost_leBytes, if_neg (by simp only [estimateOff, overflowOff]; omega)]; rfl

theorem shows_count (e : Engine) (g : GroupId) (n : Nat) :
    Shows e [{ off := durationOff g, val := byteOf n }] (e.onGroup g fun m => { m with count := n }) := by
  have hg := g.isLt
  refine shows_group e g _ _ (by simp) ?_ ?_ ?_ ?_
  all_goals simp only [lastPost_cons, lastPost_nil, Option.none_or, estimateOff, durationOff, overflowOff]
  · rw [if_neg (by omega)]; rfl
  · rw [if_neg (by omega)]; rfl
  · rfl
  · rw [if_neg (by omega)]; rfl

theorem shows_overflow (e : Engine) (g : GroupId) (on : Bool) :
    Shows e [{ off := overflowOff g, val := boolByte on }] (e.onGroup g fun m => { m with overflow := on }) := by
  have hg := g.isLt
  refine shows_group e g _ _ (by simp) ?_ ?_ ?_ ?_
  all_goals simp only [lastPost_cons, lastPost_nil, Option.none_or, estimateOff, durationOff, overflowOff]
  · rw [if_neg (by omega)]; rfl
  · rw [if_neg (by omega)]; rfl
  · rw [if_neg (by omega)]; rfl
  · rfl

theorem shows_resetGroup (e : Engine) (g : GroupId) :
    Shows e (monitorResetPosts (e.group g) g) (e.onGroup g fun m => { m with count := 0, overflow := false }) := by
  have hg := g.isLt
  unfold monitorResetPosts
  split
  · refine shows_group e g _ _ (by simp) ?_ ?_ ?_ ?_
    all_goals simp only [lastPost_cons, lastPost_nil, Option.none_or, estimateOff, durationOff, overflowOff]
    · rw [if_neg (by omega), if_neg (by omega)]; rfl
    · rw [if_neg (by omega), if_neg (by omega)]; rfl
    · rw [if_neg (by omega)]; rfl
    · rfl
  · rename_i h
    simp only [Bool.or_eq_true, bne_iff_ne, ne_eq, not_or, Bool.not_eq_true, Decidable.not_not] at h
    refine shows_group e g _ _ (by simp) rfl rfl ?_ ?_
    · simp [h.2]
    · simp [h.1]

theorem shows_resetGroups (l : List GroupId) (hl : l.Nodup) (e e' : Engine) (h : ∀ g ∈ l, e'.group g = e.group g) :
    Shows e' (l.flatMap fun g => monitorResetPosts (e.group g) g)
      (l.foldl (fun e g => e.onGroup g fun m => { m with count := 0, overflow := false }) e') := by
  induction l generalizing e' with
  | nil => exact Shows.refl e'
  | cons g l ih =>
    simp only [List.flatMap_cons, List.foldl_cons]
    rw [← h g (List.mem_cons_self ..)]
    refine (shows_resetGroup e' g).trans (ih (List.nodup_cons.1 hl).2 _ ?_)
    intro k hk
    have hne : k ≠ g := fun hc => (List.nodup_cons.1 hl).1 (hc ▸ hk)
    rw [Engine.group_onGroup_ne e' _ hne, h k (List.mem_cons_of_mem _ hk)]

/-! ### Stations and whole records -/

theorem engineByte_stations (e e' : Engine) (off : Nat) (h : e' = { e with stations := e'.stations })
    (ho : ¬ (0x200 ≤ off ∧ off < 0x300)) : engineByte e' off = engineByte e off := by
  rw [h]
  unfold engineByte
  by_cases h1 : off < 0x100
  · simp [h1]
  by_cases h2 : off < 0x200
  · simp only [h1, h2, if_true, if_false]; rfl
  · have h3 : ¬ off < 0x300 := by omega
    simp only [h1, h2, h3, if_false]; rfl

theorem engineByte_station (e : Engine) (off : Nat) (h : 0x200 ≤ off ∧ off < 0x300) :
    engineByte e off = some (e.condition (byteOf (off - 0x200))).code := by
  unfold engineByte
  rw [if_neg (by omega), if_neg (by omega), if_pos h.2]

theorem shows_station (e : Engine) (st : Byte) (c : Condition) :
    Shows e [{ off := stationOff st, val := c.code }] (e.setCondition st c) := by
  intro off
  have hs := st.isLt
  by_cases h : 0x200 ≤ off ∧ off < 0x300
  · rw [engineByte_station _ off h, engineByte_station _ off h, lastPost_cons, lastPost_nil, Option.none_or]
    by_cases hst : stationOff st = off
    · have : byteOf (off - 0x200) = st := by
        apply BitVec.eq_of_toNat_eq
        simp only [stationOff] at hst
        simp [byteOf]; omega
      rw [if_pos hst, this, Engine.condition_setCondition_self]; rfl
    · have : byteOf (off - 0x200) ≠ st := by
        intro hc
        apply hst
        rw [← hc]
        simp [stationOff, byteOf]; omega
      rw [if_neg hst, Engine.condition_setCondition_ne e c this]; rfl
  · have hne : ¬ stationOff st = off := by simp only [stationOff]; omega
    rw [engineByte_stations e (e.setCondition st c) off rfl h, lastPost_cons, lastPost_nil, Option.none_or, if_neg hne,
      map_getD_none]

theorem shows_stationsUnknown (e : Engine) :
    Shows e (postsAt (stationOff 0) (List.replicate 256 Condition.unknown.code))
      { e with stations := Vector.replicate 256 .unknown } := by
  intro off
  by_cases h : 0x200 ≤ off ∧ off < 0x300
  · rw [engineByte_station _ off h, engineByte_station _ off h, lastPost_postsAt]
    have h0 : stationOff 0 = 0x200 := rfl
    have hl : off - 0x200 < 256 := by omega
    rw [h0, if_pos h.1, List.getElem?_replicate, if_pos hl]
    simp [Engine.condition]
  · rw [engineByte_stations e _ off rfl h, lastPost_postsAt]
    have h0 : stationOff 0 = 0x200 := rfl
    rw [h0]
    by_cases hb : 0x200 ≤ off
    · have hl : ¬ off - 0x200 < 256 := by omega
      rw [if_pos hb, List.getElem?_replicate, if_neg hl, map_getD_none]
    · rw [if_neg hb, map_getD_none]

theorem shows_record (e : Engine) (i : SlotId) (x : Slot) : Shows e (postsAt (slotOff i 0) x.record) (e.setSlot i x) := by
  refine shows_slot e i x _ ?_ ?_
  · intro p hp
    have := mem_postsAt _ _ p hp
    have hl : x.record.length = 24 := by simp [Slot.record, leBytes_length]
    rw [hl] at this
    simp only [slotOff] at this ⊢; omega
  · intro k hk
    have h1 : slotOff i 0 ≤ slotOff i k := by simp [slotOff]
    have h2 : slotOff i k - slotOff i 0 = k := by simp only [slotOff]; omega
    rw [lastPost_postsAt, if_pos h1, h2, Slot.byteAt_record x k hk]; rfl

theorem engineByte_setCopy (e : Engine) (off : Nat) (b : Byte) : engineByte (e.setCopy off b) = engineByte e := by
  unfold Engine.setCopy
  split
  · exact engineByte_congr rfl rfl rfl rfl rfl rfl rfl rfl rfl rfl rfl rfl rfl rfl
  · rfl

theorem shows_setField (e : Engine) (f : SetupField) (v : Nat) :
    engineByte (e.setField f v) = engineByte e := by
  have : ∀ (ps : List Post) (e : Engine), engineByte (ps.foldl (fun e p => e.setCopy p.off p.val) e) = engineByte e := by
    intro ps
    induction ps with
    | nil => intro e; rfl
    | cons p ps ih =>
      intro e
      rw [List.foldl_cons, ih, engineByte_setCopy]
  exact this _ _

theorem SetupField.off_lt (f : SetupField) : f.off + f.width ≤ 0x100 := by
  cases f <;> simp only [SetupField.off, SetupField.width, groupRecord] <;> omega

theorem setupPosts_foreign (e : Engine) (f : SetupField) (v : Nat) (p : Post) (hp : p ∈ postsAt f.off (leBytes v f.width)) :
    engineByte e p.off = none := by
  have h1 := mem_postsAt _ _ p hp
  have h2 := f.off_lt
  rw [leBytes_length] at h1
  exact engineByte_setup e _ (by omega)

theorem shows_loadStored (fs : List SetupField) (r : Engine × List Post) (e : Engine) (h : Shows e r.2 r.1) :
    Shows e (fs.foldl loadStored r).2 (fs.foldl loadStored r).1 := by
  induction fs generalizing r with
  | nil => exact h
  | cons f fs ih =>
    refine ih _ ?_
    unfold loadStored
    simp only
    split
    · exact h.hidden (engineByte_congr rfl rfl rfl rfl rfl rfl rfl rfl rfl rfl rfl rfl rfl rfl)
    · refine (h.trans (shows_foreign r.1 _ (setupPosts_foreign r.1 f _))).hidden ?_
      have h1 := shows_setField { r.1 with setup := r.1.setup.take f (f.clamp (r.1.fieldValue f)) } f (f.clamp (r.1.fieldValue f))
      exact (engineByte_congr rfl rfl rfl rfl rfl rfl rfl rfl rfl rfl rfl rfl rfl rfl).trans
        (h1.trans (engineByte_congr rfl rfl rfl rfl rfl rfl rfl rfl rfl rfl rfl rfl rfl rfl))

theorem shows_loadDefault (fs : List SetupField) (r : Engine × List Post) (e : Engine) (h : Shows e r.2 r.1) :
    Shows e (fs.foldl loadDefault r).2 (fs.foldl loadDefault r).1 := by
  induction fs generalizing r with
  | nil => exact h
  | cons f fs ih =>
    refine ih _ ?_
    unfold loadDefault
    simp only
    refine (h.trans (shows_foreign r.1 _ (setupPosts_foreign r.1 f _))).hidden ?_
    exact (shows_setField _ _ _).trans (engineByte_congr rfl rfl rfl rfl rfl rfl rfl rfl rfl rfl rfl rfl rfl rfl)

theorem shows_setupLoad (e : Engine) (bytes : List Byte) : Shows e (e.setupLoad bytes).2 (e.setupLoad bytes).1 := by
  have h0 : Shows e [] { e with copies := fillCopies bytes } :=
    shows_hidden rfl rfl rfl rfl rfl rfl rfl rfl rfl rfl rfl rfl rfl rfl
  have h1 := shows_loadDefault valueFields ({ e with copies := fillCopies bytes }, []) e h0
  have h2 := shows_loadStored valueFields ({ e with copies := fillCopies bytes }, []) e h0
  unfold Engine.setupLoad
  simp only
  generalize valueFields.foldl loadDefault ({ e with copies := fillCopies bytes }, []) = r at h1 ⊢
  split
  · exact h2
  · have h3 : ∀ p ∈ ([{ off := 0, val := Config.setupValid }] : List Post), engineByte r.1 p.off = none := by
      intro p hp
      rw [List.mem_singleton.1 hp]
      exact engineByte_setup _ 0 (by decide)
    exact (h1.trans (shows_foreign r.1 _ h3)).hidden (engineByte_setCopy r.1 0 Config.setupValid)

theorem shows_tailWrite (e : Engine) (high : Byte) : Shows e (e.tailWrite high).2 (e.tailWrite high).1 := by
  have ht : ∀ (e : Engine) (n : Nat), ∀ p ∈ postsAt tailOff (leBytes n 2), engineByte e p.off = none := by
    intro e n p hp
    have := mem_postsAt _ _ p hp
    rw [leBytes_length] at this
    simp only [tailOff] at this
    have g : ¬ p.off < 0x104 ∧ ¬ p.off < 0x106 ∧ ¬ p.off < 0x108 ∧ p.off < 0x10A ∧ ¬ p.off < 0x100 ∧ p.off < 0x200 := by omega
    simp [engineByte, statusByte, g]
  have ho : ∀ (e : Engine) (j : Journal), e.journal.head = j.head → j.overrun = false →
      Shows e [{ off := overrunOff, val := 0 }] { e with journal := j } := by
    intro e j h1 h2
    refine shows_one rfl rfl (by simp [overrunOff]) ?_ ?_
    · simp [statusByte, overrunOff, h2, boolByte]
    · intro off h
      simp only [overrunOff] at h
      simp [statusByte, h, Engine.group, h1]
  have hh : ∀ (e : Engine) (j : Journal), e.journal.head = j.head → e.journal.overrun = j.overrun →
      Shows e [] { e with journal := j } := by
    intro e j h1 h2
    exact shows_hidden rfl rfl rfl rfl h1.symm h2.symm rfl rfl rfl rfl rfl rfl rfl rfl
  unfold Engine.tailWrite
  simp only
  split <;> split
  · exact ho e _ rfl rfl
  · exact hh e _ rfl rfl
  · exact (shows_foreign e _ (ht e _)).trans (ho e _ rfl rfl)
  · exact (shows_foreign e _ (ht e _)).hidden (engineByte_congr rfl rfl rfl rfl rfl rfl rfl rfl rfl rfl rfl rfl rfl rfl)

theorem postsAt_append (b : Nat) (xs ys : List Byte) : postsAt b (xs ++ ys) = postsAt b xs ++ postsAt (b + xs.length) ys := by
  induction xs generalizing b with
  | nil => rfl
  | cons x xs ih => simp [postsAt, ih, Nat.add_assoc, Nat.add_comm 1]

theorem shows_entryFields (e : Engine) (i : SlotId) (t r : Nat) :
    Shows e (postsAt (slotOff i 8) (leBytes t 4 ++ leBytes r 4))
      (e.onSlot i fun x => { x with entryTime := t, rank := r }) := by
  rw [postsAt_append, leBytes_length]
  have h1 : Shows e (postsAt (slotOff i 8) (leBytes t 4)) (e.onSlot i fun x => { x with entryTime := t }) := by
    refine shows_slotField e i _ 8 4 t (by decide) ?_ ?_
    · intro j h1 h2
      have g : ¬ j = 0 ∧ ¬ j = 1 ∧ ¬ j = 2 ∧ ¬ j = 3 ∧ ¬ j < 6 ∧ ¬ j < 8 ∧ j < 12 := by omega
      simp [Slot.byteAt, g]
    · intro j _ h2
      by_cases g : j < 8
      · simp [Slot.byteAt, g]
      · have g2 : ¬ j < 12 := by omega
        simp [Slot.byteAt, g, g2]
  have h2 : ∀ e : Engine, Shows e (postsAt (slotOff i 12) (leBytes r 4)) (e.onSlot i fun x => { x with rank := r }) := by
    intro e
    refine shows_slotField e i _ 12 4 r (by decide) ?_ ?_
    · intro j h1 h2
      have g : ¬ j = 0 ∧ ¬ j = 1 ∧ ¬ j = 2 ∧ ¬ j = 3 ∧ ¬ j < 6 ∧ ¬ j < 8 ∧ ¬ j < 12 ∧ j < 16 := by omega
      simp [Slot.byteAt, g]
    · intro j _ h2
      by_cases g : j < 12
      · simp [Slot.byteAt, g]
      · have g2 : ¬ j < 16 := by omega
        simp [Slot.byteAt, g, g2]
  have h3 := h1.trans (h2 _)
  have he : (e.onSlot i fun x => { x with entryTime := t }).onSlot i (fun x => { x with rank := r })
      = e.onSlot i fun x => { x with entryTime := t, rank := r } := by
    simp [Engine.onSlot_eq]
  rw [he] at h3
  exact h3

/-- Every change of an engine-owned byte is posted with its new value, and nothing else is posted there; the sweep alone posts
what it posts whatever the engine holds. -/
theorem shows_effect (a : Act) (h : a ≠ .sweep) (e : Engine) : Shows e (a.effect e).2 (a.effect e).1 := by
  cases a with
  | sweep => exact absurd rfl h
  | slotState i st =>
    exact shows_slotOne e i _ 0 _ (by decide) rfl (by intro j _ hj; simp [Slot.byteAt, hj])
  | flag i f b => exact shows_putFlag e i f b
  | timer i t => exact shows_slotHidden e i _ (by intro j _; rfl)
  | deadline i n =>
    refine shows_slotField e i _ 16 4 n (by decide) ?_ ?_
    · intro j h1 h2
      have g : ¬ j = 0 ∧ ¬ j = 1 ∧ ¬ j = 2 ∧ ¬ j = 3 ∧ ¬ j < 6 ∧ ¬ j < 8 ∧ ¬ j < 12 ∧ ¬ j < 16 ∧ j < 20 := by omega
      simp [Slot.byteAt, g]
    · intro j _ h2
      by_cases g : j < 16
      · simp [Slot.byteAt, g]
      · have g2 : ¬ j < 20 := by omega
        simp [Slot.byteAt, g, g2]
  | dest i st => exact shows_slotOne e i _ 20 _ (by decide) rfl (by intro j _ hj; simp [Slot.byteAt, hj])
  | leg i l => exact shows_slotOne e i _ 21 _ (by decide) rfl (by intro j _ hj; simp [Slot.byteAt, hj])
  | outcome i o => exact shows_slotOne e i _ 22 _ (by decide) rfl (by intro j _ hj; simp [Slot.byteAt, hj])
  | recalls i n =>
    refine shows_slotOne e i _ 23 _ (by decide) rfl ?_
    intro j hj hne
    have g : j ≤ 22 := by omega
    unfold Slot.byteAt
    by_cases g2 : j < 20
    · simp [g2]
    · rcases (show j = 20 ∨ j = 21 ∨ j = 22 by omega) with rfl | rfl | rfl <;> rfl
  | entryFields i t r => exact shows_entryFields e i t r
  | request i r => exact shows_slotHidden e i _ (by intro j _; rfl)
  | requestNone i =>
    refine shows_foreign e _ ?_
    intro p hp
    rw [List.mem_singleton.1 hp]
    have hi := i.isLt
    have g : ¬ slotOff i 24 < 0x100 ∧ ¬ slotOff i 24 < 0x200 ∧ ¬ slotOff i 24 < 0x300 ∧ ¬ slotOff i 24 < 0x800
      ∧ slotOff i 24 < 0x1000 ∧ ¬ (slotOff i 24 - 0x800) % 32 < 24 := by simp only [slotOff]; omega
    simp [engineByte, g]
  | returnState i r => exact shows_slotHidden e i _ (by intro j _; rfl)
  | keep i k => exact shows_slotHidden e i _ (by intro j _; rfl)
  | allocate i ref g c tag t r =>
    exact (shows_record e i _).hidden (engineByte_congr rfl rfl rfl rfl rfl rfl rfl rfl rfl rfl rfl rfl rfl rfl)
  | free i => exact shows_free e i
  | figures =>
    refine shows_figures e _ _ ?_ ?_
    · intro p hp; exact (List.mem_filter.1 hp).1
    · intro p hp
      by_cases hc : p ∈ e.figures.posts
      · exact .inr hc
      · exact .inl (List.mem_filter.2 ⟨hp, by simpa using hc⟩)
  | allFigures => exact shows_figures e _ _ (fun p hp => hp) (fun p hp => .inl hp)
  | sample g w =>
    rw [effect_sample]
    simp only
    split
    · exact Shows.refl e
    · exact shows_estimate e g _
  | mode m =>
    refine shows_one rfl rfl (by simp [modeOff]) rfl ?_
    intro off h
    simp only [modeOff] at h
    simp [statusByte, h, Engine.group]
  | consoleRequest r =>
    cases r <;> exact shows_hidden rfl rfl rfl rfl rfl rfl rfl rfl rfl rfl rfl rfl rfl rfl
  | consoleOutcome o =>
    refine shows_one rfl rfl (by simp [consoleOutcomeOff]) rfl ?_
    intro off h
    simp only [consoleOutcomeOff] at h
    simp [statusByte, h, Engine.group]
  | answered o =>
    refine shows_one rfl rfl (by simp [answeredOff]) rfl ?_
    intro off h
    simp only [answeredOff] at h
    simp [statusByte, h, Engine.group]
  | consoleNone =>
    refine shows_foreign e _ ?_
    intro p hp
    rw [List.mem_singleton.1 hp]
    rfl
  | station st c => exact shows_station e st c
  | stationsUnknown => exact shows_stationsUnknown e
  | advanceTime =>
    rw [effect_advanceTime]
    simp only
    split
    · refine shows_field rfl rfl (by simp [timeOff]) ?_ ?_
      · intro off h1 h2
        simp only [timeOff] at h1 h2
        simp [statusByte, h2, timeOff]
      · intro off h1 h2
        have g : ¬ off < 0x104 := by simp only [timeOff] at h2; omega
        simp [statusByte, g, Engine.group]
    · exact shows_hidden rfl rfl rfl rfl rfl rfl rfl rfl rfl rfl rfl rfl rfl rfl
  | estimate g n => exact shows_estimate e g n
  | count g n => exact shows_count e g n
  | overflow g on => exact shows_overflow e g on
  | monitorReset => exact shows_resetGroups allGroups (by decide) e e fun _ _ => rfl
  | append i k p =>
    refine shows_one rfl rfl (by simp [orderLengthOff]) ?_ ?_
    · simp [statusByte, orderLengthOff]
    · intro off h
      simp only [orderLengthOff] at h
      simp [statusByte, h, Engine.group]
  | removeOrder i => exact shows_removeOrder e i
  | idleTest => exact shows_idleTest e
  | linkState l => exact shows_linkState e _ _ rfl
  | answering st =>
    rw [effect_answering]
    by_cases h : e.link.strobe.isSome = true
    · rw [if_pos h]
      exact shows_link e _ (by rw [Link.answering_state, if_pos h])
    · rw [if_neg h]
      exact shows_linkState e _ _ (by rw [Link.answering_state, if_neg h])
  | beginReceiving => exact shows_linkState e _ _ (Link.beginReceiving_state _)
  | beginSending => exact shows_linkState e _ _ rfl
  | awaitStatus => exact shows_linkState e _ _ (Link.awaitsByte_state _)
  | line m => exact shows_link e _ (Link.handles_state _ _)
  | endExchange =>
    refine shows_one rfl rfl (by simp [orderLengthOff]) rfl ?_
    intro off h
    simp only [orderLengthOff] at h
    simp [statusByte, h, Engine.group, Link.rxEmpty]
  | linkReset =>
    refine Shows.trans (e' := { e with orders := [] }) (ps := [_]) (qs := [_]) ?_ ?_
    · refine shows_one rfl rfl (by simp [orderLengthOff]) rfl ?_
      intro off h
      simp only [orderLengthOff] at h
      simp [statusByte, h, Engine.group]
    · exact shows_linkState { e with orders := [] } (fun l => { l.rxEmpty with
        state := .resetting, scc := false, tx := [], attempts := 0, inExchange := false, resetDue := none }) .resetting rfl
  | journal k sl a b => exact shows_append e k sl a b
  | latch c => exact shows_latch e c
  | clearCauses m =>
    refine shows_field rfl rfl (by simp [causeOff]) ?_ ?_
    · intro off h1 h2
      simp only [causeOff] at h1 h2
      have g : ¬ off < 0x104 := by omega
      simp [-BitVec.toNat_and, -BitVec.toNat_not, statusByte, g, h2, causeOff]
    · intro off h1 h2
      simp only [causeOff] at h2
      exact statusByte_causes e _ off rfl (by omega)
  | dropped b =>
    refine shows_one rfl rfl (by simp [droppedOff]) rfl ?_
    intro off h
    simp only [droppedOff] at h
    simp [statusByte, h, Engine.group]
  | tailWrite b => exact shows_tailWrite e b
  | setupCopy off b => exact (Shows.refl e).hidden (engineByte_setCopy e off b)
  | setupPost f v => exact (shows_foreign e _ (setupPosts_foreign e f v)).hidden (shows_setField e f v)
  | setupLoad bytes => exact shows_setupLoad e bytes
  | _ => exact shows_hidden rfl rfl rfl rfl rfl rfl rfl rfl rfl rfl rfl rfl rfl rfl

end Sys2Proof.Machine
end

