-- ==== Sys2Proof/Laws/Ran.lean ====
section
/-!
SUPPORT. The posts of an event that are not into the engine's bytes, and what an event that finds room has changed (`Ran`).
-/
namespace Sys2Proof.Machine

/-- The posts into the tail bytes that a tail write makes (R167). -/
def tailPosts (e : Engine) (high : Byte) : List Post :=
  if e.journal.withinSpan (high.toNat * 256 + e.journal.lowCopy.toNat) then []
  else postsAt tailOff (leBytes e.journal.head 2)

/-- The posts of an act that are not into the engine's bytes. -/
def Act.foreign : Act → Engine → List Post
  | .slotState _ _, _ => []
  | .flag _ _ _, _ => []
  | .timer _ _, _ => []
  | .deadline _ _, _ => []
  | .dest _ _, _ => []
  | .leg _ _, _ => []
  | .outcome _ _, _ => []
  | .recalls _ _, _ => []
  | .entryFields _ _ _, _ => []
  | .request _ _, _ => []
  | .requestNone i, _ => [{ off := slotOff i 24, val := 0 }]
  | .returnState _ _, _ => []
  | .keep _ _, _ => []
  | .allocate _ _ _ _ _ _ _, _ => []
  | .free _, _ => []
  | .talkPath _, _ => []
  | .enqueue _, _ => []
  | .dequeue _, _ => []
  | .figures, _ => []
  | .allFigures, _ => []
  | .sample _ _, _ => []
  | .mode _, _ => []
  | .consoleRequest _, _ => []
  | .consoleOutcome _, _ => []
  | .answered _, _ => []
  | .consoleNone, _ => [{ off := consoleReqOff, val := 0 }]
  | .station _ _, _ => []
  | .stationsUnknown, _ => []
  | .campJoin _ _, _ => []
  | .campLeave _, _ => []
  | .advanceTime, _ => []
  | .testTimers, _ => []
  | .dueTaken, _ => []
  | .tickTaken, _ => []
  | .estimate _ _, _ => []
  | .count _ _, _ => []
  | .overflow _ _, _ => []
  | .monitorReset, _ => []
  | .append _ _ _, _ => []
  | .removeOrder _, _ => []
  | .idleTest, _ => []
  | .linkState _, _ => []
  | .scc _, _ => []
  | .scs _, _ => []
  | .linkUnit, _ => []
  | .line _, _ => []
  | .beginReceiving, _ => []
  | .beginSending, _ => []
  | .awaitStatus, _ => []
  | .txEnd, _ => []
  | .receive _ _, _ => []
  | .rxClear, _ => []
  | .abandon, _ => []
  | .answering _, _ => []
  | .endExchange, _ => []
  | .failAttempt, _ => []
  | .srstDrive _, _ => []
  | .srstRelease, _ => []
  | .srstSwitch _, _ => []
  | .linkReset, _ => []
  | .journal k sl a b, e => recordPosts e k sl a b
  | .latch _, _ => []
  | .clearCauses _, _ => []
  | .dropped _, _ => []
  | .tailLow _, _ => []
  | .tailWrite high, e => tailPosts e high
  | .setupCopy _ _, _ => []
  | .setupTake _ _, _ => []
  | .setupPost f v, _ => postsAt (f).off (leBytes v (f).width)
  | .setupLoad bytes, e => (e.setupLoad bytes).2
  | .sweep, _ => []
  | .startDividers, _ => []
  | .clampLatched, _ => []

@[simp] theorem foreign_slotState (i : SlotId) (st : SlotState) (e : Engine) : (Act.slotState i st).foreign e = [] := rfl
@[simp] theorem foreign_flag (i : SlotId) (f : FlagName) (b : Bool) (e : Engine) : (Act.flag i f b).foreign e = [] := rfl
@[simp] theorem foreign_timer (i : SlotId) (t : Timer) (e : Engine) : (Act.timer i t).foreign e = [] := rfl
@[simp] theorem foreign_deadline (i : SlotId) (n : Nat) (e : Engine) : (Act.deadline i n).foreign e = [] := rfl
@[simp] theorem foreign_dest (i : SlotId) (st : Byte) (e : Engine) : (Act.dest i st).foreign e = [] := rfl
@[simp] theorem foreign_leg (i : SlotId) (l : Leg) (e : Engine) : (Act.leg i l).foreign e = [] := rfl
@[simp] theorem foreign_outcome (i : SlotId) (o : ReqOutcome) (e : Engine) : (Act.outcome i o).foreign e = [] := rfl
@[simp] theorem foreign_recalls (i : SlotId) (n : Nat) (e : Engine) : (Act.recalls i n).foreign e = [] := rfl
@[simp] theorem foreign_entryFields (i : SlotId) (t : Nat) (r : Nat) (e : Engine) : (Act.entryFields i t r).foreign e = [] := rfl
@[simp] theorem foreign_request (i : SlotId) (r : Option Request) (e : Engine) : (Act.request i r).foreign e = [] := rfl
@[simp] theorem foreign_requestNone (i : SlotId) (e : Engine) : (Act.requestNone i).foreign e = [{ off := slotOff i 24, val := 0 }] := rfl
@[simp] theorem foreign_returnState (i : SlotId) (r : Option SlotState) (e : Engine) : (Act.returnState i r).foreign e = [] := rfl
@[simp] theorem foreign_keep (i : SlotId) (k : Option Entry) (e : Engine) : (Act.keep i k).foreign e = [] := rfl
@[simp] theorem foreign_allocate (i : SlotId) (ref : BitVec 16) (g : GroupId) (c : CallClass) (tag : BitVec 16) (t : Nat) (r : Nat) (e : Engine) : (Act.allocate i ref g c tag t r).foreign e = [] := rfl
@[simp] theorem foreign_free (i : SlotId) (e : Engine) : (Act.free i).foreign e = [] := rfl
@[simp] theorem foreign_talkPath (o : Option SlotId) (e : Engine) : (Act.talkPath o).foreign e = [] := rfl
@[simp] theorem foreign_enqueue (x : Entry) (e : Engine) : (Act.enqueue x).foreign e = [] := rfl
@[simp] theorem foreign_dequeue (i : SlotId) (e : Engine) : (Act.dequeue i).foreign e = [] := rfl
@[simp] theorem foreign_figures (e : Engine) : (Act.figures).foreign e = [] := rfl
@[simp] theorem foreign_allFigures (e : Engine) : (Act.allFigures).foreign e = [] := rfl
@[simp] theorem foreign_sample (g : GroupId) (w : Nat) (e : Engine) : (Act.sample g w).foreign e = [] := rfl
@[simp] theorem foreign_mode (m : Mode) (e : Engine) : (Act.mode m).foreign e = [] := rfl
@[simp] theorem foreign_consoleRequest (r : Option (ConsoleReq × Byte)) (e : Engine) : (Act.consoleRequest r).foreign e = [] := rfl
@[simp] theorem foreign_consoleOutcome (o : ReqOutcome) (e : Engine) : (Act.consoleOutcome o).foreign e = [] := rfl
@[simp] theorem foreign_answered (o : Option SlotId) (e : Engine) : (Act.answered o).foreign e = [] := rfl
@[simp] theorem foreign_consoleNone (e : Engine) : (Act.consoleNone).foreign e = [{ off := consoleReqOff, val := 0 }] := rfl
@[simp] theorem foreign_station (st : Byte) (c : Condition) (e : Engine) : (Act.station st c).foreign e = [] := rfl
@[simp] theorem foreign_stationsUnknown (e : Engine) : (Act.stationsUnknown).foreign e = [] := rfl
@[simp] theorem foreign_campJoin (st : Byte) (i : SlotId) (e : Engine) : (Act.campJoin st i).foreign e = [] := rfl
@[simp] theorem foreign_campLeave (i : SlotId) (e : Engine) : (Act.campLeave i).foreign e = [] := rfl
@[simp] theorem foreign_advanceTime (e : Engine) : (Act.advanceTime).foreign e = [] := rfl
@[simp] theorem foreign_testTimers (e : Engine) : (Act.testTimers).foreign e = [] := rfl
@[simp] theorem foreign_dueTaken (e : Engine) : (Act.dueTaken).foreign e = [] := rfl
@[simp] theorem foreign_tickTaken (e : Engine) : (Act.tickTaken).foreign e = [] := rfl
@[simp] theorem foreign_estimate (g : GroupId) (n : Nat) (e : Engine) : (Act.estimate g n).foreign e = [] := rfl
@[simp] theorem foreign_count (g : GroupId) (n : Nat) (e : Engine) : (Act.count g n).foreign e = [] := rfl
@[simp] theorem foreign_overflow (g : GroupId) (on : Bool) (e : Engine) : (Act.overflow g on).foreign e = [] := rfl
@[simp] theorem foreign_monitorReset (e : Engine) : (Act.monitorReset).foreign e = [] := rfl
@[simp] theorem foreign_append (i : SlotId) (k : OrderKind) (p : Purpose) (e : Engine) : (Act.append i k p).foreign e = [] := rfl
@[simp] theorem foreign_removeOrder (i : SlotId) (e : Engine) : (Act.removeOrder i).foreign e = [] := rfl
@[simp] theorem foreign_idleTest (e : Engine) : (Act.idleTest).foreign e = [] := rfl
@[simp] theorem foreign_linkState (l : LinkState) (e : Engine) : (Act.linkState l).foreign e = [] := rfl
@[simp] theorem foreign_scc (b : Bool) (e : Engine) : (Act.scc b).foreign e = [] := rfl
@[simp] theorem foreign_scs (b : Bool) (e : Engine) : (Act.scs b).foreign e = [] := rfl
@[simp] theorem foreign_linkUnit (e : Engine) : (Act.linkUnit).foreign e = [] := rfl
@[simp] theorem foreign_line (m : LineMove) (e : Engine) : (Act.line m).foreign e = [] := rfl
@[simp] theorem foreign_beginReceiving (e : Engine) : (Act.beginReceiving).foreign e = [] := rfl
@[simp] theorem foreign_awaitStatus (e : Engine) : (Act.awaitStatus).foreign e = [] := rfl
@[simp] theorem foreign_beginSending (e : Engine) : (Act.beginSending).foreign e = [] := rfl
@[simp] theorem foreign_txEnd (e : Engine) : (Act.txEnd).foreign e = [] := rfl
@[simp] theorem foreign_receive (fr : List LinkByte) (note : Bool) (e : Engine) : (Act.receive fr note).foreign e = [] := rfl
@[simp] theorem foreign_rxClear (e : Engine) : (Act.rxClear).foreign e = [] := rfl
@[simp] theorem foreign_abandon (e : Engine) : (Act.abandon).foreign e = [] := rfl
@[simp] theorem foreign_answering (st : Status) (e : Engine) : (Act.answering st).foreign e = [] := rfl
@[simp] theorem foreign_endExchange (e : Engine) : (Act.endExchange).foreign e = [] := rfl
@[simp] theorem foreign_failAttempt (e : Engine) : (Act.failAttempt).foreign e = [] := rfl
@[simp] theorem foreign_srstDrive (c : ResetCause) (e : Engine) : (Act.srstDrive c).foreign e = [] := rfl
@[simp] theorem foreign_srstRelease (e : Engine) : (Act.srstRelease).foreign e = [] := rfl
@[simp] theorem foreign_srstSwitch (b : Bool) (e : Engine) : (Act.srstSwitch b).foreign e = [] := rfl
@[simp] theorem foreign_linkReset (e : Engine) : (Act.linkReset).foreign e = [] := rfl
@[simp] theorem foreign_journal (k : JournalKind) (sl : Byte) (a : Byte) (b : Byte) (e : Engine) : (Act.journal k sl a b).foreign e = recordPosts e k sl a b := rfl
@[simp] theorem foreign_latch (c : Cause) (e : Engine) : (Act.latch c).foreign e = [] := rfl
@[simp] theorem foreign_clearCauses (m : BitVec 16) (e : Engine) : (Act.clearCauses m).foreign e = [] := rfl
@[simp] theorem foreign_dropped (b : Byte) (e : Engine) : (Act.dropped b).foreign e = [] := rfl
@[simp] theorem foreign_tailLow (b : Byte) (e : Engine) : (Act.tailLow b).foreign e = [] := rfl
@[simp] theorem foreign_tailWrite (high : Byte) (e : Engine) : (Act.tailWrite high).foreign e = tailPosts e high := rfl
@[simp] theorem foreign_setupCopy (off : Nat) (b : Byte) (e : Engine) : (Act.setupCopy off b).foreign e = [] := rfl
@[simp] theorem foreign_setupTake (f : SetupField) (v : Nat) (e : Engine) : (Act.setupTake f v).foreign e = [] := rfl
@[simp] theorem foreign_setupPost (f : SetupField) (v : Nat) (e : Engine) : (Act.setupPost f v).foreign e = postsAt (f).off (leBytes v (f).width) := rfl
@[simp] theorem foreign_setupLoad (bytes : List Byte) (e : Engine) : (Act.setupLoad bytes).foreign e = (e.setupLoad bytes).2 := rfl
@[simp] theorem foreign_sweep (e : Engine) : (Act.sweep).foreign e = [] := rfl
@[simp] theorem foreign_startDividers (e : Engine) : (Act.startDividers).foreign e = [] := rfl
@[simp] theorem foreign_clampLatched (e : Engine) : (Act.clampLatched).foreign e = [] := rfl

/-- The engine-owned offsets outside the journal ring. -/
def engineOwned (off : Nat) : Prop :=
  (0x100 ≤ off ∧ off < 0x108) ∨ off = 0x10A ∨ off = 0x10B ∨ (0x10E ≤ off ∧ off < 0x115) ∨ (0x120 ≤ off ∧ off < 0x150)
    ∨ (0x200 ≤ off ∧ off < 0x300) ∨ (0x800 ≤ off ∧ off < 0x1000 ∧ (off - 0x800) % 32 < 24)

theorem ite_none {α : Type} (c : Prop) [Decidable c] (x y : Option α) (P : Prop) (hx : c → (x = none ↔ P))
    (hy : ¬ c → (y = none ↔ P)) : (if c then x else y) = none ↔ P := by
  by_cases h : c
  · rw [if_pos h]; exact hx h
  · rw [if_neg h]; exact hy h

theorem engineByte_none (e : Engine) (off : Nat) : engineByte e off = none ↔ ¬ engineOwned off := by
  unfold engineByte statusByte
  repeat' refine ite_none _ _ _ _ (fun h => ?_) (fun h => ?_)
  all_goals first
    | (refine iff_of_true rfl ?_; unfold engineOwned; omega)
    | (refine iff_of_false (fun h => by cases h) ?_; unfold engineOwned; omega)

/-- No post of the list is into a byte that is not the engine's. -/
def ownPosts (ps : List Post) : Prop := ∀ p ∈ ps, engineOwned p.off

theorem lastPost_own {ps : List Post} (h : ownPosts ps) {off : Nat} (ho : ¬ engineOwned off) : lastPost ps off = none :=
  lastPost_none ps off fun p hp hc => ho (hc ▸ h p hp)

theorem ownPosts_nil : ownPosts [] := by intro p hp; cases hp

theorem ownPosts_append {ps qs : List Post} (h1 : ownPosts ps) (h2 : ownPosts qs) : ownPosts (ps ++ qs) := by
  intro p hp
  rcases List.mem_append.1 hp with hp | hp
  · exact h1 p hp
  · exact h2 p hp

theorem ownPosts_one {off : Nat} {v : Byte} (h : engineOwned off) : ownPosts [{ off := off, val := v }] := by
  intro p hp; rw [List.mem_singleton.1 hp]; exact h

theorem ownPosts_postsAt {b : Nat} {bs : List Byte} (h : ∀ off, b ≤ off → off < b + bs.length → engineOwned off) :
    ownPosts (postsAt b bs) := fun p hp => h _ (mem_postsAt b bs p hp).1 (mem_postsAt b bs p hp).2

theorem owned_answeredOff : engineOwned answeredOff := by unfold engineOwned answeredOff; decide
theorem owned_causeOff : engineOwned causeOff := by unfold engineOwned causeOff; decide
theorem owned_causeHigh : engineOwned (causeOff + 1) := by unfold engineOwned causeOff; decide
theorem owned_consoleOutcomeOff : engineOwned consoleOutcomeOff := by unfold engineOwned consoleOutcomeOff; decide
theorem owned_droppedOff : engineOwned droppedOff := by unfold engineOwned droppedOff; decide
theorem owned_linkStateOff : engineOwned linkStateOff := by unfold engineOwned linkStateOff; decide
theorem owned_modeOff : engineOwned modeOff := by unfold engineOwned modeOff; decide
theorem owned_orderLengthOff : engineOwned orderLengthOff := by unfold engineOwned orderLengthOff; decide
theorem owned_overrunOff : engineOwned overrunOff := by unfold engineOwned overrunOff; decide

theorem engineOwned_slot (i : SlotId) (k : Nat) (hk : k < 24) : engineOwned (slotOff i k) := by
  have := i.isLt
  simp only [engineOwned, slotOff]; omega

theorem ownPosts_slotOne (i : SlotId) (k : Nat) (v : Byte) (hk : k < 24) : ownPosts [{ off := slotOff i k, val := v }] :=
  ownPosts_one (engineOwned_slot i k hk)

theorem ownPosts_slotAt (i : SlotId) (k : Nat) (bs : List Byte) (hk : k + bs.length ≤ 24) :
    ownPosts (postsAt (slotOff i k) bs) := by
  have := i.isLt
  refine ownPosts_postsAt fun off h1 h2 => ?_
  simp only [engineOwned, slotOff] at *; omega

theorem own_latch (e : Engine) (c : Cause) : ownPosts (e.latch c).2 := by
  unfold Engine.latch
  split
  · simp only; split
    · exact ownPosts_one owned_causeOff
    · exact ownPosts_one owned_causeHigh
  · exact ownPosts_nil

theorem own_removeOrder (e : Engine) (i : SlotId) : ownPosts (e.removeOrder i).2 := by
  unfold Engine.removeOrder
  simp only
  split
  · exact ownPosts_nil
  · exact ownPosts_one owned_orderLengthOff

theorem own_linkState (v : Byte) : ownPosts [{ off := linkStateOff, val := v }] :=
  ownPosts_one owned_linkStateOff

theorem own_free (e : Engine) (i : SlotId) : ownPosts (e.free i).2 := by
  unfold Engine.free
  simp only
  refine ownPosts_append (ownPosts_append (ownPosts_append (ownPosts_append (own_removeOrder e i) ?_)
    (ownPosts_slotAt i 4 _ (by decide))) (ownPosts_slotAt i 16 _ (by decide))) (ownPosts_slotOne i 21 _ (by decide))
  exact ownPosts_append (ps := [_]) (qs := [_]) (ownPosts_slotOne i 0 _ (by decide)) (ownPosts_slotOne i 1 _ (by decide))

theorem own_idleTest (e : Engine) : ownPosts e.idleTest.2 := by
  unfold Engine.idleTest
  split
  · split
    · exact own_linkState _
    · split
      · exact own_linkState _
      · exact ownPosts_nil
  · exact ownPosts_nil

theorem own_figures (f : Figures) : ownPosts f.posts := by
  intro p hp
  have := (mem_figures f p).1 hp
  unfold figureByte at this
  unfold engineOwned
  repeat' split at this
  all_goals first | omega | cases this

theorem own_estimate (g : GroupId) (n : Nat) : ownPosts (postsAt (estimateOff g) (leBytes n 2)) := by
  have := g.isLt
  refine ownPosts_postsAt fun off h1 h2 => ?_
  rw [leBytes_length] at h2
  simp only [engineOwned, estimateOff] at *; omega

theorem own_count (g : GroupId) (v : Byte) : ownPosts [{ off := durationOff g, val := v }] := by
  have := g.isLt
  exact ownPosts_one (by simp only [engineOwned, durationOff]; omega)

theorem own_overflow (g : GroupId) (v : Byte) : ownPosts [{ off := overflowOff g, val := v }] := by
  have := g.isLt
  exact ownPosts_one (by simp only [engineOwned, overflowOff]; omega)

theorem own_resetGroups (e : Engine) (l : List GroupId) : ownPosts (l.flatMap fun g => monitorResetPosts (e.group g) g) := by
  induction l with
  | nil => exact ownPosts_nil
  | cons g l ih =>
    refine ownPosts_append ?_ ih
    show ownPosts (monitorResetPosts (e.group g) g)
    unfold monitorResetPosts
    split
    · exact ownPosts_append (ps := [_]) (qs := [_]) (own_count g _) (own_overflow g _)
    · exact ownPosts_nil

/-- At a byte that is not the engine's, an act posts what `Act.foreign` says. -/
theorem lastPost_foreign (a : Act) (h : a ≠ .sweep) (e : Engine) (off : Nat) (ho : ¬ engineOwned off) :
    lastPost (a.effect e).2 off = lastPost (a.foreign e) off := by
  cases a with
  | sweep => exact absurd rfl h
  | requestNone i => rfl
  | consoleNone => rfl
  | setupPost f v => rfl
  | setupLoad bytes => rfl
  | journal k sl a b =>
    rw [effect_journal, foreign_journal]
    unfold Engine.append recordPosts
    have hh : ∀ n, ownPosts (postsAt headOff (leBytes n 2)) := by
      intro n
      refine ownPosts_postsAt fun off h1 h2 => ?_
      rw [leBytes_length] at h2
      simp only [engineOwned, headOff] at *; omega
    split
    · simp only
      split
      · rw [lastPost_append, lastPost_append, lastPost_own (own_latch _ _) ho, lastPost_own (hh _) ho]; rfl
      · rw [lastPost_append, lastPost_own (hh _) ho]; rfl
    · simp only
      rw [lastPost_append, lastPost_own (own_latch _ _) ho]
      split
      · rfl
      · rw [lastPost_own (ownPosts_one owned_overrunOff) ho]; rfl
  | tailWrite b =>
    rw [effect_tailWrite, foreign_tailWrite]
    unfold Engine.tailWrite tailPosts
    have h1 : ∀ v, lastPost [{ off := overrunOff, val := v }] off = none := fun v =>
      lastPost_own (ownPosts_one owned_overrunOff) ho
    simp only
    split <;> split <;> simp [lastPost_append, h1]
  | flag i f b =>
    rw [effect_flag, foreign_flag]
    unfold Engine.putFlag
    simp only
    split
    · rfl
    · exact lastPost_own (ownPosts_slotOne i 1 _ (by decide)) ho
  | slotState i st => exact lastPost_own (ownPosts_slotOne i 0 _ (by decide)) ho
  | deadline i n => exact lastPost_own (ownPosts_slotAt i 16 _ (by simp [leBytes_length])) ho
  | dest i st => exact lastPost_own (ownPosts_slotOne i 20 _ (by decide)) ho
  | leg i l => exact lastPost_own (ownPosts_slotOne i 21 _ (by decide)) ho
  | outcome i o => exact lastPost_own (ownPosts_slotOne i 22 _ (by decide)) ho
  | recalls i n => exact lastPost_own (ownPosts_slotOne i 23 _ (by decide)) ho
  | entryFields i t r => exact lastPost_own (ownPosts_slotAt i 8 _ (by simp [leBytes_length])) ho
  | allocate i ref g c tag t r =>
    exact lastPost_own (ownPosts_slotAt i 0 _ (by simp [Slot.record, leBytes_length])) ho
  | free i => exact lastPost_own (own_free e i) ho
  | figures =>
    refine lastPost_own (ps := (figuresOf e.queue).posts.filter fun p => !e.figures.posts.contains p) ?_ ho
    exact fun p hp => own_figures _ p (List.mem_filter.1 hp).1
  | allFigures => exact lastPost_own (own_figures _) ho
  | sample g w =>
    rw [effect_sample, foreign_sample]
    simp only
    split
    · rfl
    · exact lastPost_own (own_estimate g _) ho
  | mode m => exact lastPost_own (ownPosts_one owned_modeOff) ho
  | consoleOutcome o => exact lastPost_own (ownPosts_one owned_consoleOutcomeOff) ho
  | answered o => exact lastPost_own (ownPosts_one owned_answeredOff) ho
  | station st c =>
    have := st.isLt
    exact lastPost_own (ownPosts_one (by simp only [engineOwned, stationOff]; omega)) ho
  | stationsUnknown =>
    refine lastPost_own (ownPosts_postsAt fun off h1 h2 => ?_) ho
    rw [List.length_replicate] at h2
    have h0 : stationOff 0 = 0x200 := rfl
    rw [h0] at h1 h2
    simp only [engineOwned]; omega
  | advanceTime =>
    rw [effect_advanceTime, foreign_advanceTime]
    simp only
    split
    · refine lastPost_own (ownPosts_postsAt fun off h1 h2 => ?_) ho
      rw [leBytes_length] at h2
      simp only [engineOwned, timeOff] at *; omega
    · rfl
  | estimate g n => exact lastPost_own (own_estimate g _) ho
  | count g n => exact lastPost_own (own_count g _) ho
  | overflow g on => exact lastPost_own (own_overflow g _) ho
  | monitorReset => exact lastPost_own (own_resetGroups e allGroups) ho
  | append i k p => exact lastPost_own (ownPosts_one owned_orderLengthOff) ho
  | removeOrder i => exact lastPost_own (own_removeOrder e i) ho
  | idleTest => exact lastPost_own (own_idleTest e) ho
  | linkState l => exact lastPost_own (own_linkState _) ho
  | beginReceiving => exact lastPost_own (own_linkState _) ho
  | beginSending => exact lastPost_own (own_linkState _) ho
  | awaitStatus => exact lastPost_own (own_linkState _) ho
  | answering st =>
    rw [effect_answering, foreign_answering]
    simp only
    split
    · rfl
    · exact lastPost_own (own_linkState _) ho
  | endExchange => exact lastPost_own (ownPosts_one owned_orderLengthOff) ho
  | linkReset =>
    exact lastPost_own (ownPosts_append (ps := [_]) (qs := [_])
      (ownPosts_one owned_orderLengthOff) (own_linkState _)) ho
  | latch c => exact lastPost_own (own_latch e c) ho
  | clearCauses m =>
    refine lastPost_own (ownPosts_postsAt fun off h1 h2 => ?_) ho
    rw [leBytes_length] at h2
    simp only [engineOwned, causeOff] at *; omega
  | dropped b => exact lastPost_own (ownPosts_one owned_droppedOff) ho
  | _ => rfl

/-! ### Events -/

/-- The posts of a list of acts that are not into the engine's bytes. -/
def foreignOf : List Act → Engine → List Post
  | [], _ => []
  | a :: as, e => a.foreign e ++ foreignOf as (a.effect e).1

theorem lastPost_foreignOf (as : List Act) (h : Act.sweep ∉ as) (e : Engine) (off : Nat) (ho : ¬ engineOwned off) :
    lastPost (applyActs as e).2 off = lastPost (foreignOf as e) off := by
  induction as generalizing e with
  | nil => rfl
  | cons a as ih =>
    rw [applyActs_cons, foreignOf, lastPost_append, lastPost_append,
      lastPost_foreign a (fun hc => h (hc ▸ List.mem_cons_self ..)) e off ho,
      ih (fun hc => h (List.mem_cons_of_mem _ hc))]

theorem shows_applyActs (as : List Act) (h : Act.sweep ∉ as) (e : Engine) : Shows e (applyActs as e).2 (applyActs as e).1 := by
  induction as generalizing e with
  | nil => exact Shows.refl e
  | cons a as ih =>
    rw [applyActs_cons]
    exact (shows_effect a (fun hc => h (hc ▸ List.mem_cons_self ..)) e).trans (ih (fun hc => h (List.mem_cons_of_mem _ hc)) _)

/-- What an event that finds room has changed. -/
theorem ran_applyActs (as : List Act) (h : Act.sweep ∉ as) (s : State) (hd : (s.posts.map (·.off)).Nodup) (others : List Post)
    (hf : foreignOf as s.eng = others) : Ran s (applyActs as s.eng).1 others (s.after (applyActs as s.eng)) := by
  have hs := shows_applyActs as h s.eng
  have hr := readOff_postAll s hd (applyActs as s.eng).2
  refine ⟨?_, fun off hoff => ?_, fun off b hb => ?_, settledRead_postAll s _⟩
  · unfold State.after
    rw [frame_postAll]
  · have ho : ¬ engineOwned off := (engineByte_none _ off).1 hoff
    rw [← hf, ← lastPost_foreignOf as h s.eng off ho]
    exact hr off
  · rw [hs off] at hb
    cases hb' : engineByte s.eng off with
    | none => rw [hb'] at hb; cases hb
    | some w =>
      rw [hb'] at hb
      cases hl : lastPost (applyActs as s.eng).2 off with
      | none => exact .inr ⟨(hr off).trans (by rw [hl]; rfl), by rw [hl] at hb; exact hb⟩
      | some v => exact .inl ((hr off).trans (by rw [hl] at hb ⊢; simpa using hb))

end Sys2Proof.Machine
end

