-- ==== Sys2Proof/Laws/Completes.lean ====
section
/-!
SUPPORT. What the shared engine operations leave, each as one record (`idleTest_eq`, `latch_eq`, `append_eq`, …), and the lemmas
that turn a command at a quiet part with room into `Completes`.
-/
namespace Sys2Proof.Machine

/-! ### Engine operations as records -/

theorem idleTest_eq (e : Engine) : e.idleTest.1 = { e with link := e.link.tested e.orders } := by
  unfold Engine.idleTest Link.tested
  by_cases h1 : e.link.state = .idle
  · rw [if_pos h1, if_pos h1]
    by_cases h2 : e.link.scs = true
    · rw [if_pos h2, if_pos h2]
      simp only [Engine.entersState, Engine.onLink, Link.beginReceiving_eq]
    · by_cases h3 : e.orders ≠ [] ∧ e.link.srst = false
      · have h4 : (!e.orders.isEmpty && !e.link.srst) = true := by simpa using h3
        rw [if_neg h2, if_neg h2, if_pos h4, if_pos h3]; rfl
      · have h4 : (!e.orders.isEmpty && !e.link.srst) = false := by
          cases h5 : (!e.orders.isEmpty && !e.link.srst) with
          | false => rfl
          | true => exact absurd (by simpa using h5) h3
        rw [if_neg h2, if_neg h2, if_neg (by rw [h4]; decide), if_neg h3]
  · rw [if_neg h1, if_neg h1]

theorem mask_and (c : Cause) (w : BitVec 16) : w &&& c.mask = 0 ∨ w ||| c.mask = w := by
  have h : ∀ k : Nat, w &&& BitVec.twoPow 16 k = 0 ∨ w ||| BitVec.twoPow 16 k = w := by
    intro k
    rw [BitVec.and_twoPow]
    cases hk : w.getLsbD k with
    | false => left; simp
    | true =>
      right
      ext j hj
      simp only [BitVec.getElem_or, BitVec.getElem_twoPow]
      by_cases hjk : j = k
      · subst hjk
        rw [BitVec.getLsbD_eq_getElem hj] at hk
        simp [hk]
      · simp [hjk]
  have hm : c.mask = BitVec.twoPow 16 c.bit := by cases c <;> rfl
  rw [hm]; exact h _

theorem latch_eq (e : Engine) (c : Cause) : (e.latch c).1 = { e with causes := e.causes ||| c.mask } := by
  unfold Engine.latch
  split
  · rfl
  · rename_i h
    rw [(mask_and c e.causes).resolve_left h]

theorem append_eq (e : Engine) (k : JournalKind) (sl a b : Byte) :
    (e.append k sl a b).1 =
      { e with journal := e.journal.appended, causes := e.causes ||| e.journal.appendCauses e.setup.watermark } := by
  unfold Engine.append Journal.appendCauses
  by_cases h : e.journal.unread < 511
  · have h' : e.journal.unread < Config.ringSize - 1 := h
    have ha : e.journal.appended = { e.journal with head := (e.journal.head + 1) % 512 } := if_pos h
    simp only [h, h', if_true, ha]
    by_cases h2 : ({ e.journal with head := (e.journal.head + 1) % 512 } : Journal).unread = e.setup.watermark
    · have h3 : (e.onJournal fun j => { j with head := (e.journal.head + 1) % Config.ringSize }).journal.unread
          = e.setup.watermark := h2
      rw [if_pos h3, if_pos h2]; exact latch_eq _ _
    · have h3 : ¬ (e.onJournal fun j => { j with head := (e.journal.head + 1) % Config.ringSize }).journal.unread
          = e.setup.watermark := h2
      rw [if_neg h3, if_neg h2]
      have h0 : e.causes ||| (0 : BitVec 16) = e.causes := BitVec.or_zero
      rw [h0]; rfl
  · have h' : ¬ e.journal.unread < Config.ringSize - 1 := h
    have ha : e.journal.appended = { e.journal with overrun := true } := if_neg h
    simp only [h, h', if_false, ha]
    exact latch_eq _ _

theorem onSlot_self (e : Engine) (i : SlotId) (f : Slot → Slot) (h : f (e.slot i) = e.slot i) : e.onSlot i f = e := by
  unfold Engine.onSlot Engine.setSlot
  rw [h]
  simp only [Engine.slot, Fin.getElem_fin, Vector.set_getElem_self]

theorem putFlag_eq (e : Engine) (i : SlotId) (f : FlagName) (b : Bool) :
    (e.putFlag i f b).1 = e.onSlot i fun x => { x with flags := x.flags.put f b } := by
  unfold Engine.putFlag
  simp only
  split
  · rename_i h
    exact (onSlot_self e i _ (by simp only [h])).symm
  · rfl

theorem filter_of_length {α : Type} (p : α → Bool) (l : List α) (h : (l.filter p).length = l.length) : l.filter p = l :=
  (List.filter_sublist ..).eq_of_length h

theorem ordersWithout_length (e : Engine) (i : SlotId) (h : (e.ordersWithout i).length = e.orders.length) :
    e.ordersWithout i = e.orders := by
  unfold Engine.ordersWithout at *
  generalize e.orders = l at h ⊢
  cases l with
  | nil => rfl
  | cons o os =>
    by_cases hi : e.link.inExchange = true
    · simp only [hi, if_true, List.length_cons, Nat.add_right_cancel_iff] at h ⊢
      rw [filter_of_length _ _ h]
    · simp only [hi, Bool.false_eq_true, if_false] at h ⊢
      exact filter_of_length _ _ h

theorem removeOrder_eq (e : Engine) (i : SlotId) :
    (e.removeOrder i).1 =
      { e with orders := e.ordersWithout i
               link := { e.link with attempts := if (e.ordersWithout i).head? = e.orders.head? then e.link.attempts else 0 } } := by
  unfold Engine.removeOrder
  simp only
  split
  · rename_i h
    rw [ordersWithout_length e i h, if_pos rfl]
  · rfl

theorem sample_eq (e : Engine) (g : GroupId) (w : Nat) :
    ((Act.sample g w).effect e).1 =
      { e with monitor := e.monitor.set g
                { e.group g with estimate := updateEstimate (e.group g).estimate w (e.setup.group g).shift } } := by
  rw [effect_sample]
  dsimp only
  split
  · rename_i h
    rw [h]
    have h1 : ({ e.group g with estimate := (e.group g).estimate } : GroupMonitor) = e.group g := rfl
    rw [h1]
    simp only [Engine.group, Fin.getElem_fin, Vector.set_getElem_self]
  · rfl

theorem yieldsSample_iff (y : Entry) : (y.cls ≠ .recall ∧ y.sampled = false) ↔ y.yieldsSample = true := by
  simp [Entry.yieldsSample]

theorem monitorAfterExit_yields (e : Engine) (y : Entry) (h : y.yieldsSample = true) :
    e.monitorAfterExit y =
      e.monitor.set y.group { e.group y.group with
        estimate := updateEstimate (e.group y.group).estimate (e.waitSample y) (e.setup.group y.group).shift } :=
  if_pos ((yieldsSample_iff y).2 h)

theorem monitorAfterExit_none (e : Engine) (y : Entry) (h : ¬ y.yieldsSample = true) : e.monitorAfterExit y = e.monitor :=
  if_neg fun hc => h ((yieldsSample_iff y).1 hc)

theorem queueWithout_none (e : Engine) (i : SlotId) (h : e.entryOf i = none) : e.queueWithout i = e.queue := by
  unfold Engine.queueWithout
  rw [List.filter_eq_self]
  intro y hy
  have := List.find?_eq_none.1 h y hy
  simpa using this

theorem foreignOf_append (as bs : List Act) (e : Engine) :
    foreignOf (as ++ bs) e = foreignOf as e ++ foreignOf bs (applyActs as e).1 := by
  induction as generalizing e with
  | nil => rfl
  | cons a as ih => simp only [List.cons_append, foreignOf, ih, applyActs_cons, List.append_assoc]

/-! ### Requests that pass their checks -/

theorem ready_stale {s : State} {i : SlotId} (h : Ready s i) :
    staleCheckPasses (s.eng.slot i) (s.slotOperands i).expected = true := by
  obtain ⟨_, _, h⟩ := h
  simpa [staleCheckPasses, State.slotOperands] using h

theorem path_free {e : Engine} {i : SlotId} (h : PathFree e i) : e.pathTaken i = false := by
  unfold Engine.pathTaken
  rcases h with h | h <;> rw [h]
  simp

/-- A request that passes the checks of R11 is taken. -/
theorem slotRequest_taken {s : State} {i : SlotId} (c : SlotReq) (h : Ready s i) (hv : validIn (s.eng.slot i) c = true)
    (hp : PathFree s.eng i ∨ (c ≠ .answer ∧ c ≠ .retrieve)) :
    slotRequest s.eng i c.code (s.slotOperands i) = takeRequest s.eng i (s.slotOperands i) c := by
  have hs := ready_stale h
  obtain ⟨h1, h2, _⟩ := h
  have hpp : ((c == .answer || c == .retrieve) && s.eng.pathTaken i) = false := by
    rcases hp with hp | hp
    · rw [path_free hp]; simp
    · have a1 : (c == .answer) = false := by simpa using hp.1
      have a2 : (c == .retrieve) = false := by simpa using hp.2
      simp [a1, a2]
  have hc : slotReqOf c.code = some c := by cases c <;> decide
  have h0 : c.code ≠ 0 := by cases c <;> decide
  have ht : turnedAway s.eng i c (s.slotOperands i) = none := by
    unfold turnedAway
    rw [hs, hv, h2, hpp]; simp
  unfold slotRequest
  rw [hc]; simp only [h1, Option.isSome_none, Bool.false_eq_true, if_false, h0, ht]

theorem not_withheld {s : State} {i : SlotId} (c : SlotReq) (h : Ready s i) : slotWithholds s.eng i c.code = false := by
  simp [slotWithholds, h.1]

/-! ### Events at a quiet part -/

/-- An event at the link controller. -/
theorem completes_event {c : Instr} {s : State} {n : Nat} {e : Engine} {others : List Post}
    (hc : exec c s = .next (linkEvent c s)) (hq : Quiet s) (hr : Room n s) (hn : boundOf (rowActs c s.eng) ≤ n)
    (hs : Act.sweep ∉ rowActs c s.eng) (he : (applyActs (rowActs c s.eng) s.eng).1 = e)
    (ho : foreignOf (rowActs c s.eng) s.eng = others) : Completes c s s e others := by
  have hl := length_applyActs_le (rowActs c s.eng) s.eng
  rw [linkEvent_quiet c s hq (by have := hr.2; omega)] at hc
  refine ⟨_, hc, ?_⟩
  rw [← he]
  exact ran_applyActs (rowActs c s.eng) hs s hr.1 others ho

/-- A processor access that does not wait for the memory side. -/
theorem completes_access {c : Instr} {s s' : State} {a : Access} {addr : BitVec 16} {as : List Act} {n : Nat} {e : Engine}
    {others : List Post} (hc : exec c s = .next (processorAccess a addr s)) (hq : Quiet s) (hm : s.sideTaken a = false)
    (hr : Room n s') (hb : beginAccess s a = (s', as)) (hw : s'.waiting = [])
    (hn : boundOf as ≤ n) (hs : Act.sweep ∉ as) (he : (applyActs as s'.eng).1 = e) (ho : foreignOf as s'.eng = others) :
    Completes c s s' e others := by
  have hl := length_applyActs_le as s'.eng
  rw [processorAccess_quiet a addr s s' as hq hm hb hw (by have := hr.2; omega)] at hc
  refine ⟨_, hc, ?_⟩
  rw [← he]
  exact ran_applyActs as hs s' hr.1 others ho

theorem classOf_slotRequest (i : SlotId) : classOf (slotOff i 24) = .trigger := by
  have hi := i.isLt
  have h1 : (slotOff i 24 - 0x800) % 32 = 24 := by unfold slotOff; omega
  have h2 : ¬ slotOff i 24 < 0x100 := by unfold slotOff; omega
  have h3 : ¬ slotOff i 24 < 0x200 := by unfold slotOff; omega
  have h4 : ¬ slotOff i 24 < 0x300 := by unfold slotOff; omega
  have h5 : ¬ slotOff i 24 < 0x800 := by unfold slotOff; omega
  have h6 : slotOff i 24 < 0x1000 := by unfold slotOff; omega
  simp only [classOf, h1, h2, h3, h4, h5, h6, if_false, if_true, slotByteClass]
  rfl

theorem slotAt_slotOff (i : SlotId) : slotAt (slotOff i 24) = i := by
  have hi := i.isLt
  have : (slotOff i 24 - 0x800) / 32 = i.val := by unfold slotOff; omega
  apply Fin.ext
  simp only [slotAt, this]
  exact Nat.mod_eq_of_lt hi

/-- A write of a slot's request code byte reaches the slot engine's decision (R152). -/
theorem beginAccess_slot (s : State) (i : SlotId) (v : Byte) (h : s.phase = .running) :
    beginAccess s (.write (s.processorAddress (slotOff i 24)) v) = slotTrigger s (slotOff i 24) i v := by
  have hi := i.isLt
  have hd : s.decoded (s.processorAddress (slotOff i 24)) = some (slotOff i 24) :=
    decoded_processorAddress s _ (by rw [h]; decide) (by unfold slotOff; omega)
  have h2 : ¬ slotOff i 24 < 0x100 := by unfold slotOff; omega
  have h7 : ¬ slotOff i 24 = tailOff + 1 := by unfold slotOff tailOff; omega
  have h8 : ¬ slotOff i 24 = consoleReqOff := by unfold slotOff consoleReqOff; omega
  simp only [beginAccess, hd, regionWrite, classOf_slotRequest, triggerWrite, h2, h7, h8, if_false, slotAt_slotOff]

@[simp] theorem writeOff_eng (s : State) (off : Nat) (v : Byte) : (s.writeOff off v).eng = s.eng := State.beginCycle_eng _

@[simp] theorem writeOff_waiting (s : State) (off : Nat) (v : Byte) : (s.writeOff off v).waiting = s.waiting :=
  State.beginCycle_waiting _

/-- A write takes no room of the posting queue (R156). -/
theorem room_writeOff {n : Nat} {s : State} (h : Room n s) (off : Nat) (v : Byte) : Room n (s.writeOff off v) := by
  refine ⟨nodup_beginCycle _ (h.1.sublist (List.filter_sublist.map _)), Nat.le_trans (Nat.add_le_add_right ?_ n) h.2⟩
  exact Nat.le_trans (length_beginCycle_le _) (List.length_filter_le ..)

/-- A write that the owner withholds makes no memory cycle, and any other finds the side free. -/
theorem sideTaken_open {s : State} (a : Access) (h : Open s) : s.sideTaken a = false := sideTaken_free s a h.2

theorem sideTaken_slotDrop {s : State} {i : SlotId} {v : Byte} (h : s.phase = .running) (hw : slotWithholds s.eng i v = true) :
    s.sideTaken (.write (s.processorAddress (slotOff i 24)) v) = false := by
  have hi := i.isLt
  have hd : s.decoded (s.processorAddress (slotOff i 24)) = some (slotOff i 24) :=
    decoded_processorAddress s _ (by rw [h]; decide) (by unfold slotOff; omega)
  have h2 : ¬ slotOff i 24 < 0x100 := by unfold slotOff; omega
  have h7 : ¬ slotOff i 24 = tailOff + 1 := by unfold slotOff tailOff; omega
  have h8 : ¬ slotOff i 24 = consoleReqOff := by unfold slotOff consoleReqOff; omega
  simp only [State.sideTaken, hd, writeNeedsSide, classOf_slotRequest, slotAt_slotOff, h2, h7, h8, hw, decide_false, Bool.or_self,
    Bool.false_eq_true, if_false, Bool.not_true, Bool.and_false]

theorem sideTaken_consoleDrop {s : State} {v : Byte} (h : s.phase = .running) (hw : consoleWithholds s.eng = true) :
    s.sideTaken (.write (s.processorAddress consoleReqOff) v) = false := by
  have hd : s.decoded (s.processorAddress consoleReqOff) = some consoleReqOff :=
    decoded_processorAddress s _ (by rw [h]; decide) (by unfold consoleReqOff; omega)
  have hcl : classOf consoleReqOff = .trigger := by decide
  have h2 : ¬ (consoleReqOff < 0x100 || consoleReqOff = tailOff + 1) := by decide
  simp [State.sideTaken, hd, writeNeedsSide, hcl, hw, h2]

/-- A write of a slot's request code byte that the slot engine does not withhold. -/
theorem completes_slotWrite {c : Instr} {v : Byte} {i : SlotId} {s : State} {n : Nat} {e : Engine} {others : List Post}
    (hc : exec c s = .next (processorWrite (s.processorAddress (slotOff i 24)) v s)) (hq : Open s) (hr : Room n s)
    (hw : slotWithholds s.eng i v = false) (hn : boundOf (slotRequest s.eng i v (s.slotOperands i)) ≤ n)
    (hs : Act.sweep ∉ slotRequest s.eng i v (s.slotOperands i))
    (he : (applyActs (slotRequest s.eng i v (s.slotOperands i)) s.eng).1 = e)
    (ho : foreignOf (slotRequest s.eng i v (s.slotOperands i)) s.eng = others) :
    Completes c s (s.writeOff (slotOff i 24) v) e others := by
  refine completes_access (as := slotRequest s.eng i v (s.slotOperands i)) hc hq.1 (sideTaken_open _ hq) (room_writeOff hr _ _) ?_ ?_ hn hs ?_ ?_
  · rw [beginAccess_slot s i v hq.1.1]
    simp only [slotTrigger, hw]
    rfl
  · rw [writeOff_waiting]; exact hq.1.2.1
  · rw [writeOff_eng]; exact he
  · rw [writeOff_eng]; exact ho

/-- A slot request that the slot engine does not withhold. -/
theorem completes_slotRequest {c : Instr} {r : SlotReq} {i : SlotId} {s : State} {n : Nat} {e : Engine} {others : List Post}
    (hc : exec c s = .next (writeSlotRequest r i s)) (hq : Open s) (hr : Room n s) (hw : slotWithholds s.eng i r.code = false)
    (hn : boundOf (slotRequest s.eng i r.code (s.slotOperands i)) ≤ n)
    (hs : Act.sweep ∉ slotRequest s.eng i r.code (s.slotOperands i))
    (he : (applyActs (slotRequest s.eng i r.code (s.slotOperands i)) s.eng).1 = e)
    (ho : foreignOf (slotRequest s.eng i r.code (s.slotOperands i)) s.eng = others) :
    Completes c s (s.writeOff (slotOff i 24) r.code) e others :=
  completes_slotWrite (v := r.code) hc hq hr hw hn hs he ho

/-- A write of a slot's request code byte that the slot engine withholds: nothing is written (R12). -/
theorem completes_slotDrop {c : Instr} {v : Byte} {i : SlotId} {s : State} {n : Nat} {e : Engine} {others : List Post}
    (hc : exec c s = .next (processorWrite (s.processorAddress (slotOff i 24)) v s)) (hq : Quiet s) (hr : Room n s)
    (hw : slotWithholds s.eng i v = true) (hn : boundOf (dropSlotRequest i) ≤ n)
    (he : (applyActs (dropSlotRequest i) s.eng).1 = e) (ho : foreignOf (dropSlotRequest i) s.eng = others) :
    Completes c s s e others := by
  refine completes_access (as := dropSlotRequest i) hc hq (sideTaken_slotDrop hq.1 hw) hr ?_ hq.2.1 hn (by simp [dropSlotRequest]) he ho
  rw [beginAccess_slot s i v hq.1]
  simp only [slotTrigger, hw, if_true]

theorem beginAccess_console (s : State) (v : Byte) (h : s.phase = .running) :
    beginAccess s (.write (s.processorAddress consoleReqOff) v) = consoleTrigger s consoleReqOff v := by
  have hd : s.decoded (s.processorAddress consoleReqOff) = some consoleReqOff :=
    decoded_processorAddress s _ (by rw [h]; decide) (by unfold consoleReqOff; omega)
  have hcl : classOf consoleReqOff = .trigger := by decide
  have h2 : ¬ consoleReqOff < 0x100 := by decide
  have h7 : ¬ consoleReqOff = tailOff + 1 := by decide
  simp only [beginAccess, hd, regionWrite, hcl, triggerWrite, h2, h7, if_false, if_true]

/-- A write of the console request byte that the answer queue does not withhold. -/
theorem completes_consoleWrite {c : Instr} {v : Byte} {s : State} {n : Nat} {e : Engine} {others : List Post}
    (hc : exec c s = .next (processorWrite (s.processorAddress consoleReqOff) v s)) (hq : Open s) (hr : Room n s)
    (hw : consoleWithholds s.eng = false)
    (hn : boundOf (consoleRequest s.eng v (s.readOff consoleOperandOff)) ≤ n)
    (hs : Act.sweep ∉ consoleRequest s.eng v (s.readOff consoleOperandOff))
    (he : (applyActs (consoleRequest s.eng v (s.readOff consoleOperandOff)) s.eng).1 = e)
    (ho : foreignOf (consoleRequest s.eng v (s.readOff consoleOperandOff)) s.eng = others) :
    Completes c s (s.writeOff consoleReqOff v) e others := by
  refine completes_access (as := consoleRequest s.eng v (s.readOff consoleOperandOff)) hc hq.1 (sideTaken_open _ hq)
    (room_writeOff hr _ _) ?_ ?_ hn hs ?_ ?_
  · rw [beginAccess_console s v hq.1.1]
    simp only [consoleTrigger, hw]
    rfl
  · rw [writeOff_waiting]; exact hq.1.2.1
  · rw [writeOff_eng]; exact he
  · rw [writeOff_eng]; exact ho

/-- A console request that the answer queue does not withhold. -/
theorem completes_console {c : Instr} {r : ConsoleReq} {s : State} {n : Nat} {e : Engine} {others : List Post}
    (hc : exec c s = .next (writeConsoleRequest r s)) (hq : Open s) (hr : Room n s) (hw : consoleWithholds s.eng = false)
    (hn : boundOf (consoleRequest s.eng r.code (s.readOff consoleOperandOff)) ≤ n)
    (hs : Act.sweep ∉ consoleRequest s.eng r.code (s.readOff consoleOperandOff))
    (he : (applyActs (consoleRequest s.eng r.code (s.readOff consoleOperandOff)) s.eng).1 = e)
    (ho : foreignOf (consoleRequest s.eng r.code (s.readOff consoleOperandOff)) s.eng = others) :
    Completes c s (s.writeOff consoleReqOff r.code) e others :=
  completes_consoleWrite (v := r.code) hc hq hr hw hn hs he ho

/-- A write of the console request byte that the answer queue withholds: nothing is written (R63). -/
theorem completes_consoleDrop {c : Instr} {v : Byte} {s : State} {n : Nat} {e : Engine} {others : List Post}
    (hc : exec c s = .next (processorWrite (s.processorAddress consoleReqOff) v s)) (hq : Quiet s) (hr : Room n s)
    (hw : consoleWithholds s.eng = true) (hn : boundOf dropConsoleRequest ≤ n)
    (he : (applyActs dropConsoleRequest s.eng).1 = e) (ho : foreignOf dropConsoleRequest s.eng = others) :
    Completes c s s e others := by
  refine completes_access (as := dropConsoleRequest) hc hq (sideTaken_consoleDrop hq.1 hw) hr ?_ hq.2.1 hn (by simp [dropConsoleRequest]) he ho
  rw [beginAccess_console s v hq.1]
  simp only [consoleTrigger, hw, if_true]

end Sys2Proof.Machine
end

