-- ==== Sys2Proof/Laws/Drain.lean ====
section
/-!
SUPPORT. Events that have to wait for room (R157): as entries drain, the event makes the posts and the changes of state it
would have made at once (`piece_finishes`), within as many drains as it has posts.
-/
namespace Sys2Proof.Machine

/-! ### States that differ only in what draining and posting change -/

/-- `t` is `s` with another engine after the posts `ps`, some of which may have drained. -/
def Reaches (s : State) (ps : List Post) (t : State) : Prop :=
  t = { s with eng := t.eng, posts := t.posts, mem := t.mem, side := t.side }
    ∧ (∀ off, t.readOff off = (lastPost ps off).getD (s.readOff off))
    ∧ ∀ a, a < s.address 0 → t.settledRead a = s.settledRead a

theorem Reaches.refl (s : State) : Reaches s [] s := ⟨rfl, fun _ => rfl, fun _ _ => rfl⟩

theorem Reaches.address {s t : State} {ps : List Post} (h : Reaches s ps t) : t.address = s.address := by rw [h.1]; rfl

theorem Reaches.trans {s t u : State} {ps qs : List Post} (h1 : Reaches s ps t) (h2 : Reaches t qs u) :
    Reaches s (ps ++ qs) u := by
  refine ⟨?_, fun off => ?_, fun a ha => ?_⟩
  · have e1 := h1.1
    have e2 := h2.1
    rw [e2]
    conv => lhs; rw [e1]
  · rw [h2.2.1, h1.2.1, lastPost_append]
    cases lastPost qs off <;> simp
  · rw [h2.2.2 a (by rw [h1.address]; exact ha), h1.2.2 a ha]

theorem Reaches.eng {s t : State} {ps : List Post} (h : Reaches s ps t) (e : Engine) : Reaches s ps { t with eng := e } := by
  refine ⟨?_, h.2.1, h.2.2⟩
  have e1 := h.1
  conv => lhs; rw [e1]

theorem reaches_push (s : State) (h : Tidy s) (p : Post) : Reaches s [p] (s.push p) := by
  refine ⟨?_, fun off => ?_, settledRead_push s p⟩
  · rw [frame_push]
  rw [readOff_push s h.2.1]
  by_cases h : p.off = off <;> simp [lastPost, h]

theorem tidy_push (s : State) (p : Post) (h : Tidy s) (hp : s.hasPost p.off = true ∨ s.posts.length < Config.postingCapacity) :
    Tidy (s.push p) := by
  refine ⟨by rw [State.push_mem]; exact h.1, nodup_push s p h.2.1, Nat.le_trans (length_beginCycle_le _) ?_⟩
  show (pushPost p s.posts).length ≤ _
  rcases hp with hp | hp
  · rw [length_pushPost_of_mem p s.posts hp]; exact h.2.2
  · have := length_pushPost_le p s.posts; omega

theorem tidy_endCycle (s : State) (h : Tidy s) : Tidy s.endCycle := by
  unfold State.endCycle
  split
  · exact h
  · exact ⟨memWf_memWrite _ h.1 _ _, h.2.1, h.2.2⟩

theorem tidy_beginCycle (s : State) (h : Tidy s) : Tidy s.beginCycle :=
  ⟨by rw [State.beginCycle_mem]; exact h.1, nodup_beginCycle s h.2.1, Nat.le_trans (length_beginCycle_le s) h.2.2⟩

theorem reaches_endCycle (s : State) (h : Tidy s) : Reaches s [] s.endCycle := by
  refine ⟨?_, fun off => readOff_endCycle s h.1 off, fun a _ => settledRead_endCycle s h.1 a⟩
  unfold State.endCycle
  split <;> rfl

theorem reaches_beginCycle (s : State) (h : Tidy s) : Reaches s [] s.beginCycle := by
  refine ⟨?_, fun off => readOff_beginCycle s h.2.1 off, fun a ha => settledRead_beginCycle s a ha⟩
  unfold State.beginCycle
  split <;> rfl

/-- One entry drains: the cycle in progress ends, and the next entry's begins. -/
theorem reaches_cycle (s : State) (h : Tidy s) : Reaches s [] s.endCycle.beginCycle ∧ Tidy s.endCycle.beginCycle := by
  have h1 := tidy_endCycle s h
  exact ⟨(reaches_endCycle s h).trans (reaches_beginCycle _ h1), tidy_beginCycle _ h1⟩

theorem cycle_posts (s : State) : s.endCycle.beginCycle.posts = s.posts.tail := by
  have h2 : s.endCycle.side = .free := by unfold State.endCycle; split <;> first | assumption | rfl
  have h1 := s.endCycle_posts
  unfold State.beginCycle
  cases hp : s.endCycle.posts with
  | nil => simp only [h2]; rw [hp, ← h1, hp]; rfl
  | cons p ps => simp only [h2]; rw [← h1, hp]; rfl

theorem endCycle_withWaiting (s : State) (ws : List Waiting) :
    State.endCycle { s with waiting := ws } = { s.endCycle with waiting := ws } := by
  unfold State.endCycle
  simp only
  split <;> rfl

theorem beginCycle_withWaiting (s : State) (ws : List Waiting) :
    State.beginCycle { s with waiting := ws } = { s.beginCycle with waiting := ws } := by
  unfold State.beginCycle
  simp only
  split <;> rfl

/-! ### How far an event runs -/

/-- The posts left of acts whose first has made all its posts but `bytes`, where there are any. -/
def postsLeft (bytes : List Post) (acts : List Act) (e : Engine) : List Post :=
  match bytes, acts with
  | [], as => (applyActs as e).2
  | q :: qs, [] => q :: qs
  | q :: qs, a :: as => q :: qs ++ (applyActs as (a.effect e).1).2

theorem postsLeft_nil (acts : List Act) (e : Engine) : postsLeft [] acts e = (applyActs acts e).2 := rfl

/-- What the rest of an event comes to on an engine: the engine it leaves and its posts. -/
def Rest.result (r : Rest) (e : Engine) : Engine × List Post :=
  ((applyJobs r.jobs (applyActs r.acts e).1).1,
    postsLeft r.bytes r.acts e ++ (applyJobs r.jobs (applyActs r.acts e).1).2)

/-- The rest of an event waits for room for a post of its first act. -/
def Blocked (r : Rest) (t : State) : Prop :=
  t.posts.length = Config.postingCapacity ∧ r.bytes ≠ [] ∧ r.acts ≠ []

theorem full_of_canPost (s : State) (off : Nat) (hw : s.waiting = []) (h : Tidy s) (hc : s.canPost off = false) :
    s.posts.length = Config.postingCapacity := by
  have := h.2.2
  simp [State.canPost, hw] at hc
  omega

theorem tidy_push_of_canPost (s : State) (p : Post) (h : Tidy s) (hc : s.canPost p.off = true) : Tidy (s.push p) := by
  refine tidy_push s p h ?_
  simp only [State.canPost, Bool.or_eq_true, Bool.and_eq_true, decide_eq_true_eq] at hc
  exact hc.imp id And.left

theorem runBytes_reaches (ps : List Post) (s : State) (hw : s.waiting = []) (h : Tidy s) :
    ∃ made, ps = made ++ (runBytes ps s).2 ∧ Reaches s made (runBytes ps s).1 ∧ Tidy (runBytes ps s).1
      ∧ (runBytes ps s).1.eng = s.eng
      ∧ ((runBytes ps s).2 = [] ∨ (runBytes ps s).1.posts.length = Config.postingCapacity) := by
  induction ps generalizing s with
  | nil => exact ⟨[], rfl, Reaches.refl s, h, rfl, .inl rfl⟩
  | cons p ps ih =>
    unfold runBytes
    cases hc : s.canPost p.off with
    | true =>
      simp only [if_true]
      obtain ⟨made, h1, h2, h3, h4, h5⟩ := ih (s.push p) (by simpa using hw) (tidy_push_of_canPost s p h hc)
      refine ⟨p :: made, by rw [List.cons_append, ← h1], (reaches_push s h p).trans h2, h3, h4.trans (s.push_eng p), h5⟩
    | false =>
      rw [if_neg Bool.false_ne_true]
      exact ⟨[], rfl, Reaches.refl s, h, rfl, .inr (full_of_canPost s p.off hw h hc)⟩

theorem Reaches.withEng {s t : State} {ps : List Post} {e : Engine} (h : Reaches { s with eng := e } ps t) : Reaches s ps t := by
  refine ⟨?_, h.2.1, h.2.2⟩
  have e1 := h.1
  conv => lhs; rw [e1]

theorem runActs_reaches (as : List Act) (s : State) (hw : s.waiting = []) (h : Tidy s) :
    let r := runActs as s
    ∃ made, Reaches s made r.1 ∧ Tidy r.1 ∧ (applyActs r.2.2 r.1.eng).1 = (applyActs as s.eng).1
      ∧ (applyActs as s.eng).2 = made ++ postsLeft r.2.1 r.2.2 r.1.eng
      ∧ ((r.2.1 = [] ∧ r.2.2 = []) ∨ (r.1.posts.length = Config.postingCapacity ∧ r.2.1 ≠ [] ∧ r.2.2 ≠ [])) := by
  induction as generalizing s with
  | nil => exact ⟨[], Reaches.refl s, h, rfl, rfl, .inl ⟨rfl, rfl⟩⟩
  | cons a as ih =>
    unfold runActs
    rw [applyActs_cons, busy_of_none s a hw, if_neg Bool.false_ne_true]
    obtain ⟨m1, b1, b2, b3, b4, b5⟩ := runBytes_reaches (a.effect s.eng).2 s hw h
    cases hb : runBytes (a.effect s.eng).2 s with
    | mk t qs =>
      rw [hb] at b1 b2 b3 b4 b5
      simp only at b1 b2 b3 b4 b5
      have htw : t.waiting = [] := by rw [b2.1]; exact hw
      cases qs with
      | nil =>
        simp only
        rw [b4]
        obtain ⟨m2, c1, c2, c3, c4, c5⟩ := ih { t with eng := (a.effect s.eng).1 } htw b3
        refine ⟨m1 ++ m2, b2.trans c1.withEng, c2, c3, ?_, c5⟩
        rw [List.append_nil] at b1
        rw [b1, c4]
        simp
      | cons q qs =>
        simp only
        refine ⟨m1, b2, b3, ?_, ?_, .inr ⟨b5.resolve_left (by simp), by simp, by simp⟩⟩
        · rw [b4]; rfl
        · rw [b4]
          conv => lhs; rw [b1]
          simp [postsLeft]

/-! ### Pieces that keep a link reset's standing -/

/-- No link reset is due, and the link has not to leave RESETTING. -/
def Calm (e : Engine) : Prop := e.link.resetDue = none ∧ (e.link.state = .resetting → e.link.srst = true)

/-- An act that brings no link reset about, and is not the initialization sweep. -/
def Act.ordinary : Act → Bool
  | .linkState _ | .linkReset | .srstDrive _ | .srstRelease | .srstSwitch _ | .sweep => false
  | _ => true

theorem Link.awaitsByte_reset (l : Link) : l.awaitsByte.resetDue = l.resetDue ∧ l.awaitsByte.srst = l.srst := by
  unfold Link.awaitsByte
  split <;> exact ⟨rfl, rfl⟩

theorem Link.progress_reset (l : Link) : l.progress.1.resetDue = l.resetDue ∧ l.progress.1.srst = l.srst := by
  have h1 : l.byteSent.1.resetDue = l.resetDue ∧ l.byteSent.1.srst = l.srst := by unfold Link.byteSent; split <;> exact ⟨rfl, rfl⟩
  have h2 : l.byteTaken.1.resetDue = l.resetDue ∧ l.byteTaken.1.srst = l.srst := by
    unfold Link.byteTaken
    split
    · exact ⟨rfl, rfl⟩
    · split <;> exact ⟨rfl, rfl⟩
  unfold Link.progress
  split
  · show (if l.sackIn = true then l else { l with hand := .sackRise }).resetDue = _ ∧ (if l.sackIn = true then l else _).srst = _
    split <;> exact ⟨rfl, rfl⟩
  · show (if l.sackIn = true then { l with hand := .sackFall } else l).resetDue = _ ∧ (if l.sackIn = true then _ else l).srst = _
    split <;> exact ⟨rfl, rfl⟩
  · split
    · exact ⟨rfl, rfl⟩
    · exact h1
  · exact ⟨rfl, rfl⟩
  · exact h2
  · exact ⟨rfl, rfl⟩

theorem Link.handles_reset (l : Link) (m : LineMove) : (l.handles m).1.resetDue = l.resetDue ∧ (l.handles m).1.srst = l.srst := by
  obtain ⟨h1, h2⟩ := (l.moved m).progress_reset
  have h3 : (l.moved m).resetDue = l.resetDue ∧ (l.moved m).srst = l.srst := by unfold Link.moved; split <;> exact ⟨rfl, rfl⟩
  exact ⟨h1.trans h3.1, h2.trans h3.2⟩

theorem Calm.of_link {e e' : Engine} (h : Calm e) (h1 : e'.link.resetDue = e.link.resetDue) (h2 : e'.link.srst = e.link.srst)
    (h3 : e'.link.state = e.link.state ∨ e'.link.state ≠ .resetting) : Calm e' := by
  refine ⟨h1.trans h.1, fun hc => ?_⟩
  rw [h2]
  exact h.2 ((h3.resolve_right fun hn => hn hc) ▸ hc)

/-- Where the link is the same, nothing more is due. -/
theorem Calm.of_eq {e e' : Engine} (h : Calm e) (hl : e'.link = e.link) : Calm e' :=
  h.of_link (by rw [hl]) (by rw [hl]) (.inl (by rw [hl]))

theorem link_latch (e : Engine) (c : Cause) : (e.latch c).1.link = e.link := by rw [latch_eq]

theorem link_foldl_onGroup (gs : List GroupId) (f : GroupMonitor → GroupMonitor) (e : Engine) :
    (gs.foldl (fun e g => e.onGroup g f) e).link = e.link := by
  induction gs generalizing e with
  | nil => rfl
  | cons g gs ih => exact (ih _).trans rfl

theorem link_setCopy (e : Engine) (off : Nat) (b : Byte) : (e.setCopy off b).link = e.link := by
  unfold Engine.setCopy
  split <;> rfl

theorem link_setField (e : Engine) (f : SetupField) (v : Nat) : (e.setField f v).link = e.link := by
  unfold Engine.setField
  generalize postsAt f.off (leBytes v f.width) = ps
  induction ps generalizing e with
  | nil => rfl
  | cons p ps ih => exact (ih _).trans (link_setCopy _ _ _)

theorem link_setupLoad (e : Engine) (bytes : List Byte) : (e.setupLoad bytes).1.link = e.link := by
  have h1 : ∀ (fs : List SetupField) (r : Engine × List Post), (fs.foldl loadStored r).1.link = r.1.link := by
    intro fs
    induction fs with
    | nil => exact fun _ => rfl
    | cons f fs ih =>
      intro r
      refine (ih _).trans ?_
      unfold loadStored
      simp only
      split
      · rfl
      · exact link_setField _ _ _
  have h2 : ∀ (fs : List SetupField) (r : Engine × List Post), (fs.foldl loadDefault r).1.link = r.1.link := by
    intro fs
    induction fs with
    | nil => exact fun _ => rfl
    | cons f fs ih => exact fun r => (ih _).trans (link_setField _ _ _)
  unfold Engine.setupLoad
  simp only
  split
  · exact h1 _ _
  · rw [link_setCopy]; exact h2 _ _

/-- An ordinary act makes no link reset due. -/
theorem calm_effect (a : Act) (ha : a.ordinary = true) (e : Engine) (h : Calm e) : Calm (a.effect e).1 := by
  cases a with
  | linkState l => cases ha
  | linkReset => cases ha
  | srstDrive c => cases ha
  | srstRelease => cases ha
  | srstSwitch b => cases ha
  | sweep => cases ha
  | flag i f b => exact h.of_eq (by rw [effect_flag, putFlag_eq]; rfl)
  | free i =>
    rw [effect_free]
    unfold Engine.free
    refine h.of_link ?_ ?_ (.inl ?_) <;> simp only [removeOrder_eq] <;> rfl
  | sample g w => exact h.of_eq (by rw [sample_eq])
  | advanceTime => exact h.of_eq (by rw [effect_advanceTime]; simp only; split <;> rfl)
  | monitorReset => exact h.of_eq (link_foldl_onGroup _ _ _)
  | removeOrder i =>
    rw [effect_removeOrder, removeOrder_eq]
    exact h.of_link rfl rfl (.inl rfl)
  | idleTest =>
    rw [effect_idleTest, idleTest_eq]
    unfold Link.tested
    split
    · split
      · exact h.of_link rfl rfl (.inr (by simp [Link.receiving]))
      · split
        · exact h.of_link rfl rfl (.inr (by simp))
        · exact h
    · exact h
  | line m => exact h.of_link (e.link.handles_reset m).1 (e.link.handles_reset m).2 (.inl (e.link.handles_state m))
  | beginReceiving =>
    have := Link.awaitsByte_reset { e.link.rxEmpty with state := .receiving }
    exact h.of_link this.1 this.2 (.inr (by simp [Engine.entersState, Engine.onLink]))
  | beginSending => exact h.of_link rfl rfl (.inr (by simp [Engine.entersState, Engine.onLink]))
  | awaitStatus =>
    have := Link.awaitsByte_reset { e.link.rxEmpty with state := .awaitStatus, tx := [] }
    exact h.of_link this.1 this.2 (.inr (by simp [Engine.entersState, Engine.onLink]))
  | answering st =>
    rw [effect_answering]
    unfold Engine.onLink Link.answering
    simp only
    split
    · exact h.of_link rfl rfl (.inl rfl)
    · exact h.of_link rfl rfl (.inr (by simp [Link.sends]))
  | journal k sl a b => exact h.of_eq (by rw [effect_journal, append_eq])
  | latch c => exact h.of_eq (link_latch e c)
  | tailWrite b =>
    refine h.of_eq ?_
    rw [effect_tailWrite]
    unfold Engine.tailWrite
    simp only
    split <;> split <;> rfl
  | setupCopy off b => exact h.of_eq (link_setCopy e off b)
  | setupPost f v => exact h.of_eq (link_setField e f v)
  | setupLoad bytes => exact h.of_eq (link_setupLoad e bytes)
  | scc b => exact h.of_link rfl rfl (.inl rfl)
  | scs b => exact h.of_link rfl rfl (.inl rfl)
  | txEnd => exact h.of_link rfl rfl (.inl rfl)
  | receive fr note => exact h.of_link rfl rfl (.inl rfl)
  | rxClear => exact h.of_link rfl rfl (.inl rfl)
  | abandon => exact h.of_link rfl rfl (.inl rfl)
  | endExchange => exact h.of_link rfl rfl (.inl rfl)
  | failAttempt => exact h.of_link rfl rfl (.inl rfl)
  | _ => exact h

theorem calm_applyActs (as : List Act) (ha : ∀ a ∈ as, a.ordinary = true) (e : Engine) (h : Calm e) : Calm (applyActs as e).1 := by
  induction as generalizing e with
  | nil => exact h
  | cons a as ih =>
    exact ih (fun b hb => ha b (List.mem_cons_of_mem _ hb)) _ (calm_effect a (ha a (List.mem_cons_self ..)) e h)

/-- The pieces of a tick after the first (R102, R117). -/
def Job.ofTick (j : Job) : Prop := j = .expire ∨ ∃ g, j = .evaluate g

theorem leaveQueue_ordinary (e : Engine) (i : SlotId) (k : Bool) : ∀ a ∈ leaveQueue e i k, a.ordinary = true := by
  unfold leaveQueue
  split
  · simp [Act.ordinary]
  · split <;> simp [Act.ordinary]

/-- The pieces of a tick are ordinary acts. -/
theorem ofTick_ordinary {j : Job} (hj : j.ofTick) (e : Engine) : ∀ a ∈ j.actsOn e, a.ordinary = true := by
  rcases hj with rfl | ⟨g, rfl⟩
  · unfold Job.actsOn expireNext
    simp only
    split
    · simp
    · unfold expireSlot expireDay nightDivert suspendTimer
      split
      · split
        · split <;> (try split) <;> simp [recallSlot, issue, record, Act.ordinary]
        · split <;> simp [issue, Act.ordinary]
      · simp [Act.ordinary]
  · unfold Job.actsOn evaluateGroup
    simp only
    have hsh : ∀ a ∈ shed e g, a.ordinary = true := by
      unfold shed
      split
      · simp
      · intro a ha
        simp only [divertWaiting, issue, List.mem_append] at ha
        rcases ha with ((ha | ha) | ha) | ha
        · exact leaveQueue_ordinary _ _ _ a ha
        all_goals
          revert a
          simp [Act.ordinary]
    intro a ha
    simp only [List.mem_append] at ha
    rcases ha with ((ha | ha) | ha) | ha
    · split at ha
      · cases ha
      · revert a; simp [Act.ordinary]
    · split at ha
      · cases ha
      · revert a; simp [Act.ordinary]
    · split at ha
      · exact hsh a ha
      · cases ha
    · split at ha
      · revert a; simp [Act.ordinary]
      · cases ha

theorem dueJob_calm (s : State) (h : Calm s.eng) : s.dueJob = none ∨ s.dueJob = some .expire := by
  unfold State.dueJob
  split
  · rw [h.1, if_neg (by simp), if_neg]
    · split
      · exact .inr rfl
      · exact .inl rfl
    · rintro ⟨h1, h2⟩
      rw [h.2 h1] at h2
      cases h2
  · exact .inl rfl

/-- An expiry that is handed over comes before no later piece of its tick (R125). -/
theorem overdue_ofTick (s : State) (j : Job) (hj : j.ofTick) (h : Calm s.eng) : j.overdue s = false := by
  unfold Job.overdue
  rcases dueJob_calm s h with hd | hd
  · rw [hd]
  · rw [hd]
    rcases hj with rfl | ⟨g, rfl⟩ <;> rfl

/-! ### Pieces in order -/

/-- The rest of an event: its first act waits with some of its posts, and its later pieces are pieces of a tick. -/
def Orderly (r : Rest) (e : Engine) : Prop :=
  (∀ j ∈ r.jobs, j.ofTick) ∧ (r.jobs = [] ∨ Calm (applyActs r.acts e).1)

theorem runJobs_reaches (js : List Job) (at_ : List Block) (s : State) (hj : ∀ j ∈ js, j.ofTick) (hc : js = [] ∨ Calm s.eng)
    (hw : s.waiting = []) (h : Tidy s) :
    let r := runJobs js [] at_ s
    ∃ made, Reaches s made r.1 ∧ Tidy r.1 ∧ (r.2.result r.1.eng).1 = (applyJobs js s.eng).1
      ∧ (applyJobs js s.eng).2 = made ++ (r.2.result r.1.eng).2 ∧ Orderly r.2 r.1.eng
      ∧ (r.2 = Rest.none ∨ Blocked r.2 r.1) := by
  induction js generalizing s at_ with
  | nil => exact ⟨[], Reaches.refl s, h, rfl, rfl, ⟨by simp [runJobs, Rest.none], .inl rfl⟩, .inl rfl⟩
  | cons j js ih =>
    have hjs : ∀ k ∈ js, k.ofTick := fun k hk => hj k (List.mem_cons_of_mem _ hk)
    have hj0 := hj j (List.mem_cons_self ..)
    have hcalm := hc.resolve_left (by simp)
    have hb : j.begin s = (s, j.actsOn s.eng) := by rcases hj0 with rfl | ⟨g, rfl⟩ <;> rfl
    have hf : j.free s [] at_ = true := by
      unfold Job.free
      rw [ready_alone s j at_ hw (by rintro a rfl; rcases hj0 with h | ⟨g, h⟩ <;> cases h), overdue_ofTick s j hj0 hcalm]
      rfl
    have hnext := calm_applyActs _ (ofTick_ordinary hj0 s.eng) s.eng hcalm
    rw [runJobs, if_pos hf, hb]
    obtain ⟨m1, a1, a2, a3, a4, a5⟩ := runActs_reaches (j.actsOn s.eng) s hw h
    cases hr : runActs (j.actsOn s.eng) s with
    | mk t q =>
      obtain ⟨qs, as⟩ := q
      rw [hr] at a1 a2 a3 a4 a5
      simp only at a1 a2 a3 a4 a5
      have htw : t.waiting = [] := by rw [a1.1]; exact hw
      simp only [applyJobs]
      rcases a5 with ⟨rfl, rfl⟩ | ⟨hfull, hq, ha⟩
      · simp only
        have a3' : t.eng = (applyActs (j.actsOn s.eng) s.eng).1 := a3
        have a4' : (applyActs (j.actsOn s.eng) s.eng).2 = m1 := by rw [a4]; simp [postsLeft]
        obtain ⟨m2, c1, c2, c3, c4, c5, c6⟩ := ih (j.arrivesAt s) t hjs (.inr (a3' ▸ hnext)) htw a2
        refine ⟨m1 ++ m2, a1.trans c1, c2, ?_, ?_, c5, c6⟩
        · rw [c3, a3']
        · rw [← a3', a4', c4]; simp
      · obtain ⟨q, qs, rfl⟩ := List.exists_cons_of_ne_nil hq
        simp only
        refine ⟨m1, a1, a2, ?_, ?_, ⟨hjs, .inr (by rw [a3]; exact hnext)⟩, .inr ⟨hfull, by simp, ha⟩⟩
        · simp only [Rest.result]; rw [a3]
        · simp only [Rest.result]; rw [a3, a4]; simp

/-- The acts of a piece, then the pieces after it. -/
theorem runPiece_reaches (w : Waiting) (acts : List Act) (s : State) (ho : Orderly { holds := [], bytes := [], acts := acts, jobs := w.jobs } s.eng)
    (hw : s.waiting = []) (h : Tidy s) :
    let r := runPiece w acts [] s
    let whole : Rest := { holds := [], bytes := [], acts := acts, jobs := w.jobs }
    ∃ made, Reaches s made r.1 ∧ Tidy r.1 ∧ (r.2.result r.1.eng).1 = (whole.result s.eng).1
      ∧ (whole.result s.eng).2 = made ++ (r.2.result r.1.eng).2 ∧ Orderly r.2 r.1.eng
      ∧ (r.2 = Rest.none ∨ Blocked r.2 r.1) := by
  unfold runPiece
  obtain ⟨m1, a1, a2, a3, a4, a5⟩ := runActs_reaches acts s hw h
  cases hr : runActs acts s with
  | mk t q =>
    obtain ⟨qs, as⟩ := q
    rw [hr] at a1 a2 a3 a4 a5
    simp only at a1 a2 a3 a4 a5
    have htw : t.waiting = [] := by rw [a1.1]; exact hw
    rcases a5 with ⟨rfl, rfl⟩ | ⟨hfull, hq, ha⟩
    · simp only
      have a3' : t.eng = (applyActs acts s.eng).1 := a3
      have a4' : (applyActs acts s.eng).2 = m1 := by rw [a4]; simp [postsLeft]
      obtain ⟨m2, c1, c2, c3, c4, c5, c6⟩ := runJobs_reaches w.jobs w.holds t ho.1 (a3' ▸ ho.2) htw a2
      refine ⟨m1 ++ m2, a1.trans c1, c2, ?_, ?_, c5, c6⟩
      · simp only [Rest.result]; rw [← a3']; exact c3
      · simp only [Rest.result, postsLeft_nil]
        rw [← a3', a4', c4]; simp [Rest.result]
    · obtain ⟨q, qs, rfl⟩ := List.exists_cons_of_ne_nil hq
      simp only
      refine ⟨m1, a1, a2, ?_, ?_, ⟨ho.1, ?_⟩, .inr ⟨hfull, by simp, ha⟩⟩
      · simp only [Rest.result]; rw [a3]
      · simp only [Rest.result, postsLeft_nil]; rw [a3, a4]; simp
      · rw [a3]; exact ho.2

/-- A waiting event that is given the room of one entry makes that post at least. -/
theorem runPosts_reaches (r : Rest) (q : Post) (qs : List Post) (hq : r.bytes = q :: qs) (hacts : r.acts ≠ []) (s : State)
    (ho : Orderly r s.eng) (hw : s.waiting = []) (h : Tidy s) (hroom : s.posts.length < Config.postingCapacity) :
    let o := runPosts r.waiting qs [] (s.push q)
    ∃ made, made ≠ [] ∧ Reaches s made o.1 ∧ Tidy o.1 ∧ (o.2.result o.1.eng).1 = (r.result s.eng).1
      ∧ (r.result s.eng).2 = made ++ (o.2.result o.1.eng).2 ∧ Orderly o.2 o.1.eng
      ∧ (o.2 = Rest.none ∨ Blocked o.2 o.1) := by
  obtain ⟨a, as, ha⟩ := List.exists_cons_of_ne_nil hacts
  have ht := tidy_push s q h (.inr hroom)
  unfold runPosts
  obtain ⟨m1, b1, b2, b3, b4, b5⟩ := runBytes_reaches qs (s.push q) (by simpa using hw) ht
  cases hb : runBytes qs (s.push q) with
  | mk t rest =>
    rw [hb] at b1 b2 b3 b4 b5
    simp only at b1 b2 b3 b4 b5
    have hte : t.eng = s.eng := b4.trans (s.push_eng q)
    have htw : t.waiting = [] := by rw [((reaches_push s h q).trans b2).1]; exact hw
    have hacts : r.waiting.acts = a :: as := ha
    cases rest with
    | nil =>
      simp only [hacts]
      rw [List.append_nil] at b1
      have ho' : Orderly { holds := [], bytes := [], acts := as, jobs := r.waiting.jobs } (a.effect t.eng).1 := by
        refine ⟨ho.1, ho.2.imp id fun hc => ?_⟩
        rw [hte]
        rw [ha, applyActs_cons] at hc
        exact hc
      obtain ⟨m2, c1, c2, c3, c4, c5, c6⟩ := runPiece_reaches r.waiting as { t with eng := (a.effect t.eng).1 } ho' htw b3
      refine ⟨[q] ++ m1 ++ m2, by simp, ((reaches_push s h q).trans b2).trans c1.withEng, c2, ?_, ?_, c5, c6⟩
      · rw [c3]
        simp only [Rest.result, ha, applyActs_cons, hte]
        rfl
      · have c4' := c4
        simp only [Rest.result, postsLeft_nil, hte] at c4'
        simp only [Rest.result, ha, hq, hte, postsLeft, applyActs_cons, List.append_assoc]
        rw [b1] at *
        simp only [List.cons_append, List.nil_append]
        congr 2
    | cons q' rest =>
      simp only
      refine ⟨[q] ++ m1, by simp, (reaches_push s h q).trans b2, b3, ?_, ?_, ⟨ho.1, ?_⟩,
        .inr ⟨b5.resolve_left (by simp), by simp, by simp [hacts]⟩⟩
      · simp only [Rest.result, hte]; rfl
      · have hj : r.waiting.jobs = r.jobs := rfl
        simp only [Rest.result, hacts, hj, ha, hq, hte, postsLeft, b1]
        simp
      · rw [hte]; exact ho.2

/-! ### An event that waits alone -/

theorem park_none (w : Waiting) (t : State) (hw : t.waiting = []) : park [] [] w (t, Rest.none) = t := by
  show ({ t with waiting := [] } : State) = t
  rw [← hw]

theorem park_blocked (w : Waiting) (t : State) (r : Rest) (hb : Blocked r t) :
    park [] [] w (t, r) = { t with waiting := [r.waiting] } := by
  have hn : r ≠ Rest.none := by rintro rfl; exact hb.2.1 rfl
  have ha : (!r.acts.isEmpty) = true := by simpa using hb.2.2
  unfold park
  rw [if_neg hn, if_pos ha]
  rfl

theorem only_park (w : Waiting) (t : State) (r : Rest) (hw : t.waiting = []) (hh : t.phase = .running → t.held = []) (hb : r = Rest.none ∨ Blocked r t) :
    OnlyForRoom (park [] [] w (t, r)) := by
  rcases hb with rfl | hb
  · rw [park_none w t hw]
    exact ⟨hh, by rw [hw]; simp⟩
  · rw [park_blocked w t r hb]
    refine ⟨hh, fun x hx => ?_⟩
    rw [List.mem_singleton.1 hx]
    exact hb.2

/-- One entry drains: an event that waits alone for room is given the entry's room. -/
theorem drainOne_alone (t : State) (r : Rest) (q : Post) (qs : List Post) (hq : r.bytes = q :: qs) (hacts : r.acts ≠ [])
    (hw : t.waiting = []) (hh : t.phase = .running → t.held = []) (hroom : t.endCycle.beginCycle.posts.length < Config.postingCapacity) :
    drainOne { t with waiting := [r.waiting] }
      = wake Config.wakeFuel (park [] [] r.waiting (runPosts r.waiting qs [] (t.endCycle.beginCycle.push q))) := by
  have honly : ∀ x : State, (x.phase = .running → x.held = []) → OnlyForRoom { x with waiting := [r.waiting] } := by
    intro x hx
    refine ⟨hx, fun y hy => ?_⟩
    rw [List.mem_singleton.1 hy]
    exact ⟨by show r.bytes ≠ []; rw [hq]; simp, hacts⟩
  unfold drainOne
  rw [endInserted_only _ (honly t hh), endCycle_withWaiting, beginCycle_withWaiting]
  unfold grantRoom
  have hf : firstForRoom [] [r.waiting] = some ([], r.waiting, []) := by
    have hb : r.waiting.bytes.isEmpty = false := by
      show r.bytes.isEmpty = false
      rw [hq]; rfl
    rw [firstForRoom, hb, if_neg Bool.false_ne_true]
  simp only [hf]
  rw [if_pos hroom]
  have hb : r.waiting.bytes = q :: qs := hq
  unfold giveRoom
  rw [hb]
  simp only [List.append_nil]
  have hv : ∀ v : State, v.waiting = [] → ({ v with waiting := [] } : State) = v := fun v h => by rw [← h]
  rw [hv _ (by simpa using hw)]

/-- An event that waits alone for room comes to its end as entries drain, within as many drains as it has posts left. -/
theorem park_finishes (w : Waiting) (k : Nat) (t : State) (r : Rest) (hk : (r.result t.eng).2.length ≤ k) (ho : Orderly r t.eng)
    (hw : t.waiting = []) (hh : t.phase = .running → t.held = []) (h : Tidy t) (hb : r = Rest.none ∨ Blocked r t) :
    ∃ n, n ≤ k ∧ Reaches t (r.result t.eng).2 (drained n (park [] [] w (t, r))) ∧ Tidy (drained n (park [] [] w (t, r)))
      ∧ (drained n (park [] [] w (t, r))).eng = (r.result t.eng).1 := by
  have hnone : ∀ k, r = Rest.none → ∃ n, n ≤ k ∧ Reaches t (r.result t.eng).2 (drained n (park [] [] w (t, r)))
      ∧ Tidy (drained n (park [] [] w (t, r))) ∧ (drained n (park [] [] w (t, r))).eng = (r.result t.eng).1 := by
    rintro k rfl
    refine ⟨0, Nat.zero_le _, ?_⟩
    show Reaches t [] (park [] [] w (t, Rest.none)) ∧ Tidy (park [] [] w (t, Rest.none)) ∧ (park [] [] w (t, Rest.none)).eng = t.eng
    rw [park_none w t hw]
    exact ⟨Reaches.refl t, h, rfl⟩
  induction k generalizing t r w with
  | zero =>
    refine hb.elim (hnone 0) fun hb => ?_
    exfalso
    have h0 : (r.result t.eng).2 = [] := List.length_eq_zero_iff.1 (by omega)
    obtain ⟨q, qs, hq⟩ := List.exists_cons_of_ne_nil hb.2.1
    obtain ⟨a, as, ha⟩ := List.exists_cons_of_ne_nil hb.2.2
    simp [Rest.result, hq, ha, postsLeft] at h0
  | succ k ih =>
    refine hb.elim (hnone (k + 1)) fun hbl => ?_
    obtain ⟨q, qs, hq⟩ := List.exists_cons_of_ne_nil hbl.2.1
    have hv := reaches_cycle t h
    have hve : t.endCycle.beginCycle.eng = t.eng := by simp
    have hvw : t.endCycle.beginCycle.waiting = [] := by simpa using hw
    have hvp : t.endCycle.beginCycle.posts.length < Config.postingCapacity := by
      rw [cycle_posts, List.length_tail, hbl.1]; decide
    obtain ⟨made, g0, g1, g2, g3, g4, g5, g6⟩ :=
      runPosts_reaches r q qs hq hbl.2.2 t.endCycle.beginCycle (by rw [hve]; exact ho) hvw hv.2 hvp
    have hd := drainOne_alone t r q qs hq hbl.2.2 hw hh hvp
    cases hr : runPosts r.waiting qs [] (t.endCycle.beginCycle.push q) with
    | mk t' r' =>
      rw [hr] at g1 g2 g3 g4 g5 g6 hd
      simp only at g1 g2 g3 g4 g5 g6
      have hw' : t'.waiting = [] := by rw [g1.1]; exact hvw
      have hh' : t'.phase = .running → t'.held = [] := by rw [g1.1]; simpa using hh
      rw [wake_only _ (only_park r.waiting t' r' hw' hh' g6)] at hd
      have hlen : (r'.result t'.eng).2.length ≤ k := by
        have e1 : (r.result t.endCycle.beginCycle.eng).2.length = made.length + (r'.result t'.eng).2.length := by
          rw [g4]; simp
        rw [hve] at e1
        have e2 : made.length ≠ 0 := fun hc => g0 (List.length_eq_zero_iff.1 hc)
        omega
      obtain ⟨n, i0, i1, i2, i3⟩ := ih r.waiting t' r' hlen g5 hw' hh' g2 g6 (by
        rintro k rfl
        refine ⟨0, Nat.zero_le _, ?_⟩
        show Reaches t' [] (park [] [] r.waiting (t', Rest.none)) ∧ Tidy (park [] [] r.waiting (t', Rest.none))
          ∧ (park [] [] r.waiting (t', Rest.none)).eng = t'.eng
        rw [park_none _ t' hw']
        exact ⟨Reaches.refl t', g2, rfl⟩)
      refine ⟨n + 1, by omega, ?_⟩
      have hdr : drained (n + 1) (park [] [] w (t, r)) = drained n (park [] [] r.waiting (t', r')) := by
        show drained n (drainOne (park [] [] w (t, r))) = _
        rw [park_blocked w t r hbl, hd]
      rw [hdr]
      refine ⟨?_, i2, ?_⟩
      · have := (hv.1.trans g1).trans i1
        rw [hve] at g4
        rw [g4]
        simpa using this
      · rw [i3, g3, hve]

/-! ### Events at a part where nothing waits -/

/-- The engine and the posts of an event's acts and of its later pieces. -/
def wholeEvent (as : List Act) (js : List Job) (e : Engine) : Engine × List Post :=
  Rest.result { holds := [], bytes := [], acts := as, jobs := js } e

/-- A piece of an event begun with nothing waiting, and its later pieces, come to the engine and the posts they have with room for
all of them. -/
theorem piece_finishes (w x : Waiting) (as : List Act) (s : State) (ho : Orderly { holds := [], bytes := [], acts := as, jobs := w.jobs } s.eng)
    (hw : s.waiting = []) (hh : s.phase = .running → s.held = []) (h : Tidy s) :
    let r := wholeEvent as w.jobs s.eng
    let t := park [] [] x (runPiece w as [] s)
    ∃ n, n ≤ r.2.length ∧ Reaches s r.2 (drained n t) ∧ Tidy (drained n t) ∧ (drained n t).eng = r.1 := by
  intro r
  obtain ⟨made, g1, g2, g3, g4, g5, g6⟩ := runPiece_reaches w as s ho hw h
  cases hr : runPiece w as [] s with
  | mk t r' =>
    rw [hr] at g1 g2 g3 g4 g5 g6
    simp only at g1 g2 g3 g4 g5 g6
    obtain ⟨n, i0, i1, i2, i3⟩ := park_finishes x _ t r' (Nat.le_refl _) g5 (by rw [g1.1]; exact hw) (by rw [g1.1]; exact hh) g2 g6
    refine ⟨n, ?_, ?_, i2, ?_⟩
    · show n ≤ (wholeEvent as w.jobs s.eng).2.length
      unfold wholeEvent
      rw [g4]; simp; omega
    · show Reaches s (wholeEvent as w.jobs s.eng).2 _
      unfold wholeEvent
      rw [g4]; exact g1.trans i1
    · rw [i3, g3]; rfl

/-- An event that has nothing before it, as its first piece begun. -/
theorem arrive_piece (j : Job) (js : List Job) (s s' : State) (as : List Act) (hw : s.waiting = [])
    (ha : ∀ a, j = .access a → s.sideTaken a = false) (ho : j.overdue s = false) (hb : j.begin s = (s', as)) :
    arrive j js s = park [] [] (arrival s j js)
      (runPiece { holds := j.arrivesAt s, bytes := [], acts := [], jobs := js } as [] s') := by
  have hf : j.free s [] [] = true := by
    unfold Job.free
    rw [ready_alone s j [] hw ha, ho]
    rfl
  rw [arrive_alone j js s hw ha ho, runJobs, if_pos hf, hb]
  rfl

/-- Posts into bytes that are not the engine's, of decisions in order. -/
def foreignJobs : List Job → Engine → List Post
  | [], _ => []
  | j :: js, e => foreignOf (j.actsOn e) e ++ foreignJobs js (applyActs (j.actsOn e) e).1

theorem sweep_not_ordinary {as : List Act} (h : ∀ a ∈ as, a.ordinary = true) : Act.sweep ∉ as := fun hc => by
  cases h _ hc

theorem shows_applyJobs (js : List Job) (hj : ∀ j ∈ js, j.ofTick) (e : Engine) : Shows e (applyJobs js e).2 (applyJobs js e).1 := by
  induction js generalizing e with
  | nil => exact Shows.refl e
  | cons j js ih =>
    exact (shows_applyActs (j.actsOn e) (sweep_not_ordinary (ofTick_ordinary (hj j (List.mem_cons_self ..)) e)) e).trans
      (ih (fun k hk => hj k (List.mem_cons_of_mem _ hk)) _)

theorem lastPost_foreignJobs (js : List Job) (hj : ∀ j ∈ js, j.ofTick) (e : Engine) (off : Nat) (ho : ¬ engineOwned off) :
    lastPost (applyJobs js e).2 off = lastPost (foreignJobs js e) off := by
  induction js generalizing e with
  | nil => rfl
  | cons j js ih =>
    simp only [applyJobs, foreignJobs, lastPost_append]
    rw [ih (fun k hk => hj k (List.mem_cons_of_mem _ hk)),
      lastPost_foreignOf _ (sweep_not_ordinary (ofTick_ordinary (hj j (List.mem_cons_self ..)) e)) e off ho]

/-- A state reached with the posts of an event is the event finished. -/
theorem finished_of_reaches {s u : State} {e : Engine} {ps others : List Post} (h : Reaches s ps u) (he : u.eng = e)
    (hs : Shows s.eng ps e) (hf : ∀ off, ¬ engineOwned off → lastPost ps off = lastPost others off) :
    Finished s e others u := by
  refine ⟨?_, fun off ho => ?_, fun off b hb => ?_, h.2.2⟩
  · rw [← he]; exact h.1
  · rw [h.2.1, hf off ((engineByte_none e off).1 ho)]
  · rw [h.2.1]
    rw [hs off] at hb
    cases hb' : engineByte s.eng off with
    | none => rw [hb'] at hb; cases hb
    | some v =>
      rw [hb'] at hb
      cases hl : lastPost ps off with
      | none => rw [hl] at hb; exact .inr ⟨rfl, hb⟩
      | some w => rw [hl] at hb; left; simpa using hb

/-- An event begun with nothing waiting finishes. -/
theorem finishes_piece (w x : Waiting) (as : List Act) (s : State) (ho : Orderly { holds := [], bytes := [], acts := as, jobs := w.jobs } s.eng)
    (hsw : Act.sweep ∉ as) (hw : s.waiting = []) (hh : s.phase = .running → s.held = []) (ht : Tidy s) :
    ∃ n, Finished s (wholeEvent as w.jobs s.eng).1 (foreignOf as s.eng ++ foreignJobs w.jobs (applyActs as s.eng).1)
      (drained n (park [] [] x (runPiece w as [] s))) := by
  obtain ⟨n, _, h1, _, h3⟩ := piece_finishes w x as s ho hw hh ht
  refine ⟨n, finished_of_reaches h1 h3 ?_ fun off hoff => ?_⟩
  · exact (shows_applyActs as hsw s.eng).trans (shows_applyJobs w.jobs ho.1 _)
  · simp only [wholeEvent, Rest.result, postsLeft_nil, lastPost_append]
    rw [lastPost_foreignOf as hsw s.eng off hoff, lastPost_foreignJobs w.jobs ho.1 _ off hoff]

/-- A link event at a quiet part finishes. -/
theorem finishes_event {c : Instr} {s : State} {e : Engine} {others : List Post} (hc : exec c s = .next (linkEvent c s))
    (hq : Quiet s) (ht : Tidy s) (hs : Act.sweep ∉ rowActs c s.eng)
    (he : (applyActs (rowActs c s.eng) s.eng).1 = e) (ho : foreignOf (rowActs c s.eng) s.eng = others) : Finishes c s s e others := by
  have h1 : linkEvent c s = arrive (.command c) [] s := by
    unfold linkEvent
    rw [hq.1]
  rw [h1, arrive_piece (.command c) [] s s _ hq.2.1 (by rintro a ⟨⟩) (overdue_none s _ (dueJob_quiet s hq)) rfl] at hc
  obtain ⟨n, hn⟩ := finishes_piece { holds := Job.arrivesAt s (.command c), bytes := [], acts := [], jobs := [] }
    (arrival s (.command c) []) (rowActs c s.eng) s ⟨by simp, .inl rfl⟩ hs hq.2.1 (fun _ => hq.2.2.2.2.2.1) ht
  refine ⟨_, n, hc, ?_⟩
  rw [← he, ← ho]
  simpa [wholeEvent, Rest.result, applyJobs, foreignJobs] using hn

end Sys2Proof.Machine
end

