-- ==== Sys2Proof/WellFormed.lean ====
section
/-!
DEFINITION. Which terms of `Instr` are commands the rows speak of: each check is about the command alone, not about the state.
-/
namespace Sys2Proof

/-- A command as its row has it. -/
def WellFormed : Instr → Bool
  /- R133: the kind of an unknown kind is no report's -/
  | .unknownKind kind _ => !Machine.isReportKind kind
  /- R133, R134: a whole frame with a parity error in some byte -/
  | .parityErrorFrame frame => Machine.isDamagedFrame frame
  /- R138: PARITY is a failed attempt and no delivered status -/
  | .answerOrderStatus st | .answerNextOrderStatus st | .holdOrderStatus st | .retrieveOrderStatus st
  | .releaseOrderStatus st | .divertOrderStatus st | .extendOrderStatus st | .campHoldStatus st | .joinOrderStatus st
  | .dropDestOrderStatus st | .swapOrderStatus st | .campWakeStatus st | .recallLegStatus st | .nightDivertStatus st
  | .nightExpiryDivertStatus st | .shedDivertStatus st | .deferredReleaseStatus st => st != .parity
  /- R172: the byte is the highest of a field -/
  | .setupFieldTake off _ => (Machine.fieldOfTop off.toNat).isSome
  /- R138: the status byte fails the attempt -/
  | .statusByteFailedAttempt b => Machine.failingStatus b
  /- R102: a tick has at most one expiry a slot -/
  | .tick before => decide (before ≤ 64)
  | .answer _ | .hold _ | .retrieve _ | .extend _ | .complete _ | .cancel _ | .swap _ | .release _ | .divert _ => true
  | .answerNext | .day | .night | .resetEstimate | .restart => true
  | .offer _ _ _ _ | .cleared _ | .destAnswer _ | .destCleared _ | .station _ _ _ | .reportStatusSent => true
  | .scsAsserted | .scsDropped | .arbitrationWindowEnd | .orderFrameSent | .linkWaitTimeout => true
  | .srstAsserted _ | .srstDriveEnd | .srstDeasserted _ => true
  | .holdTimerExpiry _ | .campTimerExpiry _ | .noansTimerExpiry _ | .nightExpiry _ => true
  | .processorWrite _ _ | .snapshot _ | .causeWordRead | .insertedCycle _ | .postingQueueRoom | .journalTailWrite _ => true
  | .powerOnReset | .resetRelease _ | .initializationSweep | .startupEnd => true

end Sys2Proof
end

