-- ==== Sys2Proof/Laws/PerInstr.lean ====
section
/-!
SUPPORT. Each command's well-formedness, said in the words of its row: what its operands may be.
-/
open Sys2Proof.Machine
namespace Sys2Proof.Laws

/-- The operands that a command's row admits. -/
def Admits : Instr → Prop
  | .unknownKind kind _ => kind.toNat < 0x81 ∨ 0x85 < kind.toNat
  | .parityErrorFrame frame =>
    ∃ k rest, frame = k :: rest ∧ (∃ b ∈ frame, badParity b = true)
      ∧ frame.length = if k.data = 0x81 then 7 else if k.data = 0x85 then 5 else 3
  | .answerOrderStatus st | .answerNextOrderStatus st | .holdOrderStatus st | .retrieveOrderStatus st
  | .releaseOrderStatus st | .divertOrderStatus st | .extendOrderStatus st | .campHoldStatus st | .joinOrderStatus st
  | .dropDestOrderStatus st | .swapOrderStatus st | .campWakeStatus st | .recallLegStatus st | .nightDivertStatus st
  | .nightExpiryDivertStatus st | .shedDivertStatus st | .deferredReleaseStatus st => st ≠ .parity
  | .setupFieldTake off _ => ∃ f : SetupField, off.toNat = f.off + f.width - 1
  | .statusByteFailedAttempt b => badParity b = true ∨ b.data = 0 ∨ b.data = 12 ∨ 13 < b.data.toNat
  | .tick before => before ≤ 64
  | .answer _ | .hold _ | .retrieve _ | .extend _ | .complete _ | .cancel _ | .swap _ | .release _ | .divert _ => True
  | .answerNext | .day | .night | .resetEstimate | .restart => True
  | .offer _ _ _ _ | .cleared _ | .destAnswer _ | .destCleared _ | .station _ _ _ | .reportStatusSent => True
  | .scsAsserted | .scsDropped | .arbitrationWindowEnd | .orderFrameSent | .linkWaitTimeout => True
  | .srstAsserted _ | .srstDriveEnd | .srstDeasserted _ => True
  | .holdTimerExpiry _ | .campTimerExpiry _ | .noansTimerExpiry _ | .nightExpiry _ => True
  | .processorWrite _ _ | .snapshot _ | .causeWordRead | .insertedCycle _ | .postingQueueRoom | .journalTailWrite _ => True
  | .powerOnReset | .resetRelease _ | .initializationSweep | .startupEnd => True

/-- The check agrees with the row. -/
def SoundCommand.Statement (i : Instr) : Prop := WellFormed i = true ↔ Admits i

theorem plain_check : (true = true) ↔ True := iff_of_true rfl trivial

theorem status_check (st : Status) : (st != .parity) = true ↔ st ≠ .parity := bne_iff_ne

theorem unknownKind_check : ∀ kind : Byte, (!isReportKind kind) = true ↔ kind.toNat < 0x81 ∨ 0x85 < kind.toNat := by
  decide

theorem damagedFrame_check (frame : List LinkByte) :
    isDamagedFrame frame = true ↔
      ∃ k rest, frame = k :: rest ∧ (∃ b ∈ frame, badParity b = true)
        ∧ frame.length = if k.data = 0x81 then 7 else if k.data = 0x85 then 5 else 3 := by
  cases frame with
  | nil => simp [isDamagedFrame]
  | cons k rest =>
    simp only [isDamagedFrame, frameLength, offerKind, stationKind, Bool.and_eq_true, beq_iff_eq, List.any_eq_true]
    exact ⟨fun h => ⟨k, rest, rfl, h.2, h.1⟩, fun ⟨_, _, he, hb, hl⟩ => by cases he; exact ⟨hl, hb⟩⟩

theorem mem_fields (f : SetupField) : f ∈ SetupField.validity :: valueFields := by
  cases f with
  | cap g | countThreshold g | estimateThreshold g | oldestThreshold g | duration g | detector g | overflowDest g | shift g
  | reference g => revert g; decide
  | _ => decide

theorem fieldTop_check (off : Byte) :
    (fieldOfTop off.toNat).isSome = true ↔ ∃ f : SetupField, off.toNat = f.off + f.width - 1 := by
  simp only [fieldOfTop, List.find?_isSome, beq_iff_eq]
  exact ⟨fun ⟨f, _, h⟩ => ⟨f, h.symm⟩, fun ⟨f, h⟩ => ⟨f, mem_fields f, h.symm⟩⟩

theorem failing_codes : ∀ d : Byte, (statusOf d == none || statusOf d == some .parity) = true ↔ d = 0 ∨ d = 12 ∨ 13 < d.toNat := by
  decide

theorem failingStatus_check (b : LinkByte) :
    failingStatus b = true ↔ badParity b = true ∨ b.data = 0 ∨ b.data = 12 ∨ 13 < b.data.toNat := by
  rw [failingStatus, Bool.or_assoc, Bool.or_eq_true, failing_codes]

theorem SoundCommand.answer (slot : SlotId) : SoundCommand.Statement (.answer slot) := plain_check
theorem SoundCommand.hold (slot : SlotId) : SoundCommand.Statement (.hold slot) := plain_check
theorem SoundCommand.retrieve (slot : SlotId) : SoundCommand.Statement (.retrieve slot) := plain_check
theorem SoundCommand.extend (slot : SlotId) : SoundCommand.Statement (.extend slot) := plain_check
theorem SoundCommand.complete (slot : SlotId) : SoundCommand.Statement (.complete slot) := plain_check
theorem SoundCommand.cancel (slot : SlotId) : SoundCommand.Statement (.cancel slot) := plain_check
theorem SoundCommand.swap (slot : SlotId) : SoundCommand.Statement (.swap slot) := plain_check
theorem SoundCommand.release (slot : SlotId) : SoundCommand.Statement (.release slot) := plain_check
theorem SoundCommand.divert (slot : SlotId) : SoundCommand.Statement (.divert slot) := plain_check
theorem SoundCommand.answerNext : SoundCommand.Statement (.answerNext) := plain_check
theorem SoundCommand.day : SoundCommand.Statement (.day) := plain_check
theorem SoundCommand.night : SoundCommand.Statement (.night) := plain_check
theorem SoundCommand.resetEstimate : SoundCommand.Statement (.resetEstimate) := plain_check
theorem SoundCommand.restart : SoundCommand.Statement (.restart) := plain_check
theorem SoundCommand.offer (ref : BitVec 16) (group cls : Byte) (tag : BitVec 16) : SoundCommand.Statement (.offer ref group cls tag) :=
  plain_check
theorem SoundCommand.cleared (ref : BitVec 16) : SoundCommand.Statement (.cleared ref) := plain_check
theorem SoundCommand.destAnswer (ref : BitVec 16) : SoundCommand.Statement (.destAnswer ref) := plain_check
theorem SoundCommand.destCleared (ref : BitVec 16) : SoundCommand.Statement (.destCleared ref) := plain_check
theorem SoundCommand.station (ref : BitVec 16) (st cond : Byte) : SoundCommand.Statement (.station ref st cond) :=
  plain_check
theorem SoundCommand.unknownKind (kind : Byte) (ref : BitVec 16) : SoundCommand.Statement (.unknownKind kind ref) :=
  unknownKind_check kind
theorem SoundCommand.parityErrorFrame (frame : List LinkByte) : SoundCommand.Statement (.parityErrorFrame frame) :=
  damagedFrame_check frame
theorem SoundCommand.reportStatusSent : SoundCommand.Statement (.reportStatusSent) := plain_check
theorem SoundCommand.answerOrderStatus (st : Status) : SoundCommand.Statement (.answerOrderStatus st) := status_check st
theorem SoundCommand.answerNextOrderStatus (st : Status) : SoundCommand.Statement (.answerNextOrderStatus st) :=
  status_check st
theorem SoundCommand.holdOrderStatus (st : Status) : SoundCommand.Statement (.holdOrderStatus st) := status_check st
theorem SoundCommand.retrieveOrderStatus (st : Status) : SoundCommand.Statement (.retrieveOrderStatus st) :=
  status_check st
theorem SoundCommand.releaseOrderStatus (st : Status) : SoundCommand.Statement (.releaseOrderStatus st) :=
  status_check st
theorem SoundCommand.divertOrderStatus (st : Status) : SoundCommand.Statement (.divertOrderStatus st) := status_check st
theorem SoundCommand.extendOrderStatus (st : Status) : SoundCommand.Statement (.extendOrderStatus st) := status_check st
theorem SoundCommand.campHoldStatus (st : Status) : SoundCommand.Statement (.campHoldStatus st) := status_check st
theorem SoundCommand.joinOrderStatus (st : Status) : SoundCommand.Statement (.joinOrderStatus st) := status_check st
theorem SoundCommand.dropDestOrderStatus (st : Status) : SoundCommand.Statement (.dropDestOrderStatus st) :=
  status_check st
theorem SoundCommand.swapOrderStatus (st : Status) : SoundCommand.Statement (.swapOrderStatus st) := status_check st
theorem SoundCommand.campWakeStatus (st : Status) : SoundCommand.Statement (.campWakeStatus st) := status_check st
theorem SoundCommand.recallLegStatus (st : Status) : SoundCommand.Statement (.recallLegStatus st) := status_check st
theorem SoundCommand.nightDivertStatus (st : Status) : SoundCommand.Statement (.nightDivertStatus st) := status_check st
theorem SoundCommand.nightExpiryDivertStatus (st : Status) : SoundCommand.Statement (.nightExpiryDivertStatus st) :=
  status_check st
theorem SoundCommand.shedDivertStatus (st : Status) : SoundCommand.Statement (.shedDivertStatus st) := status_check st
theorem SoundCommand.deferredReleaseStatus (st : Status) : SoundCommand.Statement (.deferredReleaseStatus st) :=
  status_check st
theorem SoundCommand.scsAsserted : SoundCommand.Statement (.scsAsserted) := plain_check
theorem SoundCommand.scsDropped : SoundCommand.Statement (.scsDropped) := plain_check
theorem SoundCommand.arbitrationWindowEnd : SoundCommand.Statement (.arbitrationWindowEnd) := plain_check
theorem SoundCommand.orderFrameSent : SoundCommand.Statement (.orderFrameSent) := plain_check
theorem SoundCommand.linkWaitTimeout : SoundCommand.Statement (.linkWaitTimeout) := plain_check
theorem SoundCommand.srstAsserted (side : Side) : SoundCommand.Statement (.srstAsserted side) := plain_check
theorem SoundCommand.srstDriveEnd : SoundCommand.Statement (.srstDriveEnd) := plain_check
theorem SoundCommand.srstDeasserted (side : Side) : SoundCommand.Statement (.srstDeasserted side) := plain_check
theorem SoundCommand.tick (before : Nat) : SoundCommand.Statement (.tick before) := decide_eq_true_iff
theorem SoundCommand.holdTimerExpiry (slot : SlotId) : SoundCommand.Statement (.holdTimerExpiry slot) := plain_check
theorem SoundCommand.campTimerExpiry (slot : SlotId) : SoundCommand.Statement (.campTimerExpiry slot) := plain_check
theorem SoundCommand.noansTimerExpiry (slot : SlotId) : SoundCommand.Statement (.noansTimerExpiry slot) := plain_check
theorem SoundCommand.nightExpiry (slot : SlotId) : SoundCommand.Statement (.nightExpiry slot) := plain_check
theorem SoundCommand.processorWrite (addr : BitVec 16) (value : Byte) : SoundCommand.Statement (.processorWrite addr value) :=
  plain_check
theorem SoundCommand.snapshot (addr : BitVec 16) : SoundCommand.Statement (.snapshot addr) := plain_check
theorem SoundCommand.causeWordRead : SoundCommand.Statement (.causeWordRead) := plain_check
theorem SoundCommand.insertedCycle (phase : CyclePhase) : SoundCommand.Statement (.insertedCycle phase) := plain_check
theorem SoundCommand.postingQueueRoom : SoundCommand.Statement (.postingQueueRoom) := plain_check
theorem SoundCommand.journalTailWrite (value : Byte) : SoundCommand.Statement (.journalTailWrite value) := plain_check
theorem SoundCommand.setupFieldTake (off value : Byte) : SoundCommand.Statement (.setupFieldTake off value) :=
  fieldTop_check off
theorem SoundCommand.powerOnReset : SoundCommand.Statement (.powerOnReset) := plain_check
theorem SoundCommand.resetRelease (straps : BitVec 3) : SoundCommand.Statement (.resetRelease straps) := plain_check
theorem SoundCommand.initializationSweep : SoundCommand.Statement (.initializationSweep) := plain_check
theorem SoundCommand.startupEnd : SoundCommand.Statement (.startupEnd) := plain_check
theorem SoundCommand.statusByteFailedAttempt (byte : LinkByte) : SoundCommand.Statement (.statusByteFailedAttempt byte) :=
  failingStatus_check byte

end Sys2Proof.Laws
end

