-- ==== Sys2Proof/Tests/Slice0.lean ====
section
/-!
SUPPORT. The model's own tests: an ill-formed command for each check, the manual's worked figures, and for each statement with
hypotheses a concrete part and operands that meet them.
-/
open Sys2Proof.Machine
namespace Sys2Proof.Tests
set_option Elab.async false

/-! ### Well-formedness -/

theorem test_illformed_kind : WellFormed (.unknownKind 0x81 1) = false := by decide

theorem test_illformed_frame_without_error : WellFormed (.parityErrorFrame [withParity 0x82, withParity 1, withParity 0]) = false := by
  decide

theorem test_illformed_frame_of_wrong_length :
    WellFormed (.parityErrorFrame [withParity 0x81, { data := 1, sdp := true }, withParity 0]) = false := by decide

theorem test_illformed_status : WellFormed (.releaseOrderStatus .parity) = false := by decide

theorem test_illformed_low_byte : WellFormed (.setupFieldTake 0x0A 0) = false := by decide

theorem test_illformed_delivered_status : WellFormed (.statusByteFailedAttempt (withParity 1)) = false := by decide

theorem test_illformed_tick : WellFormed (.tick 65) = false := by decide

/-! ### Worked figures of the manual -/

/-- The ranks and the order of the answer queue (spec/02, Worked sequence: ranks in the queue). -/
theorem test_ranks_in_the_queue :
    let e (i : SlotId) (g : GroupId) (c : CallClass) (t : Nat) : Entry :=
      { slot := i, group := g, cls := c, time := t, rank := t - Setup.default.advance c, sampled := false }
    ([e 0 1 .external 12000, e 1 1 .internal 12010, e 2 3 .priority 12150, e 7 4 .recall 12400].foldl
      (fun q y => insertEntry y q) []).map (fun y => (y.slot, y.rank)) = [(7, 11800), (2, 11850), (0, 12000), (1, 12010)] := by
  decide

/-- The estimate figures (spec/06, Worked figures: the estimate). -/
theorem test_estimate_figures :
    updateEstimate 300 450 3 = 319 ∧ updateEstimate 319 120 3 = 294 ∧ updateEstimate 294 294 3 = 294
      ∧ updateEstimate 294 295 3 = 295 ∧ updateEstimate 0 65535 7 = 512 ∧ updateEstimate 0 65535 0 = 65535 := by
  decide

/-- An append on a full ring, and the tail write that frees it (spec/09, Worked figures: a full ring). -/
theorem test_full_ring :
    let j : Journal := { head := 2, tail := 3, lowCopy := 10, overrun := true }
    j.unread = 511 ∧ j.appended = j
      ∧ (({ State.reset.eng with journal := j } : Engine).tailWrite 0).1.journal = { j with tail := 10, overrun := false } := by
  decide

/-- Counts and states of six evaluations with a duration of 3 (spec/06, Worked figures: the duration counter). -/
theorem test_duration_figures :
    let run (decay : Bool) : List (Nat × Bool) :=
      ([true, true, false, true, true, true].foldl
        (fun (r : List (Nat × Bool)) cond => r ++ [durationStep decay cond (r.getLastD (0, false)).2 (r.getLastD (0, false)).1 3]) [])
    run false = [(1, false), (2, false), (0, false), (1, false), (2, false), (0, true)]
      ∧ run true = [(1, false), (2, false), (1, false), (2, false), (3, true), (3, true)] := by
  decide

/-- T_hold written as 8000 is clamped to 6000 (spec/10, Worked sequence: a first power-on and a bad field). -/
theorem test_hold_time_clamped : SetupField.clamp .tHold 0x1F40 = 0x1770 := by decide

/-- Every byte the part sends carries an odd number of ones on its nine lines (R127). -/
theorem test_parity_sent : ∀ b : Byte, badParity (withParity b) = false := by decide

/-! ### States -/

/-- The last slot, whose record is the highest. -/
def last : SlotId := 63

/-- The part RUNNING with the link IDLE and ANY as slot 63's expected state. -/
def part : State :=
  { State.reset with phase := .running, mem := [(4089, 0xFF)]
                     eng := { State.reset.eng with link := { State.reset.eng.link with state := .idle } } }

/-- A slot in a state, with call reference 1 and station 5. -/
def slotIn (st : SlotState) : Slot := { Slot.initial with state := st, callRef := 1, dest := 5 }

/-- The part with slot 63 as given, its call mapped. -/
def having (x : Slot) : State := { part with eng := { part.eng with slots := part.eng.slots.set 63 x, refMap := [(1, 63)] } }

/-- Slot 63's entry. -/
def entry : Entry := { slot := 63, group := 7, cls := .external, time := 0, rank := 0, sampled := false }

/-- The part with slot 63 waiting in the queue. -/
def queued (st : SlotState) : State := { having (slotIn st) with eng := { (having (slotIn st)).eng with queue := [entry] } }

/-- A slot with ORDER set and a request in flight. -/
def asking (st : SlotState) (c : SlotReq) : Slot :=
  { slotIn st with request := some { code := c, station := 0, options := 0, divert := 0 }
                   flags := { timer := false, order := true, side := false, deferred := false } }

/-- A slot with ORDER set and no request. -/
def ordered (st : SlotState) : Slot := { slotIn st with flags := { timer := false, order := true, side := false, deferred := false } }

/-- An order for slot 63. -/
def orderOf (k : OrderKind) (p : Purpose) : Order := { kind := k, slot := 63, callRef := 1, purpose := p }

/-- The part with an order of slot 63 queued. -/
def queuing (k : OrderKind) (p : Purpose) (x : Slot) : State :=
  { having x with eng := { (having x).eng with orders := [orderOf k p] } }

/-- The part awaiting the status of slot 63's order. -/
def awaiting (k : OrderKind) (p : Purpose) (x : Slot) : State :=
  { queuing k p x with eng := { (queuing k p x).eng with
      link := { part.eng.link with state := .awaitStatus, inExchange := true, scc := true } } }

/-- The part with its link in a state. -/
def linkIn (l : LinkState) : State := { part with eng := { part.eng with link := { part.eng.link with state := l } } }

/-- The part taking a report, slot 63 as given. -/
def reporting (x : Slot) : State :=
  { having x with eng := { (having x).eng with link := { part.eng.link with state := .receiving, scs := true } } }

/-- The part with slot 63 TALKING, the EXTEND options given and station 0 in a condition. -/
def extending (options : Byte) (c : Condition) : State :=
  { having (slotIn .talking) with
    mem := if options = 0 then [(4089, 0xFF)] else [(4089, 0xFF), (4091, options)]
    eng := { (having (slotIn .talking)).eng with stations := part.eng.stations.set 0 c } }

/-- A slot as a status finds it, with its return state. -/
def returning (x : Slot) (st : SlotState) : Slot := { x with ret := some st, kept := some entry }

/-! ### Single steps -/

/-- What holds of the state that a command answers. -/
def after (c : Instr) (s : State) (p : State → Bool) : Bool :=
  match exec c s with
  | .next t => p t
  | .fault _ => false
  | .refused _ => false

/-- The last slot's ANSWER: CONNECTING, the talk path its own, the part claiming the link (R51, R131). -/
theorem test_answer :
    after (.answer last) (queued .offered) (fun t =>
      (t.eng.slot last).state == .connecting && t.eng.talkPath == some last && t.eng.queue == [] && t.eng.link.scc) = true := by
  decide +kernel

/-- A read of console time's lowest byte copies all four (spec/08, Worked sequence: reading console time and the cause word). -/
theorem test_console_time_read :
    after (.snapshot 0x100) { part with mem := [(0x100, 0xFF), (0x102, 1), (4089, 0xFF)] } (fun t =>
      t.readData == 0xFF && t.snapshot == some { base := 0x100, bytes := [0xFF, 0, 1, 0] }) = true := by
  decide +kernel

/-- The cause word's read clears what it returned (the same sequence). -/
theorem test_cause_word_read :
    let s : State := { part with mem := [(0x104, 5), (0x105, 1)], eng := { part.eng with causes := 0x0105 } }
    after .causeWordRead s (fun t => t.readData == 5 && t.eng.causes == 0 && t.readOff 0x104 == 0) = true := by
  decide +kernel

/-! ### A witness for each statement with hypotheses -/

theorem test_witness_StepTakesTheFrontCommand :
    ({ part with pending := [.day, .night] } : State).pending = .day :: [.night]
      ∧ (part.pending = [] ∧ ({ part with moves := [.sack true] } : State).moves = .sack true :: []) ∧ part.moves = [] := by
  decide

theorem test_witness_OrderOnlyRequestsTaken :
    (∀ x ∈ [slotIn .talking, { slotIn .consulting with leg := .ringing }, { slotIn .consulting with leg := .talking }],
      Open (having x) ∧ Room 40 (having x) ∧ Ready (having x) last)
    ∧ ((having (slotIn .talking)).eng.slot last).state = .talking
    ∧ ((having { slotIn .consulting with leg := .talking }).eng.slot last).leg = .talking := by
  simp only [Open, Quiet, Room, Ready]
  decide +kernel

theorem test_witness_AnswerTaken :
    ∀ st ∈ [SlotState.offered, .recalling], Open (queued st) ∧ Room 40 (queued st) ∧ Ready (queued st) last
      ∧ PathFree (queued st).eng last ∧ ((queued st).eng.slot last).state = st ∧ (queued st).eng.entryOf last = some entry := by
  simp only [Open, Quiet, Room, Ready, PathFree]
  decide +kernel

theorem test_witness_RetrieveTaken :
    (∀ st ∈ [SlotState.held, .ringingOut, .camped],
      Open (having (slotIn st)) ∧ Room 40 (having (slotIn st)) ∧ Ready (having (slotIn st)) last
      ∧ PathFree (having (slotIn st)).eng last ∧ ((having (slotIn st)).eng.slot last).state = st)
    ∧ Open (queued .recalling) ∧ Room 40 (queued .recalling) ∧ Ready (queued .recalling) last
    ∧ PathFree (queued .recalling).eng last ∧ (queued .recalling).eng.entryOf last = some entry := by
  simp only [Open, Quiet, Room, Ready, PathFree]
  decide +kernel

theorem test_witness_ExtendTaken :
    ∀ p ∈ [((0 : Byte), Condition.unknown), (0, .idle), (4, .dnd), (2, .busy), (2, .ringing)],
      Open (extending p.1 p.2) ∧ Room 40 (extending p.1 p.2) ∧ Ready (extending p.1 p.2) last
      ∧ ((extending p.1 p.2).eng.slot last).state = .talking
      ∧ (extending p.1 p.2).eng.condition ((extending p.1 p.2).slotOperands last).station = p.2
      ∧ ((extending p.1 p.2).slotOperands last).options = p.1 := by
  simp only [Open, Quiet, Room, Ready]
  decide +kernel

theorem test_witness_RequestsThatEndAtOnce :
    (∀ p ∈ [((0 : Byte), Condition.busy), (0, .ringing), (0, .dnd), (0, .outOfService)],
      Open (extending p.1 p.2) ∧ Room 40 (extending p.1 p.2) ∧ Ready (extending p.1 p.2) last
      ∧ ((extending p.1 p.2).eng.slot last).state = .talking
      ∧ (extending p.1 p.2).eng.condition ((extending p.1 p.2).slotOperands last).station = p.2
      ∧ ((extending p.1 p.2).slotOperands last).options = p.1)
    ∧ Open (having (slotIn .camped)) ∧ Room 40 (having (slotIn .camped)) ∧ Ready (having (slotIn .camped)) last
    ∧ ((having (slotIn .camped)).eng.slot last).state = .camped := by
  simp only [Open, Quiet, Room, Ready]
  decide +kernel

theorem test_witness_ReleaseTaken :
    Open (having (slotIn .held)) ∧ Room 40 (having (slotIn .held)) ∧ Ready (having (slotIn .held)) last
      ∧ ((having (slotIn .held)).eng.slot last).state ≠ .free := by
  simp only [Open, Quiet, Room, Ready]
  decide +kernel

theorem test_witness_ReleaseTakesPrecedence :
    let a := queuing (.hold .music) (.slotRequest .hold) (asking .talking .hold)
    let b := queuing .answer .answerNext (ordered .connecting)
    let c := queuing .recallLeg .recallLeg (ordered .ringingOut)
    let d := awaiting (.hold .music) (.slotRequest .hold) (asking .talking .hold)
    let f := awaiting .recallLeg .recallLeg (ordered .ringingOut)
    let g := queuing .release (.slotRequest .release) (asking .leaving .release)
    (∀ s ∈ [a, b, c, d, f, g], Open s ∧ Room 40 s)
    ∧ (a.eng.slot last).request = some { code := .hold, station := 0, options := 0, divert := 0 }
    ∧ a.eng.orderOf last = some (orderOf (.hold .music) (.slotRequest .hold)) ∧ a.eng.orderInExchange last = false
    ∧ (∀ s ∈ [b, c, f], (s.eng.slot last).request = none ∧ (s.eng.slot last).flags.order = true
        ∧ staleCheckPasses (s.eng.slot last) (s.slotOperands last).expected = true)
    ∧ b.eng.orderOf last = some (orderOf .answer .answerNext) ∧ c.eng.orderOf last = some (orderOf .recallLeg .recallLeg)
    ∧ d.eng.orderInExchange last = true ∧ f.eng.orderInExchange last = true
    ∧ (g.eng.slot last).request = some { code := .release, station := 0, options := 0, divert := 0 } := by
  simp only [Open, Quiet, Room]
  decide +kernel

theorem test_witness_DivertTaken :
    (∀ st ∈ [SlotState.offered, .recalling], Open (queued st) ∧ Room 40 (queued st) ∧ Ready (queued st) last
      ∧ ((queued st).eng.slot last).state = st ∧ (queued st).eng.entryOf last = some entry)
    ∧ ∀ st ∈ [SlotState.held, .camped], Open (having (slotIn st)) ∧ Room 40 (having (slotIn st))
      ∧ Ready (having (slotIn st)) last ∧ ((having (slotIn st)).eng.slot last).state = st := by
  simp only [Open, Quiet, Room, Ready]
  decide +kernel

theorem test_witness_RequestsTurnedAway :
    let stale : State := { having (slotIn .talking) with mem := [(4089, 1)] }
    let wrong := having (slotIn .talking)
    let busy := having (ordered .talking)
    let path : State := { queued .offered with eng := { (queued .offered).eng with talkPath := some 0 } }
    (∀ s ∈ [stale, wrong, busy, path], Open s ∧ Room 40 s ∧ (s.eng.slot last).request = none ∧ s.eng.console.inFlight = none)
    ∧ stale.readOff (slotOff last 25) = 1 ∧ (stale.eng.slot last).state.code = 3
    ∧ (∀ s ∈ [wrong, busy, path], s.readOff (slotOff last 25) = 0xFF)
    ∧ validIn (wrong.eng.slot last) .answer = false
    ∧ validIn (busy.eng.slot last) .hold = true ∧ (busy.eng.slot last).flags.order = true
    ∧ validIn (path.eng.slot last) .answer = true ∧ (path.eng.slot last).flags.order = false ∧ ¬ PathFree path.eng last
    ∧ 9 < (10 : Byte).toNat ∧ 5 < (6 : Byte).toNat := by
  simp only [Open, Quiet, Room, PathFree]
  decide +kernel

theorem test_witness_WithheldRequestsChangeNothing :
    let s := queuing (.hold .music) (.slotRequest .hold) (asking .talking .hold)
    let t : State := { part with eng := { part.eng with console := { part.eng.console with inFlight := some .restart } } }
    Quiet s ∧ Room 40 s ∧ (s.eng.slot last).request = some { code := .hold, station := 0, options := 0, divert := 0 }
      ∧ Quiet t ∧ Room 40 t ∧ t.eng.console.inFlight = some .restart := by
  simp only [Quiet, Room]
  decide +kernel

theorem test_witness_AnswerNextTaken :
    let owned : State := { queued .offered with eng := { (queued .offered).eng with talkPath := some 0 } }
    (∀ s ∈ [queued .offered, queued .recalling],
      Open s ∧ Room 60 s ∧ s.eng.console.inFlight = none ∧ PathFree s.eng last
      ∧ ((s.eng.queue.find? fun z => s.eng.setup.answerMask.getLsbD z.group.val).bind fun z => s.eng.entryOf z.slot) = some entry)
    ∧ part.eng.queue.find? (fun z => part.eng.setup.answerMask.getLsbD z.group.val) = none
    ∧ Open owned ∧ ¬ PathFree owned.eng last
    ∧ owned.eng.queue.find? (fun z => owned.eng.setup.answerMask.getLsbD z.group.val) = some entry := by
  simp only [Open, Quiet, Room, PathFree]
  decide +kernel

theorem test_witness_QueueOrder : [entry, { entry with slot := 0 }].Pairwise (fun y z => y.rank ≤ z.rank) := by decide

theorem test_witness_ModeRequestsTaken :
    let night : State := { queued .offered with eng := { (queued .offered).eng with mode := .night } }
    (∀ s ∈ [queued .offered, night], Open s ∧ Room 40 s ∧ Tidy s ∧ s.eng.console.inFlight = none)
      ∧ (queued .offered).eng.mode = .day ∧ night.eng.mode = .night := by
  simp only [Open, Quiet, Room, Tidy]
  decide +kernel

theorem test_witness_ResetEstimateTaken :
    let seven : State := { part with mem := [(0x10D, 7), (4089, 0xFF)] }
    let eight : State := { part with mem := [(0x10D, 8), (4089, 0xFF)] }
    (∀ s ∈ [seven, eight], Open s ∧ Room 40 s ∧ s.eng.console.inFlight = none)
      ∧ seven.readOff consoleOperandOff = byteOf (7 : GroupId).val ∧ 7 < (eight.readOff consoleOperandOff).toNat := by
  simp only [Open, Quiet, Room]
  decide +kernel

theorem test_witness_RestartTaken : Open part ∧ Room 40 part ∧ part.eng.console.inFlight = none := by
  simp only [Open, Quiet, Room]
  decide +kernel

/-- Every slot but the last TALKING. -/
def crowded : State :=
  { reporting Slot.initial with
    eng := { (reporting Slot.initial).eng with slots := (Vector.replicate 64 (slotIn .talking)).set 63 Slot.initial, refMap := [] } }

theorem test_witness_OfferAccepted :
    Quiet crowded ∧ Room 60 crowded ∧ Receiving crowded.eng.link ∧ offerClass 2 = some .priority ∧ crowded.eng.mapped 0xFFFF = none
      ∧ crowded.eng.mode = .day ∧ (crowded.eng.group 7).overflow = false ∧ (crowded.eng.slot last).state = .free
      ∧ (∀ j, j < last → (crowded.eng.slot j).state ≠ .free)
      ∧ (crowded.eng.queue.filter (·.group == 7)).length < (crowded.eng.setup.group 7).cap := by
  simp only [Quiet, Room, Receiving]
  decide +kernel

theorem test_witness_OfferRefused :
    let dup := reporting (slotIn .held)
    let night : State := { crowded with eng := { crowded.eng with mode := .night } }
    let overflowing : State := { crowded with eng := { crowded.eng with
      monitor := crowded.eng.monitor.set 7 { crowded.eng.group 7 with overflow := true }
      setup := { crowded.eng.setup with groups := crowded.eng.setup.groups.set 7 { GroupSetup.default with policy := .divertNew } } } }
    let noSlot : State := { crowded with eng := { crowded.eng with slots := Vector.replicate 64 (slotIn .talking) } }
    let cap : State := { crowded with eng := { crowded.eng with
      queue := [entry]
      setup := { crowded.eng.setup with groups := crowded.eng.setup.groups.set 7 { GroupSetup.default with cap := 1 } } } }
    (∀ s ∈ [dup, night, overflowing, noSlot, cap], Quiet s ∧ Room 40 s ∧ Receiving s.eng.link)
    ∧ (dup.eng.mapped 1).isSome = true ∧ (∀ s ∈ [night, overflowing, noSlot, cap], s.eng.mapped 1 = none)
    ∧ night.eng.mode = .night
    ∧ (overflowing.eng.group 7).overflow = true ∧ (overflowing.eng.setup.group 7).policy = .divertNew ∧ overflowing.eng.mode = .day
    ∧ (∀ j, (noSlot.eng.slot j).state ≠ .free) ∧ (noSlot.eng.group 7).overflow = false
    ∧ (cap.eng.setup.group 7).cap ≤ (cap.eng.queue.filter (·.group == 7)).length ∧ (cap.eng.group 7).overflow = false := by
  simp only [Quiet, Room, Receiving]
  decide +kernel

theorem test_witness_ClearedReport :
    let asked := reporting (asking .talking .hold)
    let next : State := { reporting (ordered .connecting) with
      eng := { (reporting (ordered .connecting)).eng with orders := [orderOf .answer .answerNext] } }
    let plain := reporting (slotIn .held)
    (∀ s ∈ [asked, next, plain], Quiet s ∧ Room 60 s ∧ Receiving s.eng.link ∧ s.eng.mapped 1 = some last)
    ∧ (asked.eng.slot last).request = some { code := .hold, station := 0, options := 0, divert := 0 }
    ∧ (next.eng.slot last).request = none ∧ (next.eng.orderOf last).any (·.purpose == .answerNext) = true
    ∧ (plain.eng.slot last).request = none ∧ (plain.eng.orderOf last).any (·.purpose == .answerNext) = false := by
  simp only [Quiet, Room, Receiving]
  decide +kernel

theorem test_witness_DestinationReports :
    let ringing := reporting { slotIn .consulting with leg := .ringing }
    let out := reporting (slotIn .ringingOut)
    let asked := reporting (asking .consulting .cancel)
    (∀ s ∈ [ringing, out, asked], Quiet s ∧ Room 40 s ∧ Receiving s.eng.link ∧ s.eng.mapped 1 = some last)
    ∧ (ringing.eng.slot last).state = .consulting ∧ (ringing.eng.slot last).leg = .ringing
    ∧ (ringing.eng.slot last).request = none ∧ (out.eng.slot last).state = .ringingOut
    ∧ (asked.eng.slot last).state = .consulting
    ∧ (asked.eng.slot last).request = some { code := .cancel, station := 0, options := 0, divert := 0 } := by
  simp only [Quiet, Room, Receiving]
  decide +kernel

theorem test_witness_StationReport :
    let camped (x : Slot) : State := { reporting x with eng := { (reporting x).eng with camps := [(5, 63)] } }
    (∀ s ∈ [reporting (slotIn .held), camped (ordered .camped), camped (slotIn .camped)],
      Quiet s ∧ Room 40 s ∧ Receiving s.eng.link)
    ∧ (reporting (slotIn .held)).eng.campHead 5 = none
    ∧ (camped (ordered .camped)).eng.campHead 5 = some last ∧ ((camped (ordered .camped)).eng.slot last).flags.order = true
    ∧ (camped (slotIn .camped)).eng.campHead 5 = some last ∧ ((camped (slotIn .camped)).eng.slot last).flags.order = false := by
  simp only [Quiet, Room, Receiving]
  decide +kernel

theorem test_witness_ReportsTurnedAway :
    let held := reporting (slotIn .held)
    Quiet held ∧ Room 40 held ∧ Receiving held.eng.link ∧ held.eng.mapped 2 = none ∧ held.eng.mapped 1 = some last
      ∧ (held.eng.slot last).state = .held ∧ 5 < (6 : Byte).toNat ∧ (0x80 : Byte).toNat < 0x81 ∧ 0x85 < (0x86 : Byte).toNat
      ∧ isDamagedFrame [{ data := 0x82, sdp := false }, withParity 1, withParity 0] = true := by
  simp only [Quiet, Room, Receiving]
  decide +kernel

/-- The state stands between statuses: an order of the kind and the purpose awaits its status. -/
def AwaitsStatus (k : OrderKind) (p : Purpose) (x : Slot) : Prop :=
  Quiet (awaiting k p x) ∧ Room 60 (awaiting k p x) ∧ Awaits (awaiting k p x) (orderOf k p) []

theorem test_witness_AnswerAccepted :
    (∀ k ∈ [OrderKind.answer, .retrieve], AwaitsStatus k (.slotRequest .answer) (asking .connecting .answer)
      ∧ AwaitsStatus k .answerNext (ordered .connecting)) := by
  simp only [AwaitsStatus, Quiet, Room, Awaits]
  decide +kernel

theorem test_witness_HoldAccepted :
    AwaitsStatus (.hold .music) (.slotRequest .hold) (asking .talking .hold)
      ∧ AwaitsStatus (.hold .camp) (.slotRequest .extend) (asking .talking .extend) := by
  simp only [AwaitsStatus, Quiet, Room, Awaits]
  decide +kernel

theorem test_witness_RetrieveAccepted :
    AwaitsStatus .retrieve (.slotRequest .retrieve) (returning (asking .connecting .retrieve) .ringingOut) := by
  simp only [AwaitsStatus, Quiet, Room, Awaits]
  decide +kernel

theorem test_witness_ReleaseAndDivertEnd :
    AwaitsStatus .release (.slotRequest .release) (asking .leaving .release) ∧ Status.format ≠ .parity
      ∧ AwaitsStatus (.divert 255) (.slotRequest .divert) (asking .leaving .divert)
      ∧ ∀ p ∈ [Purpose.night, .nightExpiry, .shed], AwaitsStatus (.divert 255) p (ordered .leaving) := by
  simp only [AwaitsStatus, Quiet, Room, Awaits]
  decide +kernel

theorem test_witness_ExtendAccepted :
    ∀ b ∈ [true, false], AwaitsStatus (.extend 5 b false) (.slotRequest .extend) (asking .talking .extend) := by
  simp only [AwaitsStatus, Quiet, Room, Awaits]
  decide +kernel

theorem test_witness_ExtendRejected :
    let camping : Slot := { asking .talking .extend with request := some { code := .extend, station := 5, options := 2, divert := 0 } }
    (∀ x ∈ [asking .talking .extend, camping], AwaitsStatus (.extend 5 false false) (.slotRequest .extend) x)
      ∧ camping.campAllowed = true ∧ (asking .talking .extend).campAllowed = false
      ∧ Rejects .state ∧ Status.state ≠ .busy ∧ Status.state ≠ .dnd ∧ Status.state ≠ .noStation := by
  simp only [AwaitsStatus, Quiet, Room, Awaits, Rejects]
  decide +kernel

theorem test_witness_JoinAccepted :
    ∀ l ∈ [Leg.talking, .ringing], AwaitsStatus .join (.slotRequest .complete) { asking .consulting .complete with leg := l } := by
  simp only [AwaitsStatus, Quiet, Room, Awaits]
  decide +kernel

theorem test_witness_DropDestAndSwapAccepted :
    AwaitsStatus .dropDest (.slotRequest .cancel) (asking .consulting .cancel)
      ∧ AwaitsStatus .swap (.slotRequest .swap) { asking .consulting .swap with leg := .talking } := by
  simp only [AwaitsStatus, Quiet, Room, Awaits]
  decide +kernel

/-- The same with the console in NIGHT. -/
def AwaitsStatusInNight (k : OrderKind) (p : Purpose) (x : Slot) : Prop :=
  let s : State := { awaiting k p x with eng := { (awaiting k p x).eng with mode := .night } }
  Quiet s ∧ Room 60 s ∧ Awaits s (orderOf k p) [] ∧ s.eng.mode = .night

theorem test_witness_CampWakeStatus :
    AwaitsStatus (.extend 5 false false) .campWake (ordered .camped)
      ∧ (awaiting (.extend 5 false false) .campWake (ordered .camped)).eng.mode = .day
      ∧ AwaitsStatusInNight (.extend 5 false false) .campWake (ordered .camped)
      ∧ Rejects .state ∧ Status.state ≠ .busy ∧ Status.state ≠ .dnd ∧ Status.state ≠ .noStation := by
  simp only [AwaitsStatus, AwaitsStatusInNight, Quiet, Room, Awaits, Rejects]
  decide +kernel

theorem test_witness_RecallLegStatus :
    AwaitsStatus .recallLeg .recallLeg (ordered .ringingOut)
      ∧ (awaiting .recallLeg .recallLeg (ordered .ringingOut)).eng.mode = .day
      ∧ AwaitsStatusInNight .recallLeg .recallLeg (ordered .ringingOut) ∧ Rejects .busy ∧ Status.busy ≠ .state := by
  simp only [AwaitsStatus, AwaitsStatusInNight, Quiet, Room, Awaits, Rejects]
  decide +kernel

theorem test_witness_NoCallFreesTheSlot :
    AwaitsStatus (.hold .camp) (.slotRequest .extend) (asking .talking .extend)
      ∧ AwaitsStatus .retrieve .answerNext (ordered .connecting) ∧ AwaitsStatus .recallLeg .recallLeg (ordered .ringingOut)
      ∧ Purpose.slotRequest .extend ≠ .slotRequest .release := by
  simp only [AwaitsStatus, Quiet, Room, Awaits]
  decide +kernel

theorem test_witness_RejectedOrderLeavesTheSlot :
    AwaitsStatus (.hold .music) (.slotRequest .hold) (asking .talking .hold)
      ∧ AwaitsStatus (.hold .camp) (.slotRequest .extend) (asking .talking .extend)
      ∧ AwaitsStatus .join (.slotRequest .complete) (asking .consulting .complete)
      ∧ AwaitsStatus .dropDest (.slotRequest .cancel) (asking .consulting .cancel)
      ∧ AwaitsStatus .swap (.slotRequest .swap) (asking .consulting .swap) ∧ Rejects .state := by
  refine ⟨?_, ?_, ?_, ?_, ?_, ?_⟩ <;> simp only [AwaitsStatus, Quiet, Room, Awaits, Rejects] <;> decide +kernel

theorem test_witness_RejectedOrderSendsTheSlotBack :
    AwaitsStatus .answer (.slotRequest .answer) (returning (asking .connecting .answer) .offered)
      ∧ AwaitsStatus .retrieve .answerNext (returning (ordered .connecting) .recalling)
      ∧ AwaitsStatus .retrieve (.slotRequest .retrieve) (returning (asking .connecting .retrieve) .ringingOut)
      ∧ AwaitsStatus (.divert 0) (.slotRequest .divert) (returning (asking .leaving .divert) .camped)
      ∧ AwaitsStatus (.divert 0) .nightExpiry (returning (ordered .leaving) .held)
      ∧ Rejects .noDest := by
  refine ⟨?_, ?_, ?_, ?_, ?_, ?_⟩ <;> simp only [AwaitsStatus, Quiet, Room, Awaits, Rejects] <;> decide +kernel

/-- A slot on whose exchanged order a RELEASE is deferred. -/
def deferring (p : Purpose) : State :=
  awaiting .recallLeg p { asking .leaving .release with flags := { timer := false, order := false, side := false, deferred := true } }

theorem test_witness_DeferredReleaseStatus :
    ∀ p ∈ [Purpose.slotRequest .hold, .answerNext, .recallLeg], Quiet (deferring p) ∧ Room 40 (deferring p)
      ∧ (deferring p).eng.link.state = .awaitStatus ∧ (deferring p).eng.link.inExchange = true
      ∧ (deferring p).eng.orders = [orderOf .recallLeg p] ∧ ((deferring p).eng.slot last).flags.deferred = true := by
  simp only [Quiet, Room]
  decide +kernel

/-- A state with the step of the handshake, the bytes sent and taken and the switch's next move given. -/
def shaking (h : Handshake) (tx rx : List LinkByte) (m : LineMove) (s : State) : State :=
  { s with moves := [m], eng := { s.eng with link := { s.eng.link with hand := h, tx := tx, rx := rx } } }

theorem test_witness_HandshakeSteps :
    let b := withParity 0x82
    let given : State := reporting Slot.initial
    let answered : State := { given with eng := { given.eng with link := { given.eng.link with answer := some .accept } } }
    let order := awaiting .recallLeg .recallLeg (ordered .ringingOut)
    (∀ t ∈ [shaking .idle [] [] (.sack true) part, shaking .sackLow [b, b] [] (.sack false) (linkIn .sending),
        shaking .sackRise [b, b] [] (.sack true) (linkIn .sending), shaking .sackFall [b, b] [] (.sack false) (linkIn .sending),
        shaking .sackFall [b] [] (.sack false) (linkIn .sending), shaking .sackFall [b] [] (.sack false) (linkIn .answering),
        shaking .sstbRise [] [] (.strobe b) given, shaking .sstbRise [] [b, withParity 1] (.strobe (withParity 0)) given,
        shaking .sstbRise [] [] (.strobe b) order, shaking .sstbFall [] [b] .strobeEnd given,
        shaking .sstbFall [] [b] .strobeEnd answered, shaking .sstbFall [] [withParity 1] .strobeEnd order,
        shaking .sstbFall [] [withParity 12] .strobeEnd order], Quiet t ∧ t.pending = [] ∧ t.moves.length = 1)
    ∧ State.reset.phase ≠ .running ∧ (linkIn .sending).eng.link.state = .sending ∧ (linkIn .answering).eng.link.state = .answering
    ∧ given.eng.link.state = .receiving ∧ given.eng.link.answer = none
    ∧ answered.eng.link.answer = some .accept ∧ Room 1 answered
    ∧ order.eng.link.state = .awaitStatus ∧ order.eng.link.inExchange = true
    ∧ order.eng.orders = [orderOf .recallLeg .recallLeg] ∧ withParity 1 = withParity (statusCode .accept) := by
  simp only [Quiet, Room]
  decide +kernel

/-- A frame in progress and a whole one (spec/11, Table 11-7). -/
theorem test_witness_HandshakeSteps_frames :
    Short [withParity 0x82] ∧ FrameRow [withParity 0x82, withParity 1, withParity 0] (.cleared 1) :=
  ⟨⟨_, [], rfl, by decide⟩, .inr ⟨[0x82, 1, 0], 0, 1, 0, rfl, .inr (.inl ⟨rfl, rfl⟩)⟩⟩

theorem test_witness_LinkClaimed :
    let won : State := { queuing .recallLeg .recallLeg (ordered .ringingOut) with
      eng := { (queuing .recallLeg .recallLeg (ordered .ringingOut)).eng with link := (linkIn .arbitrating).eng.link } }
    let lost : State := { won with eng := { won.eng with link := { won.eng.link with scs := true } } }
    let strobed : State := shaking .idle [] [] .strobeEnd (linkIn .sending)
    let asserted : State := { strobed with eng := strobed.eng.onLink fun l => { l with strobe := some (withParity 1) } }
    (∀ s ∈ [linkIn .idle, linkIn .arbitrating, won, lost, linkIn .sending, asserted], Quiet s ∧ Room 10 s)
    ∧ asserted.eng.link.state = .sending ∧ asserted.eng.link.strobe = some (withParity 1)
    ∧ won.eng.link.state = .arbitrating ∧ won.eng.link.scs = false ∧ won.eng.orders = [orderOf .recallLeg .recallLeg]
    ∧ (linkIn .arbitrating).eng.orders = [] ∧ lost.eng.link.scs = true := by
  simp only [Quiet, Room]
  decide +kernel

theorem test_witness_ReportExchangeEnds :
    let status := shaking .sackRise [withParity 1] [] (.sack true) (linkIn .answering)
    let frame := shaking .sstbRise [] [] .strobeEnd (linkIn .receiving)
    let handling : State := { frame with waiting := [{ holds := [.linkController], bytes := [{ off := 0x106, val := 0 }], acts := [], jobs := [] }] }
    (∀ s ∈ [status, frame, linkIn .idle], Quiet s ∧ Room 10 s)
      ∧ (∃ w ∈ handling.waiting, .linkController ∈ w.holds ∧ w.jobs ≠ [.command .scsAsserted])
      ∧ status.eng.link.state = .answering ∧ frame.eng.link.state = .receiving
      ∧ (∀ s ∈ [status, frame], s.eng.link.hand ≠ .idle ∧ s.eng.link.hand ≠ .handling)
      ∧ (linkIn .idle).eng.link.hand = .idle ∧ (linkIn .idle).eng.link.state ≠ .receiving := by
  simp only [Quiet, Room]
  decide +kernel

/-- A state with the attempt count given. -/
def attempted (n : Nat) (s : State) : State := { s with eng := { s.eng with link := { s.eng.link with attempts := n } } }

theorem test_witness_AttemptFails :
    let s := awaiting .recallLeg .recallLeg (ordered .ringingOut)
    let waits := shaking .sstbRise [] [] .strobeEnd s
    (FailsAttempt .linkWaitTimeout waits waits.eng.atLinkUnit ∧ FailsAttempt (.statusByteFailedAttempt (withParity 14)) s s.eng
      ∧ FailsAttempt (.recallLegStatus .parity) s s.eng
      ∧ FailsAttempt (.deferredReleaseStatus .parity) (deferring .answerNext) (deferring .answerNext).eng)
    ∧ (∀ n ∈ [0, 1, 2], ∀ t ∈ [s, waits],
      Quiet (attempted n t) ∧ Room 40 (attempted n t) ∧ (attempted n t).eng.link.attempts = n)
    ∧ (s.eng.slot last).flags.deferred = false ∧ s.eng.link.srst = false
    ∧ ∀ p ∈ [Purpose.slotRequest .hold, .answerNext, .recallLeg],
      Quiet (attempted 1 (deferring p)) ∧ (attempted 1 (deferring p)).eng.orders = [orderOf .recallLeg p]
        ∧ ((deferring p).eng.slot last).flags.deferred = true := by
  refine ⟨⟨.inl ⟨rfl, .inr rfl, by decide, by decide, rfl⟩, .inr (.inl ⟨_, rfl, rfl, rfl, by decide⟩),
    .inr (.inr ⟨orderOf .recallLeg .recallLeg, [], rfl, rfl, rfl, rfl, .inl ⟨by decide, rfl⟩⟩),
    .inr (.inr ⟨orderOf .recallLeg .answerNext, [], rfl, rfl, rfl, rfl, .inr ⟨by decide +kernel, rfl⟩⟩)⟩, ?_⟩
  simp only [Quiet, Room]
  decide +kernel

/-- A state with its SRST lines and the reset due given. -/
def resetting (l : LinkState) (switch drive : Bool) (due : Option ResetCause) : State :=
  { part with eng := { part.eng with link := { part.eng.link with state := l, srstSwitch := switch, srstDrive := drive
                                                                  resetDue := due } } }

theorem test_witness_LinkReset :
    (∀ s ∈ [part, resetting .resetting true false none, resetting .idle false true (some .attempts)],
      Running s ∧ s.eng.due = [] ∧ Tidy s)
    ∧ Quiet part ∧ part.eng.link.srst = false
    ∧ Quiet (resetting .resetting true false none) ∧ (resetting .resetting true false none).eng.link.srst = true
    ∧ (resetting .idle false true (some .attempts)).eng.link.resetDue = some .attempts
    ∧ (resetting .idle false true (some .attempts)).eng.link.srstDrive = true := by
  simp only [Running, Quiet, Tidy]
  decide +kernel

theorem test_witness_LinkResetEnds :
    let restarting (s : State) : State := { s with eng := { s.eng with console := { s.eng.console with inFlight := some .restart } } }
    let driven := resetting .resetting false true none
    let switch := resetting .resetting true false none
    let ended := resetting .resetting false false none
    (∀ s ∈ [driven, switch, ended], ∀ t ∈ [s, restarting s],
      Running t ∧ t.eng.due = [] ∧ t.eng.link.resetDue = none ∧ Room 10 t)
    ∧ Quiet driven ∧ driven.eng.link.srstDrive = true
    ∧ switch.eng.link.srst = true ∧ (linkIn .idle).eng.link.state ≠ .resetting
    ∧ Quiet switch ∧ switch.eng.link.state = .resetting ∧ switch.eng.link.srstDrive = false
    ∧ ended.eng.link.srst = false ∧ ended.eng.link.state = .resetting
    ∧ ended.eng.console.inFlight ≠ some .restart ∧ (restarting ended).eng.console.inFlight = some .restart := by
  simp only [Running, Quiet, Room]
  decide +kernel

/-- Slot 63 with its timer run out and handed over. -/
def expiring (st : SlotState) (k : TimerKind) (m : Mode) : State :=
  let x : Slot := { slotIn st with timer := { kind := k, running := true, deadline := 0 } }
  { having x with eng := { (having x).eng with due := [63], mode := m } }

theorem test_witness_ExpiryApplied :
    ∀ p ∈ [(SlotState.held, TimerKind.hold), (.camped, .camp), (.ringingOut, .noans)], ∀ m ∈ [Mode.day, .night],
      let s := expiring p.1 p.2 m
      Running s ∧ s.eng.due = [last] ∧ s.eng.link.resetDue = none ∧ (s.eng.link.state = .resetting → s.eng.link.srst = true)
        ∧ Room 60 s ∧ (s.eng.slot last).timer.running = true ∧ (s.eng.slot last).timer.kind = p.2 ∧ s.eng.mode = m := by
  simp only [Running, Room]
  decide +kernel

theorem test_witness_TickTaken :
    (Quiet part ∧ Tidy part)
      ∧ ∃ u, Running (expiring .held .hold .day) ∧ (expiring .held .hold .day).eng.due = [last]
        ∧ (expiring .held .hold .day).eng.link.resetDue = none ∧ (expiring .held .hold .day).eng.link.state ≠ .resetting
        ∧ exec (.holdTimerExpiry last) (expiring .held .hold .day) = .next u ∧ u.waiting = [] ∧ u.eng.due = [] := by
  refine ⟨?_, _, ?_, ?_, ?_, ?_, rfl, ?_, ?_⟩ <;> (try simp only [Quiet, Tidy, Running]) <;> decide +kernel

/-- Group 7 with a duration and its mode, combination and state given, slot 63 OFFERED in it. -/
def evaluating (d count : Nat) (decay all on : Bool) : Engine :=
  let e := (queued .offered).eng
  { e with
    setup := { e.setup with
      groups := e.setup.groups.set 7 { GroupSetup.default with countThreshold := 1, duration := d, decay := decay, all := all } }
    monitor := e.monitor.set 7 { estimate := 0, count := count, overflow := on } }

theorem test_witness_OverflowDecided :
    (evaluating 2 0 false false false).oldestOffered 7 = some entry ∧ (entry ∈ (evaluating 2 0 false false false).queue ∧ entry.group = 7
      ∧ ((evaluating 2 0 false false false).slot entry.slot).state = .offered)
    ∧ part.eng.queue = [] ∧ ({ part.eng with ticks := [3, 4] } : Engine).tickTime = 3
    ∧ (∀ all ∈ [true, false], ((evaluating 2 0 false all false).setup.group 7).all = all
      ∧ (evaluating 2 0 false all false).condition? 7 = true)
    ∧ ((evaluating 0 0 false false false).setup.group 7).duration = 0
    ∧ ((evaluating 2 0 false false true).group 7).overflow = true
    ∧ ((evaluating 2 1 false false false).group 7).overflow = false ∧ ((evaluating 2 1 false false false).group 7).count = 1
    ∧ ((evaluating 2 0 false false false).group 7).count = 0
    ∧ ((evaluating 2 1 true false false).setup.group 7).decay = true
    ∧ ((evaluating 2 2 true false true).setup.group 7).decay = true
    ∧ ((evaluating 2 2 true false true).group 7).overflow = true := by
  decide +kernel

theorem test_witness_EstimateUpdate : (0 ≤ 65535 ∧ 65535 ≤ 65535 ∧ 0 ≤ 7) ∧ (65535 ≤ 65535 ∧ 0 ≤ 65535 ∧ 7 ≤ 7) := by decide

/-- The part before RUNNING. -/
def starting (p : Phase) : State := { State.reset with phase := p }

theorem test_witness_WritesPass :
    (part.pwait = false ∧ part.side = .free ∧ part.regionOff 0xFFFF = none)
    ∧ (part.regionOff 0x7FF = some 0x7FF ∧ classOf 0x7FF = .plain) ∧ (State.reset.phase = .inReset ∧ State.reset.pwait = false)
    ∧ (∀ p ∈ [Phase.loaded, .swept], (starting p).phase = p ∧ (starting p).pwait = false ∧ (starting p).side = .free
        ∧ (starting p).regionOff 0x7FF = some 0x7FF ∧ (starting p).regionOff 0x1A = some 0x1A ∧ classOf 0x1A ≠ .plain)
    ∧ Open part ∧ (∀ off ∈ [0x1A, 0x108, 0x819, 0xFF9], off < 8192 ∧ classOf off = .processor)
    ∧ (part.regionOff 0x800 = some 0x800 ∧ classOf 0x800 = .engine) ∧ (part.regionOff 0x1FFF = some 0x1FFF ∧ classOf 0x1FFF = .engine)
    ∧ (part.regionOff 0x104 = some 0x104 ∧ classOf 0x104 = .readToClear) ∧ part.phase = .running
    ∧ Tidy { part with posts := [{ off := 0x100, val := 1 }, { off := 0x108, val := 2 }] } := by
  simp only [Open, Quiet, Tidy]
  decide +kernel

theorem test_witness_ReadsAnswered :
    let copied : State := { part with snapshot := some { base := 0x100, bytes := [255, 0, 1, 0] } }
    let posting : State := { part with posts := [{ off := 0x10C, val := 1 }] }
    (∀ s ∈ [part, copied, posting], s.pwait = false ∧ s.phase = .running ∧ s.side = .free)
    ∧ (State.reset.phase = .inReset ∧ State.reset.pwait = false ∧ State.reset.side = .free)
    ∧ part.regionOff 0x2000 = none ∧ (part.regionOff 0x7FF = some 0x7FF ∧ classOf 0x7FF = .plain)
    ∧ (∀ p ∈ [Phase.loaded, .swept], (starting p).pwait = false ∧ (starting p).side = .free
        ∧ (starting p).regionOff 0x7FF = some 0x7FF ∧ (starting p).regionOff 0x1FFF = some 0x1FFF)
    ∧ (classOf 0x1FFF ≠ .plain ∧ coherentAt 0x1FFF = none) ∧ (classOf 0 ≠ .plain ∧ coherentAt 0 = none)
    ∧ (classOf 0x10C ≠ .plain ∧ coherentAt 0x10C = none ∧ posting.pendingAt 0x10C = some 1 ∧ part.pendingAt 0x10C = none)
    ∧ part.waiting = [] ∧ coherentAt 0x100 = some (0x100, 4) ∧ coherentAt 0x103 = some (0x100, 4)
    ∧ copied.snapshot = some { base := 0x100, bytes := [255, 0, 1, 0] } ∧ part.snapshot = none := by
  decide +kernel

theorem test_witness_CauseWordRead :
    let on : Engine := { part.eng with causes := 0x1000, setup := { part.eng.setup with attnEnable := 0x1000, pinLow := false } }
    Quiet part ∧ Room 2 part ∧ State.reset.phase = .inReset ∧ part.phase ≠ .inReset ∧ part.eng.setup.pinLow = true
      ∧ on.setup.pinLow = false ∧ on.causes.getLsbD 12 = true ∧ on.setup.attnEnable.getLsbD 12 = true ∧ part.eng.causes = 0 := by
  simp only [Quiet, Room]
  decide +kernel

theorem test_witness_PostingQueueDrains :
    let p : Post := { off := 0x100, val := 1 }
    let r : Post := { off := 0x101, val := 2 }
    let s : State := { part with posts := [p, r] }
    let t : State := { part with side := .inserted p }
    let w (bytes : List Post) : Waiting := { holds := [], bytes := bytes, acts := [.advanceTime], jobs := [] }
    let full (n : Nat) : List Post := (List.range n).map fun k => { off := 0x1000 + k, val := 0 }
    let u : State := { part with posts := full 63, waiting := [w [p]] }
    let v : State := { part with posts := full 63, side := .inserted p, waiting := [w [p, r]] }
    let keeping (b : Block) : State := { part with waiting := [{ holds := [b], bytes := [p], acts := [.advanceTime], jobs := [] }] }
    let half : State := { part with posts := full 63, side := .inserted r, waiting := [w [{ off := 0x103, val := 0 }]] }
    let four : List Post := (List.range 4).map fun k => { off := 0x100 + k, val := 0 }
    coherentAt 0x100 = some (0x100, 4)
      ∧ (half.phase = .running ∧ half.pwait = false ∧ OnlyForRoom half ∧ half.eng.due = [] ∧ half.eng.link.resetDue = none
        ∧ half.posts.length < 64 ∧ half.waiting = [{ holds := [], bytes := [{ off := 0x103, val := 0 }], acts := [.advanceTime], jobs := [] }]
        ∧ ∃ x ∈ half.waiting, x.HalfPosted 0x100 4)
      ∧ (∀ x ∈ [p], x.off ≠ r.off) ∧ p.off = ({ p with val := 9 } : Post).off
      ∧ s.side = .free ∧ s.posts = [p, r] ∧ t.side = .inserted p ∧ memWf t.mem = true ∧ t.posts = [] ∧ v.side = .inserted p
      ∧ v.posts ≠ [] ∧ memWf v.mem = true ∧ part.posts = [] ∧ part.side = .free ∧ part.waiting = []
      ∧ (∀ x ∈ [s, t, u, v, keeping .answerQueue, keeping .serviceMonitor], OnlyForRoom x) ∧ u.waiting = [w [p]] ∧ u.posts.length < 64
      ∧ v.waiting = [w [p, r]] ∧ v.posts.length = 63 ∧ (∀ x ∈ v.posts, x.off ≠ p.off ∧ x.off ≠ r.off) ∧ p.off ≠ r.off
      ∧ Quiet t ∧ t.held = [] ∧ t.sideTaken (.read 0xFFFF) = true
      ∧ (∃ x ∈ u.waiting, .timerUnit ∈ x.keeps) ∧ (∃ x ∈ (keeping .answerQueue).waiting, .answerQueue ∈ x.keeps)
      ∧ SetupField.owner (.duration 7) = .serviceMonitor ∧ (∃ x ∈ (keeping .serviceMonitor).waiting, .serviceMonitor ∈ x.keeps)
      ∧ ∀ k < 4, ({ part with posts := four } : State).hasPost (0x100 + k) = true := by
  simp only [Quiet, OnlyForRoom, Waiting.HalfPosted]
  refine ⟨?_, ?_, ?_, ?_, ?_, ?_, ?_, ?_, ?_, ?_, ?_, ?_, ?_, ?_, ?_, ?_⟩ <;> decide +kernel

theorem test_witness_TailAndSetupTaken :
    let j : State := { part with eng := { part.eng with journal := { head := 2, tail := 3, lowCopy := 0xFF, overrun := true } } }
    Open part ∧ Room 8 part ∧ Open j ∧ Room 4 j
      ∧ (0 * 256 + 3 < 512 ∧ (3 + 512 - j.eng.journal.tail) % 512 ≤ (j.eng.journal.head + 512 - j.eng.journal.tail) % 512)
      ∧ ¬ (256 + 512 - part.eng.journal.tail) % 512 ≤ (part.eng.journal.head + 512 - part.eng.journal.tail) % 512
      ∧ SetupField.clamp .tHold 6000 = 6000 ∧ SetupField.clamp .tHold 6001 ≠ 6001 ∧ 12 / 4 % 4 = 3 ∧ 8 / 4 % 4 = 2 := by
  simp only [Open, Quiet, Room]
  decide +kernel

/-- A link reset by the switch whose posts wait for room, with a change of a line behind it. -/
def behindReset (j : Job) : State :=
  { part with
    waiting := [{ holds := [.linkController], bytes := [{ off := 0x111, val := 6 }], acts := [.linkReset], jobs := [] },
      { holds := [.linkController], bytes := [], acts := [], jobs := [j] }]
    eng := { part.eng with link := { part.eng.link with srstSwitch := true } } }

/-- R148: SRST, released while a link reset's posts wait, reads deasserted after RESET. -/
theorem test_powerOnReset_keepsWaitingLine :
    (assertReset (behindReset (.command (.srstDeasserted .switch)))).eng.link.srst = false
      ∧ (assertReset (behindReset (.command .scsAsserted))).eng.link.scs = true
      ∧ (assertReset (behindReset (.line (.sack true)))).eng.link.sackIn = true := by decide +kernel

theorem test_witness_ResetAndSetupLoad :
    let stored : State := { State.reset with mem := [(0xC000, 0xA5)] }
    let reading : State := { starting .swept with held := [.read 0] }
    let writing : State := { starting .swept with held := [.write 0 1] }
    part.waiting = []
      ∧ (∀ j ∈ [Job.command .scsAsserted, .command .scsDropped, .command (.srstAsserted .switch), .command (.srstDeasserted .switch),
          .line (.sack true), .line (.strobe (withParity 1)), .line .strobeEnd, .clock],
        ∃ w ∈ (behindReset j).waiting.getLast?, w.jobs = [j])
      ∧ part.accessesHeld = [] ∧ reading.accessesHeld = [.read 0]
      ∧ (writing.accessesHeld = [.write 0 1] ∧ memWf writing.mem = true)
      ∧ (∀ s ∈ [State.reset, stored], s.phase = .inReset ∧ s.eng = Engine.initial false false false none ∧ s.waiting = [] ∧ Tidy s)
      ∧ memRead stored.mem (6 * 8192) = 0xA5 ∧ memRead State.reset.mem (6 * 8192) ≠ 0xA5
      ∧ State.reset.posts = [] ∧ State.reset.side = .free := by
  refine ⟨rfl, by simp [behindReset], by decide, by decide, by decide, fun s hs => ?_, by decide, by decide, rfl, rfl⟩
  obtain rfl | rfl := by simpa using hs
  all_goals exact ⟨rfl, rfl, rfl, by simp only [Tidy]; decide⟩

theorem test_witness_SweepTaken :
    (starting .loaded).phase = .loaded ∧ (starting .loaded).waiting = [] ∧ Tidy (starting .loaded)
      ∧ (starting .loaded).eng = { Engine.initial false false false none with
          setup := Setup.default, copies := Vector.replicate 256 0, clampNoted := false } :=
  ⟨rfl, rfl, by simp only [Tidy]; decide, rfl⟩

theorem test_witness_StartupEnded :
    let srst : State := { starting .swept with eng := Engine.initial false true false none }
    (∀ s ∈ [starting .swept, srst], s.phase = .swept ∧ s.waiting = [] ∧ s.held = [] ∧ Tidy s ∧ Room 5 s)
      ∧ (starting .swept).eng.link.srst = false ∧ srst.eng.link.srst = true := by
  simp only [Tidy, Room]
  decide +kernel

/-- A read held in start-up is answered when start-up has ended. -/
theorem test_witness_StartupEnded_held :
    ∃ t u, exec .startupEnd (starting .swept) = .next t ∧ Quiet t ∧ exec (Access.read 0).command t = .next u := by
  refine ⟨_, _, rfl, ?_, rfl⟩
  simp only [Quiet]
  decide +kernel

theorem reset_inv : Inv State.reset := by
  refine ⟨by simp only [Tidy]; decide +kernel, fun _ => rfl, .nil, fun b hb => ?_, by decide, by decide, by decide⟩
  exact ⟨BitVec.getLsbD_zero, BitVec.getLsbD_zero⟩

theorem test_witness_StepKeepsTheInvariant : ∃ t, Inv State.reset ∧ step State.reset = .next t := ⟨_, reset_inv, rfl⟩

/-- The part as start-up leaves it: memory holds every engine-owned byte's initial value. -/
def settled : State :=
  { part with mem := [(0x10B, 0xFF), (0x10F, 0xFF), (0x111, 1), (0x114, 0xFF), (0x128, 0xFF), (0x129, 0xFF), (0x12A, 0xFF), (0x12B, 0xFF)]
      ++ [(0x12C, 0xFF), (0x12D, 0xFF), (0x12E, 0xFF), (0x12F, 0xFF)] }

theorem settled_current : Current settled := by
  intro off b h
  by_cases hb : off < 0x1000
  · have hs : ∀ m < 64, ∀ k < 64, (engineByte settled.eng (64 * m + k)).all (settled.readOff (64 * m + k) == ·) = true := by
      decide +kernel
    have := hs (off / 64) (by omega) (off % 64) (by omega)
    rw [Nat.div_add_mod, h] at this
    exact eq_of_beq this
  · simp only [engineByte] at h
    repeat' split at h
    all_goals first | omega | exact absurd h (by simp)

theorem part_settled : Settled part := by
  have hs (i : SlotId) : part.eng.slot i = Slot.initial := by simp [Engine.slot, part, State.reset, Engine.initial]
  refine ⟨rfl, fun i => ?_, .nil, by simp [part, State.reset, Engine.initial], .nil, .nil, .nil, ?_, ?_, ?_, ?_, fun g => ?_, ?_, ?_, ?_, ?_, rfl⟩
  · simp only [Engine.Placed, Engine.Outstanding, Engine.Unasked, hs]
    simp [part, State.reset, Engine.initial, Slot.initial, Engine.orderOf, Timer.off]
  · simp [part, State.reset, Engine.initial]
  · simp [part, State.reset, Engine.initial]
  · decide
  · decide
  · revert g; decide
  · exact ⟨by decide, nofun⟩
  · decide
  · decide
  · decide

theorem test_witness_StructureKept :
    ∃ t n, Settled { part with pending := [.restart] } ∧ step { part with pending := [.restart] } = .next t
      ∧ (drained n t).waiting = [] := by
  refine ⟨_, 0, part_settled, rfl, ?_⟩
  decide +kernel

theorem test_witness_StepKeepsBytesCurrent :
    ∃ t, Quiet settled ∧ Tidy settled ∧ Current settled ∧ step settled = .next t ∧ t.waiting = [] ∧ t.phase = .running := by
  refine ⟨settled, ?_, ?_, settled_current, rfl, rfl, rfl⟩
  · simp only [Quiet]
    decide +kernel
  · simp only [Tidy]
    decide +kernel

theorem test_witness_EveryEventFinishes : Quiet part ∧ Tidy part := by
  simp only [Quiet, Tidy]
  decide +kernel

end Sys2Proof.Tests
end

section
/-!
The answer queue's order (O13): where an entry joins (R28), and the acts by which a new and a reinserted entry join.
-/
namespace Sys2Proof.Machine

/-- `y` stays ahead of a joining entry `x`: its rank is lesser or equal (R28). -/
def staysAhead (x y : Entry) : Bool := decide (y.rank ≤ x.rank)

theorem staysAhead_iff (x y : Entry) : staysAhead x y = true ↔ y.rank ≤ x.rank := decide_eq_true_iff

/-- The entry joins behind the longest run of entries, from the head, that stay ahead of it. -/
theorem insertEntry_eq_takeWhile_append (x : Entry) (q : List Entry) :
    insertEntry x q = q.takeWhile (staysAhead x) ++ x :: q.dropWhile (staysAhead x) := by
  induction q with
  | nil => rfl
  | cons y q ih =>
    by_cases hy : x.rank < y.rank
    · have hstop : ¬ staysAhead x y = true := by simpa [staysAhead_iff] using hy
      simp [insertEntry, hy, hstop]
    · have hgo : staysAhead x y = true := by simpa [staysAhead_iff] using hy
      simp [insertEntry, hy, hgo, ih]

theorem rank_le_of_mem_takeWhile {x y : Entry} {q : List Entry} (h : y ∈ q.takeWhile (staysAhead x)) : y.rank ≤ x.rank :=
  (staysAhead_iff x y).1 (List.mem_takeWhile_imp h)

theorem rank_lt_of_dropWhile_eq_cons {x y : Entry} {q rest : List Entry} (h : q.dropWhile (staysAhead x) = y :: rest) :
    x.rank < y.rank := by
  have hne : q.dropWhile (staysAhead x) ≠ [] := by simp [h]
  have hstop := List.head_dropWhile_not (p := staysAhead x) hne
  simpa [h, staysAhead] using hstop

/-- In a sorted queue the whole part behind the joining entry has greater rank, not only its first entry. -/
theorem rank_lt_of_mem_dropWhile {x y : Entry} {q : List Entry} (hq : rankSorted q)
    (hy : y ∈ q.dropWhile (staysAhead x)) : x.rank < y.rank := by
  have hsorted : rankSorted (q.dropWhile (staysAhead x)) := List.Pairwise.sublist (List.dropWhile_sublist _) hq
  cases hd : q.dropWhile (staysAhead x) with
  | nil => simp [hd] at hy
  | cons z rest =>
    have hz : x.rank < z.rank := rank_lt_of_dropWhile_eq_cons hd
    rw [hd] at hy hsorted
    rcases List.mem_cons.1 hy with rfl | hrest
    · exact hz
    · exact hz.trans_le (List.rel_of_pairwise_cons hsorted hrest)

/-- The one entry that an accepted offer puts into the queue is that of the slot it allocates (R29). -/
theorem acceptOffer_joins (e : Engine) (i : SlotId) (ref : BitVec 16) (g : GroupId) (c : CallClass) (tag : BitVec 16) :
    (acceptOffer e i ref g c tag).filter Act.joins =
      [.enqueue { slot := i, group := g, cls := c, time := e.time, rank := e.rankNow c, sampled := false }] := rfl

/-- The one entry that a recall puts into the queue is the slot's recall entry (R103). -/
theorem recallSlot_joins (e : Engine) (i : SlotId) (r : RecallReason) :
    (recallSlot e i r).filter Act.joins = [.enqueue (e.recallEntry i)] := rfl

/-- A reinsertion puts back the kept entry, if the slot has one, and nothing else (R33). -/
theorem reinsert_joins (e : Engine) (i : SlotId) :
    (reinsert e i).filter Act.joins = ((e.slot i).kept.map Act.enqueue).toList := by
  unfold reinsert
  cases (e.slot i).kept with
  | none => rfl
  | some x => rfl

end Sys2Proof.Machine

namespace Sys2Proof.Proofs
open Sys2Proof.Machine

/-- Settles O13: the split of the queue is the run of entries that stay ahead of the joining one and the rest. -/
theorem queueOrder : Obligations.QueueOrder := by
  refine ⟨fun x q => ?_, fun e x => by rw [effect_enqueue], fun e i ref g c tag => ⟨_, acceptOffer_joins e i ref g c tag, rfl⟩,
    fun e i r => ⟨e.recallEntry i, recallSlot_joins e i r, rfl⟩, reinsert_joins⟩
  exact ⟨q.takeWhile (staysAhead x), q.dropWhile (staysAhead x), List.takeWhile_append_dropWhile.symm,
    insertEntry_eq_takeWhile_append x q, fun _ => rank_le_of_mem_takeWhile, fun _ _ => rank_lt_of_dropWhile_eq_cons,
    fun hq => ⟨fun _ => rank_lt_of_mem_dropWhile hq, rankSorted_insertEntry x q hq⟩⟩

end Sys2Proof.Proofs
end

section
/-!
The update of a service estimate (R113, O47): its step is Mathlib's upper division `d ⌈/⌉ 2 ^ k`, which lies between 1 and the
difference; so an update moves an estimate toward the sample and never past it, and a steady sample is reached.
-/
namespace Sys2Proof.Machine

/-! The step of R113. -/

theorem estimateStep_le (d k : Nat) : d ⌈/⌉ 2 ^ k ≤ d :=
  (ceilDiv_le_iff_le_mul (by positivity)).2 (Nat.le_mul_of_pos_left d (by positivity))

/-- The step is rounded up: an estimate that differs from the sample does not stop short of it. -/
theorem estimateStep_pos {d : Nat} (k : Nat) (hd : 0 < d) : 0 < d ⌈/⌉ 2 ^ k := by
  by_contra h
  have hd0 : d ≤ 2 ^ k * 0 := (ceilDiv_le_iff_le_mul (by positivity)).1 (Nat.not_lt.1 h)
  omega

/-- The sum that step 1 of R113 divides, for a difference of two 16-bit values and a shift of at most 7. -/
theorem estimateSum_le {d k : Nat} (hd : d ≤ 65535) (hk : k ≤ 7) : d + 2 ^ k - 1 ≤ 65662 := by
  have hpow : 2 ^ k ≤ 2 ^ 7 := Nat.pow_le_pow_right (by decide) hk
  omega

/-! One update, by where the sample lies. -/

theorem updateEstimate_of_lt {est w : Nat} (k : Nat) (h : est < w) :
    updateEstimate est w k = est + (w - est) ⌈/⌉ 2 ^ k := by
  simp [updateEstimate, h, Nat.ceilDiv_eq_add_pred_div]

theorem updateEstimate_of_gt {est w : Nat} (k : Nat) (h : w < est) :
    updateEstimate est w k = est - (est - w) ⌈/⌉ 2 ^ k := by
  simp [updateEstimate, h, h.le, Nat.ceilDiv_eq_add_pred_div]

@[simp] theorem updateEstimate_self (est k : Nat) : updateEstimate est est k = est := by
  simp [updateEstimate]

theorem updateEstimate_rises {est w : Nat} (k : Nat) (h : est < w) :
    est < updateEstimate est w k ∧ updateEstimate est w k ≤ w := by
  have hpos := estimateStep_pos k (Nat.sub_pos_of_lt h)
  have hle := estimateStep_le (w - est) k
  rw [updateEstimate_of_lt k h]
  omega

theorem updateEstimate_falls {est w : Nat} (k : Nat) (h : w < est) :
    w ≤ updateEstimate est w k ∧ updateEstimate est w k < est := by
  have hpos := estimateStep_pos k (Nat.sub_pos_of_lt h)
  have hle := estimateStep_le (est - w) k
  rw [updateEstimate_of_gt k h]
  omega

theorem updateEstimate_between (est w k : Nat) :
    min est w ≤ updateEstimate est w k ∧ updateEstimate est w k ≤ max est w := by
  rcases lt_trichotomy est w with h | rfl | h
  · have := updateEstimate_rises k h
    omega
  · simp
  · have := updateEstimate_falls k h
    omega

theorem updateEstimate_ne {est w : Nat} (k : Nat) (h : est ≠ w) : updateEstimate est w k ≠ est := by
  rcases Nat.lt_or_gt_of_ne h with h | h
  · exact (updateEstimate_rises k h).1.ne'
  · exact (updateEstimate_falls k h).2.ne

/-- Without smoothing the estimate is the last sample. -/
theorem updateEstimate_zero_shift (est w : Nat) : updateEstimate est w 0 = w := by
  rcases lt_trichotomy est w with h | rfl | h
  · simp [updateEstimate_of_lt 0 h, h.le]
  · simp
  · simpa [updateEstimate_of_gt 0 h] using Nat.sub_sub_self h.le

/-! A steady sample. -/

/-- Every update by a sample other than the estimate brings it at least 1 nearer, so `n` updates cover a difference of up to `n`. -/
theorem foldl_updateEstimate_replicate (w k n est : Nat) (hlow : w ≤ est + n) (hhigh : est ≤ w + n) :
    (List.replicate n w).foldl (fun x w => updateEstimate x w k) est = w := by
  induction n generalizing est with
  | zero => exact Nat.le_antisymm hhigh hlow
  | succ n ih =>
    rw [List.replicate_succ, List.foldl_cons]
    have hbetween := updateEstimate_between est w k
    have hdiffers : est ≠ w → updateEstimate est w k ≠ est := updateEstimate_ne k
    exact ih _ (by omega) (by omega)

end Sys2Proof.Machine

namespace Sys2Proof.Proofs
open Sys2Proof.Machine

/-- Settles O47: the step is an upper division, and each update by another sample brings the estimate at least 1 nearer. -/
theorem estimateUpdate : Obligations.EstimateUpdate := by
  intro est w k hest hw hk d change new
  have hd : (est < w → d = w - est) ∧ (w < est → d = est - w) ∧ w ≤ est + d ∧ est ≤ w + d
      ∧ d ≤ 65535 ∧ (1 ≤ d → est ≠ w) := by
    simp only [d]
    split <;> omega
  obtain ⟨hrise, hfall, hlow, hhigh, hrange, hdiffers⟩ := hd
  have hchange : change = d ⌈/⌉ 2 ^ k := (Nat.ceilDiv_eq_add_pred_div d (2 ^ k)).symm
  have hbetween : min est w ≤ new ∧ new ≤ max est w := updateEstimate_between est w k
  refine ⟨fun h => ?rises, fun h => ?falls, fun h => ?equal, estimateSum_le hrange hk, hchange ▸ estimateStep_le d k,
    hbetween.1, hbetween.2, hbetween.2.trans (max_le hest hw), fun h => updateEstimate_ne k (hdiffers h), fun h => ?unsmoothed,
    fun h => ?widest, d, le_rfl, foldl_updateEstimate_replicate w k d est hlow hhigh⟩
  case rises => rw [hchange, hrise h]; exact updateEstimate_of_lt k h
  case falls => rw [hchange, hfall h]; exact updateEstimate_of_gt k h
  case equal => subst h; exact updateEstimate_self w k
  case unsmoothed => subst h; exact updateEstimate_zero_shift est w
  case widest => subst h; rfl

end Sys2Proof.Proofs
end
